-- ==== Sys2Proof/Word.lean ====
section
/-! DEFINITION. The word types of HUFFCORE (R5, R6): all numbers are unsigned, bit 0 is the least significant bit. -/

namespace Sys2Proof

/-- A register, a frequency, a node index as read back, a data or information word: 32 bits (R5, R20). -/
abbrev Word32 := BitVec 32

/-- A symbol: `SYM_W` = 21 bits, opaque, compared by value (R5, R83). -/
abbrev Symbol := BitVec 21

/-- The index field of a command word, `cmd.a`: `IDX_W` = 24 bits (R5, R81). -/
abbrev Index24 := BitVec 24

/-- A command word, `CMD_W` = 64 bits (R80). -/
abbrev CmdWord := BitVec 64

/-- A response word, `RSP_W` = 64 bits (R90). -/
abbrev RspWord := BitVec 64

/-- The largest value of a 32-bit register or counter, 2^32 - 1 (R101, R144, R156). -/
abbrev maxWord32 : Nat := 4294967295

end Sys2Proof
end

