-- ==== Sys2Proof/Syntax.lean ====
section
/-! DEFINITION. The seventeen commands of HUFFCORE (R84), one constructor per row of the opcode table. The operands are
those of R83: a 21-bit symbol, a 32-bit count, a bit, a 32-bit register number or selector, a 24-bit index. -/

namespace Sys2Proof

/-- A command (R84), with the operands of its format (R82, R83). -/
inductive Instr where
  /-- NOP (R175). -/
  | nop
  /-- RST (R176). -/
  | rst
  /-- ECLR (R177). -/
  | eclr
  /-- FSYM `sym` (R100). -/
  | fsym (sym : Symbol)
  /-- FADD `sym`, `cnt` (R101). -/
  | fadd (sym : Symbol) (cnt : Word32)
  /-- BUILD (R110). -/
  | build
  /-- GENTAB (R130). -/
  | gentab
  /-- EBEG (R140). -/
  | ebeg
  /-- ESYM `sym` (R141). -/
  | esym (sym : Symbol)
  /-- EEND (R142). -/
  | eend
  /-- DBEG (R155). -/
  | dbeg
  /-- DBIT `bit` (R156); `true` is the bit 1. -/
  | dbit (bit : Bool)
  /-- DEND (R157). -/
  | dend
  /-- RDR `regno` (R178). -/
  | rdr (regno : Word32)
  /-- RDF `idx`, `sel` (R179). -/
  | rdf (idx : Index24) (sel : Word32)
  /-- RDN `idx`, `sel` (R180). -/
  | rdn (idx : Index24) (sel : Word32)
  /-- RDC `idx`, `sel` (R181). -/
  | rdc (idx : Index24) (sel : Word32)
  deriving DecidableEq, Repr

/-- The mnemonic of a command, as the opcode table spells it (R84, R89). -/
def Instr.mnemonic : Instr → String
  | .nop => "NOP"
  | .rst => "RST"
  | .eclr => "ECLR"
  | .fsym _ => "FSYM"
  | .fadd _ _ => "FADD"
  | .build => "BUILD"
  | .gentab => "GENTAB"
  | .ebeg => "EBEG"
  | .esym _ => "ESYM"
  | .eend => "EEND"
  | .dbeg => "DBEG"
  | .dbit _ => "DBIT"
  | .dend => "DEND"
  | .rdr _ => "RDR"
  | .rdf _ _ => "RDF"
  | .rdn _ _ => "RDN"
  | .rdc _ _ => "RDC"

/-- The pseudo-command `FTEXT` (R89): one FSYM for each character, in order. -/
def Instr.ftext (text : List Symbol) : List Instr := text.map Instr.fsym

/-- The pseudo-command `ETEXT` (R89): one ESYM for each character, in order. -/
def Instr.etext (text : List Symbol) : List Instr := text.map Instr.esym

/-- The pseudo-command `DBITS` (R89): one DBIT for each bit, in order. -/
def Instr.dbits (bits : List Bool) : List Instr := bits.map Instr.dbit

end Sys2Proof
end

