-- ==== Sys2Proof/WellFormed.lean ====
section
/-! DEFINITION. Which command words are well formed: the match and mask table of R84, written down row by row apart
from the decoder. The operand widths of R83 are the operand types of `Instr`, so no ill-formed `Instr` can be built;
what can be ill formed is a WORD: an opcode of no row, or a nonzero MBZ bit (R82, R86). -/

namespace Sys2Proof

/-- The six formats (R82). -/
inductive Format where
  /-- No operand: operand A and operand B are MBZ. -/
  | n
  /-- A symbol in operand A; bits 55:53 and operand B are MBZ. -/
  | s
  /-- A symbol in operand A and a count in operand B; bits 55:53 are MBZ. -/
  | sc
  /-- A bit in bit 0 of operand B; every other operand bit is MBZ. -/
  | b
  /-- A register number in operand B; operand A is MBZ. -/
  | r
  /-- An index in operand A and a selector in operand B; no MBZ bit. -/
  | x
  deriving DecidableEq, Repr

/-- The mask of a format: the opcode and every MBZ bit (R82, R84). -/
def Format.mask : Format → CmdWord
  | .n => 0xFFFFFFFFFFFFFFFF
  | .s => 0xFFE00000FFFFFFFF
  | .sc => 0xFFE0000000000000
  | .b => 0xFFFFFFFFFFFFFFFE
  | .r => 0xFFFFFFFF00000000
  | .x => 0xFF00000000000000

/-- A row of the opcode table (R84). -/
structure OpRow where
  /-- The mnemonic, as the table spells it. -/
  mnemonic : String
  /-- The format, which gives the mask. -/
  format : Format
  /-- The match word: the opcode in bits 63:56, zero elsewhere. -/
  pattern : CmdWord
  deriving DecidableEq, Repr

/-- A word is the command of a row when `(w AND mask) = match` (R84). -/
def OpRow.matchesWord (row : OpRow) (w : CmdWord) : Bool :=
  w &&& row.format.mask == row.pattern

/-- The opcode table, rows in the order of R84. -/
def opcodeTable : List OpRow :=
  [ ⟨"NOP", .n, 0x0000000000000000⟩,
    ⟨"RST", .n, 0x0100000000000000⟩,
    ⟨"ECLR", .n, 0x0200000000000000⟩,
    ⟨"FSYM", .s, 0x1000000000000000⟩,
    ⟨"FADD", .sc, 0x1100000000000000⟩,
    ⟨"BUILD", .n, 0x2000000000000000⟩,
    ⟨"GENTAB", .n, 0x2100000000000000⟩,
    ⟨"EBEG", .n, 0x3000000000000000⟩,
    ⟨"ESYM", .s, 0x3100000000000000⟩,
    ⟨"EEND", .n, 0x3200000000000000⟩,
    ⟨"DBEG", .n, 0x4000000000000000⟩,
    ⟨"DBIT", .b, 0x4100000000000000⟩,
    ⟨"DEND", .n, 0x4200000000000000⟩,
    ⟨"RDR", .r, 0x5000000000000000⟩,
    ⟨"RDF", .x, 0x5100000000000000⟩,
    ⟨"RDN", .x, 0x5200000000000000⟩,
    ⟨"RDC", .x, 0x5300000000000000⟩ ]

/-- The mnemonics of the rows a word matches. -/
def matchingRows (w : CmdWord) : List String :=
  (opcodeTable.filter (fun row => row.matchesWord w)).map OpRow.mnemonic

/-- A word is a legal command when exactly one row matches it (R85). -/
def wellFormedWord (w : CmdWord) : Bool := (matchingRows w).length == 1

end Sys2Proof
end

