-- ==== Sys2Proof/Decode.lean ====
section
/-! DEFINITION. Decoding command words, total and rejecting by name (R85, R86), and encoding commands (R81 to R84).
Every command is one 64-bit word (R80), so there is no length to decode and nothing follows the word. -/

namespace Sys2Proof

/-- What the decoder answers: a command, or why the word is illegal (R86). Both rejections are the fault
IllegalCommand when the word is executed; the machine goes on. -/
inductive Decoded where
  /-- The word is this command. -/
  | ok (i : Instr)
  /-- The opcode stands in no row of R84. -/
  | unknownOpcode (op : BitVec 8)
  /-- The opcode stands in a row of R84 and a bit its format does not use is 1. -/
  | mbzNonzero (op : BitVec 8)
  deriving DecidableEq, Repr

/-- The command, where the word is one. -/
def Decoded.toOption : Decoded → Option Instr
  | .ok i => some i
  | .unknownOpcode _ => none
  | .mbzNonzero _ => none

/-- `cmd.op`, bits 63:56 (R81). -/
def cmdOp (w : CmdWord) : BitVec 8 := w.extractLsb' 56 8

/-- `cmd.a`, bits 55:32 (R81). -/
def cmdA (w : CmdWord) : BitVec 24 := w.extractLsb' 32 24

/-- `cmd.b`, bits 31:0 (R81). -/
def cmdB (w : CmdWord) : BitVec 32 := w.extractLsb' 0 32

/-- The command word with the given fields (R81). -/
def cmdWord (op : BitVec 8) (a : BitVec 24) (b : BitVec 32) : CmdWord := op ++ (a ++ b)

/-- Format N: both operands MBZ (R82). -/
def decodeN (w : CmdWord) (i : Instr) : Decoded :=
  if cmdA w = 0 ∧ cmdB w = 0 then .ok i else .mbzNonzero (cmdOp w)

/-- Format S: `sym` = `cmd.a[20:0]`, bits 55:53 and operand B MBZ (R82, R83). -/
def decodeS (w : CmdWord) (f : Symbol → Instr) : Decoded :=
  if (cmdA w).extractLsb' 21 3 = 0 ∧ cmdB w = 0 then .ok (f ((cmdA w).extractLsb' 0 21)) else .mbzNonzero (cmdOp w)

/-- Format SC: `sym` = `cmd.a[20:0]`, `cnt` = `cmd.b`, bits 55:53 MBZ (R82, R83). -/
def decodeSC (w : CmdWord) (f : Symbol → Word32 → Instr) : Decoded :=
  if (cmdA w).extractLsb' 21 3 = 0 then .ok (f ((cmdA w).extractLsb' 0 21) (cmdB w)) else .mbzNonzero (cmdOp w)

/-- Format B: `bit` = `cmd.b[0]`, operand A and bits 31:1 MBZ (R82, R83). -/
def decodeB (w : CmdWord) (f : Bool → Instr) : Decoded :=
  if cmdA w = 0 ∧ (cmdB w).extractLsb' 1 31 = 0 then .ok (f ((cmdB w).getLsbD 0)) else .mbzNonzero (cmdOp w)

/-- Format R: `regno` = `cmd.b`, operand A MBZ (R82, R83). -/
def decodeR (w : CmdWord) (f : Word32 → Instr) : Decoded :=
  if cmdA w = 0 then .ok (f (cmdB w)) else .mbzNonzero (cmdOp w)

/-- Format X: `idx` = `cmd.a`, `sel` = `cmd.b`; no MBZ bit (R82, R83). -/
def decodeX (w : CmdWord) (f : Index24 → Word32 → Instr) : Decoded := .ok (f (cmdA w) (cmdB w))

/-- The command a word is, by its opcode (R84), or why it is illegal (R86). -/
def decode (w : CmdWord) : Decoded :=
  match (cmdOp w).toNat with
  | 0x00 => decodeN w .nop
  | 0x01 => decodeN w .rst
  | 0x02 => decodeN w .eclr
  | 0x10 => decodeS w .fsym
  | 0x11 => decodeSC w .fadd
  | 0x20 => decodeN w .build
  | 0x21 => decodeN w .gentab
  | 0x30 => decodeN w .ebeg
  | 0x31 => decodeS w .esym
  | 0x32 => decodeN w .eend
  | 0x40 => decodeN w .dbeg
  | 0x41 => decodeB w .dbit
  | 0x42 => decodeN w .dend
  | 0x50 => decodeR w .rdr
  | 0x51 => decodeX w .rdf
  | 0x52 => decodeX w .rdn
  | 0x53 => decodeX w .rdc
  | _ => .unknownOpcode (cmdOp w)

/-- Operand A of a command that holds a symbol there: the symbol, widened with zeros (R83). -/
def symOperand (sym : Symbol) : BitVec 24 := sym.setWidth 24

/-- Operand B of DBIT: the bit in bit 0 (R83). -/
def bitOperand (bit : Bool) : BitVec 32 := if bit then 1 else 0

/-- The word of a command (R81 to R84); the bits its format does not use are 0 (MBZ). -/
def encode : Instr → CmdWord
  | .nop => cmdWord 0x00 0 0
  | .rst => cmdWord 0x01 0 0
  | .eclr => cmdWord 0x02 0 0
  | .fsym sym => cmdWord 0x10 (symOperand sym) 0
  | .fadd sym cnt => cmdWord 0x11 (symOperand sym) cnt
  | .build => cmdWord 0x20 0 0
  | .gentab => cmdWord 0x21 0 0
  | .ebeg => cmdWord 0x30 0 0
  | .esym sym => cmdWord 0x31 (symOperand sym) 0
  | .eend => cmdWord 0x32 0 0
  | .dbeg => cmdWord 0x40 0 0
  | .dbit bit => cmdWord 0x41 0 (bitOperand bit)
  | .dend => cmdWord 0x42 0 0
  | .rdr regno => cmdWord 0x50 0 regno
  | .rdf idx sel => cmdWord 0x51 idx sel
  | .rdn idx sel => cmdWord 0x52 idx sel
  | .rdc idx sel => cmdWord 0x53 idx sel

/-- `cmd[63:32]` of a command's own word: opcode and operand A, the information word of the four refusals (R201). -/
def upperHalf (w : CmdWord) : Word32 := w.extractLsb' 32 32

/-- A command is well formed when its word is a legal command word (R84, R85). -/
def Instr.wellFormed (i : Instr) : Bool := wellFormedWord (encode i)

/-- The command word given by the low `nbits` bits of `w`, the bits above them 0. A command is a single 64-bit value,
never seen as bytes (R65), so laying it out leaves it as it is. -/
def tableWord (nbits w : Nat) : CmdWord := BitVec.ofNat 64 (w % 2 ^ nbits)

/-- The command the decoder reads from the word whose bits are `w`, numbered as the opcode table numbers them. -/
def decodeTableWord (nbits w : Nat) : Option Instr := (decode (tableWord nbits w)).toOption

end Sys2Proof
end

