-- ==== Sys2Proof/Config.lean ====
section
/-! DEFINITION. What an implementation of HUFFCORE fixes: the capacity `K_MAX` (R5, D5), the one OPEN parameter of
the spec, and the sizes derived from it. HUFFCORE has no free value (R196). -/

namespace Sys2Proof.Config

/-- How far this implementation's capacity lies below 2^21. No body: nothing in Lean knows its value, so a theorem
about `kMax` holds for every capacity (log entry 1). -/
opaque kMaxSlack : Nat

/-- `K_MAX`, the capacity of the frequency map: some number with 1 ≤ K_MAX ≤ 2^21 (R5, D5), and every such number is
a value it may have. -/
def kMax : Nat := 2097151 - kMaxSlack % 2097152 + 1

/-- The range of `K_MAX` (R5). -/
abbrev kMaxLegal (n : Nat) : Prop := 1 ≤ n ∧ n ≤ 2097152

/-- `N_MAX` = 2·K_MAX − 1, the number of node-memory entries (R5, R39). -/
def nMax (kMax : Nat) : Nat := 2 * kMax - 1

/-- `CODE_MAX` = max(1, K_MAX − 1), the largest code length in bits (R5, R135). -/
def codeMax (kMax : Nat) : Nat := max 1 (kMax - 1)

theorem kMax_legal : kMaxLegal kMax := by
  have := Nat.mod_lt kMaxSlack (show 0 < 2097152 by decide)
  unfold kMaxLegal kMax
  omega

end Sys2Proof.Config
end

