-- ==== Sys2Proof/Machine/State.lean ====
section
/-! DEFINITION. The architectural state of HUFFCORE (R20), as plain data, and its value after reset (R50). -/

namespace Sys2Proof.Machine

/-- A table of the block (FM, NM, CT): the valid entries by index, indices strictly rising. An index that is not
listed is an entry with `valid` = 0, whose other fields hold no value (R38, R39, R41, R50). -/
abbrev Table (α : Type) := List (Nat × α)

/-- A valid entry of the Frequency Map FM (R38). -/
structure FmEntry where
  /-- The symbol. -/
  sym : Symbol
  /-- Its count. -/
  cnt : Word32
  deriving DecidableEq, Repr

/-- A valid entry of the node memory NM (R39): `kind` is the constructor; `sym` of an INTERNAL and `left`, `right` of a
LEAF hold no value, so they are not there. -/
inductive Node where
  /-- `kind` = LEAF (0). -/
  | leaf (freq : Word32) (sym : Symbol)
  /-- `kind` = INTERNAL (1). -/
  | internal (freq : Word32) (left right : Word32)
  deriving DecidableEq, Repr

/-- A valid entry of the Code Table CT (R41). `len` is the length of `bits` (log entry 7); element 0 of `bits` is the
first descent from the root, `true` is the bit 1. -/
structure CtEntry where
  /-- The symbol. -/
  sym : Symbol
  /-- Its code. -/
  bits : List Bool
  deriving DecidableEq, Repr

/-- `PHASE` (R26). The code 3 is never taken. -/
inductive Phase where
  /-- 0: the frequency map is being collected, no tree exists. -/
  | collect
  /-- 1: NM, NN, ROOT hold the tree, FM is frozen. -/
  | built
  /-- 2: CT holds the code table as well. -/
  | ready
  deriving DecidableEq, Repr

/-- An item of the bit output stream BO (R45). -/
inductive BoItem where
  /-- BIT(0), BIT(1). -/
  | bit (b : Bool)
  /-- END. -/
  | endFrame
  /-- ABORT. -/
  | abort
  deriving DecidableEq, Repr

/-- An item of the symbol output stream SO (R46). -/
inductive SoItem where
  /-- SYM(s). -/
  | sym (s : Symbol)
  /-- END. -/
  | endFrame
  /-- ABORT. -/
  | abort
  deriving DecidableEq, Repr

/-- An item of the merged trace of the three output sequences, whose order R76 fixes. -/
inductive OutItem where
  /-- An item of BO. -/
  | bo (x : BoItem)
  /-- An item of SO. -/
  | so (x : SoItem)
  /-- A response word (R90). -/
  | rsp (w : RspWord)
  deriving DecidableEq, Repr

/-- What the host can do to the block (R77, R230). -/
inductive Input where
  /-- Issue a command word on the command port. -/
  | command (w : CmdWord)
  /-- Pulse the hardware reset input. -/
  | reset
  deriving DecidableEq, Repr

/-- The fault kinds of the spec (R200). Each is RAISED by a command and ends it in a next state (R207, R208): none of
them stops the machine. -/
inductive FaultKind where
  /-- Code 1: BUILD with K = 0. -/
  | emptyInput
  /-- Code 2: ESYM whose symbol is in no valid CT entry. -/
  | unknownSymbol
  /-- Code 3: DEND with ROOT and CUR internal. -/
  | truncatedInput
  /-- Code 4: a word that matches no row of the opcode map. -/
  | illegalCommand
  /-- Code 5: a command not legal in the current phase. -/
  | badSequence
  /-- Code 6: a table or counter is full. -/
  | capacityExceeded
  /-- Code 7: a readback that names no readable item. -/
  | badOperand
  deriving DecidableEq, Repr

/-- Why a step stops the machine. The spec never stops it (R208, R243); both reasons belong to states that no run
reaches, in which a rule would read what holds no value. -/
inductive Fault where
  /-- Raised by BUILD, GENTAB, DBIT and DEND when they read a field of a table entry with `valid` = 0, which holds no
  value (R50). Safe: the model stops where the spec gives no value to go on with (log entry 8). -/
  | invalidEntry
  /-- Raised by GENTAB when the walk from ROOT is deeper than the number of nodes, so that NM is no tree and the walk of
  R130 would not end. Safe: the model stops where the spec's walk never answers (log entry 9). -/
  | endlessWalk
  deriving DecidableEq, Repr

/-- Why a step has no meaning. -/
inductive Refusal where
  /-- Raised by `exec` for an instruction that has no meaning yet; every instruction of HUFFCORE has one, so no step
  answers with it. Safe: the model stops. -/
  | notModelled (mnemonic : String)
  deriving DecidableEq, Repr

/-- The state of HUFFCORE (R20), one field per item, and three fields of the model's own: `kMax`, `out`, `inp`. -/
structure State where
  /-- The parameter `K_MAX` of the block (R5, R44), no register; no step writes it (log entry 1). -/
  kMax : Nat
  /-- `K`, the number of valid entries of FM (R21). -/
  k : Word32
  /-- `TOTAL`, the sum of the counts (R22). -/
  total : Word32
  /-- `NN`, the number of valid entries of NM (R23). -/
  nn : Word32
  /-- `ROOT`, the node index of the root (R24). -/
  root : Word32
  /-- `CUR`, the decoder's current node (R35). -/
  cur : Word32
  /-- `PHASE` (R26). -/
  phase : Phase
  /-- `ENC_ACT`: an encode frame is open (R27). -/
  encAct : Bool
  /-- `DEC_ACT`: a decode frame is open (R28). -/
  decAct : Bool
  /-- `ENC_LEN`: BIT items of the current or last completed encode frame (R29). -/
  encLen : Word32
  /-- `ENC_CNT`: symbols of the current or last completed encode frame (R30). -/
  encCnt : Word32
  /-- `DEC_BITS`: bits consumed by the current or last completed decode frame (R31). -/
  decBits : Word32
  /-- `DEC_CNT`: SYM items of the current or last completed decode frame (R32). -/
  decCnt : Word32
  /-- `ERR`, the sticky fault mask (R33). -/
  err : Word32
  /-- `ELAST`, the code of the most recent fault (R34). -/
  eLast : Word32
  /-- `EINFO`, the information word of the most recent fault (R36). -/
  eInfo : Word32
  /-- `FM`, the Frequency Map, by slot (R38). -/
  fm : Table FmEntry
  /-- `NM`, the node memory, by node index (R39). -/
  nm : Table Node
  /-- `CT`, the Code Table, by slot (R41). -/
  ct : Table CtEntry
  /-- BO, SO and the responses since hardware reset, merged, oldest first (R45, R46, R76, R90; log entry 3). -/
  out : List OutItem
  /-- What the host will do next, oldest first (R9, R10; log entry 2). -/
  inp : List Input
  deriving DecidableEq, Repr

/-- The state after hardware reset of a block with capacity `kMax` (R50, R230): every register 0, every table entry
invalid, the streams empty. -/
def State.resetFor (kMax : Nat) : State where
  kMax := kMax
  k := 0
  total := 0
  nn := 0
  root := 0
  cur := 0
  phase := .collect
  encAct := false
  decAct := false
  encLen := 0
  encCnt := 0
  decBits := 0
  decCnt := 0
  err := 0
  eLast := 0
  eInfo := 0
  fm := []
  nm := []
  ct := []
  out := []
  inp := []

/-- The state after hardware reset (R50, R230). -/
def State.reset : State := State.resetFor Config.kMax

/-- The BO item of a trace item, if it is one. -/
def OutItem.toBo : OutItem → Option BoItem
  | .bo x => some x
  | .so _ => none
  | .rsp _ => none

/-- The SO item of a trace item, if it is one. -/
def OutItem.toSo : OutItem → Option SoItem
  | .bo _ => none
  | .so x => some x
  | .rsp _ => none

/-- The response of a trace item, if it is one. -/
def OutItem.toRsp : OutItem → Option RspWord
  | .bo _ => none
  | .so _ => none
  | .rsp w => some w

/-- `BO`, the bit output stream (R45): a view of the merged trace. -/
def State.bo (s : State) : List BoItem := s.out.filterMap OutItem.toBo

/-- `SO`, the symbol output stream (R46): a view of the merged trace. -/
def State.so (s : State) : List SoItem := s.out.filterMap OutItem.toSo

/-- The responses of the run (R10, R90): a view of the merged trace. -/
def State.rsps (s : State) : List RspWord := s.out.filterMap OutItem.toRsp

end Sys2Proof.Machine
end

