-- ==== Sys2Proof/Machine/Ops.lean ====
section
/-! DEFINITION. The named operations of the machine: table access (R7, R66), output and responses (R45, R46, R90),
raising a fault and clearing the fault record (R207, R209), reset (R50, R176, R230), the command port (R60, R77). -/

namespace Sys2Proof.Machine

/-- Every meaning answers with this. -/
abbrev Answer := Host.Outcome State Fault Refusal

/-! Tables -/

/-- `T[i]`: the entry at index `i`, `none` where `valid` = 0 (R7). -/
def Table.read {α : Type} : Table α → Nat → Option α
  | [], _ => none
  | (j, x) :: t, i => if j = i then some x else Table.read t i

/-- `T[i] <- {valid = 1, ...}`: write a whole entry (R7), keeping the indices rising. -/
def Table.write {α : Type} : Table α → Nat → α → Table α
  | [], i, v => [(i, v)]
  | (j, x) :: t, i, v =>
    if i < j then (i, v) :: (j, x) :: t
    else if i = j then (i, v) :: t
    else (j, x) :: Table.write t i v

/-- `lookup(T, s)`: the index and the entry of the valid entry whose `sym` is `s`, or `none` (R7). Where a state held
two such entries, the one with the lower index (log entry 13). -/
def Table.lookup {α : Type} (symOf : α → Symbol) (t : Table α) (sym : Symbol) : Option (Nat × α) :=
  t.find? (fun e => symOf e.2 == sym)

/-- The canonical form of a table: indices strictly rising. -/
abbrev Table.wf {α : Type} (t : Table α) : Prop := (t.map Prod.fst).Pairwise (· < ·)

/-- The canonical form of the three tables, which are all the memory the block has (R66). -/
abbrev Memory.wf (s : State) : Prop := Table.wf s.fm ∧ Table.wf s.nm ∧ Table.wf s.ct

/-! Outputs -/

/-- Append items to the merged trace, in the order given (R76). The core never reads it (R20). -/
def emit (items : List OutItem) (s : State) : State := { s with out := s.out ++ items }

/-- The BIT items of a bit sequence, element 0 first (R61). -/
def bitItems (bits : List Bool) : List OutItem := bits.map (fun b => .bo (.bit b))

/-- A response word: status in bits 63:56, data in bits 31:0, zeros between (R90). -/
def rspWord (status : BitVec 8) (data : Word32) : RspWord := status ++ ((0 : BitVec 24) ++ data)

/-- `respond OK(d)` (R7, R90). -/
def respondOk (data : Word32) (s : State) : State := emit [.rsp (rspWord 0 data)] s

/-! Faults -/

/-- The code of a fault kind (R200). -/
def faultCode : FaultKind → Nat
  | .emptyInput => 1
  | .unknownSymbol => 2
  | .truncatedInput => 3
  | .illegalCommand => 4
  | .badSequence => 5
  | .capacityExceeded => 6
  | .badOperand => 7

/-- `raise X(info)` (R207), the one operation by which a command takes a fault: the bit of ERR, ELAST, EINFO and the
response; nothing else. Control goes nowhere (R208). -/
def raiseFault (x : FaultKind) (info : Word32) (s : State) : State :=
  emit [.rsp (rspWord (BitVec.ofNat 8 (faultCode x)) info)]
    { s with
      err := s.err ||| (1#32 <<< faultCode x)
      eLast := BitVec.ofNat 32 (faultCode x)
      eInfo := info }

/-- Clear the fault record (R177). HUFFCORE has no return from a trap (R209); this is all that undoes a `raise`. -/
def clearFaults (s : State) : State := { s with err := 0, eLast := 0, eInfo := 0 }

/-- Execution of a word that is no command: IllegalCommand with the word's upper half (R86, R201). -/
def illegalCommand (w : CmdWord) (s : State) : State := raiseFault .illegalCommand (upperHalf w) s

/-! Reset -/

/-- The items RST puts on the streams: ABORT on each open frame, BO first (R76, R176). -/
def abortItems (s : State) : List OutItem :=
  (if s.encAct then [.bo .abort] else []) ++ (if s.decAct then [.so .abort] else [])

/-- RST's state change (R50, R176): ABORT on the open frames, then every register and table at its reset value; the
streams keep their history. -/
def softReset (s : State) : State :=
  { State.resetFor s.kMax with out := s.out ++ abortItems s, inp := s.inp }

/-- Hardware reset (R230): every item of state at its reset value, the streams empty; a new run starts, and what the
host does next is untouched. -/
def hardwareReset (s : State) : State := { State.resetFor s.kMax with inp := s.inp }

/-! The command port -/

/-- Take the host's next input (R60, R77): `none` while the host issues nothing. -/
def takeInput (s : State) : Option (Input × State) :=
  match s.inp with
  | [] => none
  | x :: rest => some (x, { s with inp := rest })

/-- Put a command word on the command port, before whatever the host does next. -/
def putCommand (w : CmdWord) (s : State) : State := { s with inp := .command w :: s.inp }

end Sys2Proof.Machine
end

