-- ==== Sys2Proof/Machine/Flags.lean ====
section
/-! DEFINITION. Conditions on the state: the status flags and the STATUS word (R37, R43), the FAULT pin (R212), the
phase check (R88), and the checks that a 32-bit counter does not pass 2^32 − 1 (R101, R144, R156). -/

namespace Sys2Proof.Machine

/-- A node is a LEAF (R7, R39). -/
def Node.isLeaf : Node → Bool
  | .leaf _ _ => true
  | .internal _ _ _ => false

/-- The frequency of a node (R39). -/
def Node.freq : Node → Word32
  | .leaf f _ => f
  | .internal f _ _ => f

/-- `ROOTLEAF` (R37): PHASE ≠ COLLECT and NM[ROOT] is a LEAF. An invalid NM[ROOT], which no run has then, counts as no
LEAF (log entry 10). -/
def rootLeaf (s : State) : Bool :=
  s.phase != .collect && ((Table.read s.nm s.root.toNat).map Node.isLeaf).getD false

/-- `FAULT` (R37): ERR ≠ 0. The level output pin FAULT carries it (R212). -/
def faultPin (s : State) : Bool := s.err != 0

/-- The 2-bit code of `PHASE` (R26). -/
def phaseCode : Phase → BitVec 2
  | .collect => 0
  | .built => 1
  | .ready => 2

/-- The `STATUS` word (R43): PHASE in bits 1:0, ENC_ACT bit 2, DEC_ACT bit 3, ROOTLEAF bit 4, FAULT bit 5. -/
def statusWord (s : State) : Word32 :=
  (0 : BitVec 26) ++ BitVec.ofBool (faultPin s) ++ BitVec.ofBool (rootLeaf s) ++ BitVec.ofBool s.decAct
    ++ BitVec.ofBool s.encAct ++ phaseCode s.phase

/-- The phase check (R88): whether the command is accepted in this state. -/
def accepts : Instr → State → Bool
  | .nop, _ => true
  | .rst, _ => true
  | .eclr, _ => true
  | .rdr _, _ => true
  | .rdf _ _, _ => true
  | .rdn _ _, _ => true
  | .rdc _ _, _ => true
  | .fsym _, s => s.phase == .collect
  | .fadd _ _, s => s.phase == .collect
  | .build, s => s.phase == .collect
  | .gentab, s => s.phase == .built
  | .ebeg, s => s.phase == .ready && !s.encAct
  | .esym _, s => s.encAct
  | .eend, s => s.encAct
  | .dbeg, s => (s.phase == .built || s.phase == .ready) && !s.decAct
  | .dbit _, s => s.decAct
  | .dend, s => s.decAct

/-- A refusal of command `i`: the fault, with the upper half of the command's own word as information (R201, R203). -/
def refuse (x : FaultKind) (i : Instr) (s : State) : Answer := .next (raiseFault x (upperHalf (encode i)) s)

/-- Execute `body` for command `i` if the phase check accepts it, else refuse it with BadSequence (R85, R88). -/
def checked (i : Instr) (s : State) (body : Answer) : Answer :=
  if accepts i s then body else refuse .badSequence i s

/-- The sum of a 32-bit counter and a number, taken without wrap-around, is at most 2^32 − 1 (R101, R144, R156). -/
def fitsCounter (c : Word32) (n : Nat) : Bool := c.toNat + n ≤ maxWord32

end Sys2Proof.Machine
end

