-- ==== Sys2Proof/Machine/CodeTable.lean ====
section
/-! DEFINITION. Unit U2, the code table generator: GENTAB (R130 to R136). -/

namespace Sys2Proof.Machine

/-- `walk(n, path)` (R130), writing into `ct`, at most `fuel` nodes deep: depth first, left before right, 0 for a left
descent and 1 for a right one (R131); a leaf's entry is at the leaf's own index (R132). -/
def walk (nm : Table Node) : Nat → Nat → List Bool → Table CtEntry → Except Fault (Table CtEntry)
  | 0, _, _, _ => .error .endlessWalk
  | fuel + 1, n, path, ct =>
    match Table.read nm n with
    | none => .error .invalidEntry
    | some (.leaf _ sym) => .ok (Table.write ct n ⟨sym, path⟩)
    | some (.internal _ left right) =>
      match walk nm fuel left.toNat (path ++ [false]) ct with
      | .error f => .error f
      | .ok ct' => walk nm fuel right.toNat (path ++ [true]) ct'

/-- The code table of the tree: the walk from ROOT, or the one-bit code `0` where the root is a leaf (R130, R133). NN
nodes are enough depth for any tree of NN nodes. -/
def codeTable (s : State) : Except Fault (Table CtEntry) :=
  match Table.read s.nm s.root.toNat with
  | some (.leaf _ sym) => .ok (Table.write s.ct s.root.toNat ⟨sym, [false]⟩)
  | _ => walk s.nm s.nn.toNat s.root.toNat [] s.ct

/-- GENTAB (R130). -/
def execGentab (s : State) : Answer :=
  checked .gentab s <|
    match codeTable s with
    | .error f => .fault f
    | .ok ct => .next (respondOk 0 { s with ct := ct, phase := .ready })

end Sys2Proof.Machine
end

