-- ==== Sys2Proof/Machine/Decoder.lean ====
section
/-! DEFINITION. Unit U4, the streaming decoder: DBEG, DBIT, DEND (R155 to R165). -/

namespace Sys2Proof.Machine

/-- DBEG (R155): open a decode frame, the current node at the root. -/
def execDbeg (s : State) : Answer :=
  checked .dbeg s <|
    .next (respondOk 0 { s with decAct := true, cur := s.root, decBits := 0, decCnt := 0 })

/-- Emit a decoded symbol on SO and count it (R156, R157). -/
def emitSymbol (sym : Symbol) (s : State) : State := emit [.so (.sym sym)] { s with decCnt := s.decCnt + 1 }

/-- Descend from an internal node with children `left`, `right`: left on bit 0, right on bit 1 (R160). -/
def descend (bit : Bool) (left right : Word32) (s : State) : State :=
  { s with cur := if bit then right else left }

/-- Count the consumed bit and respond OK (R156). -/
def consumeBit (s : State) : Answer := .next (respondOk 0 { s with decBits := s.decBits + 1 })

/-- The walk of DBIT where the root is internal with children `left`, `right` (R156, R160): at a leaf, emit its symbol
and restart at the root; then one descent. -/
def walkBit (bit : Bool) (left right : Word32) (s : State) : Answer :=
  match Table.read s.nm s.cur.toNat with
  | none => .fault .invalidEntry
  | some (.leaf _ sym) => consumeBit (descend bit left right (emitSymbol sym s))
  | some (.internal _ l r) => consumeBit (descend bit l r s)

/-- DBIT `bit` (R156): on a single-symbol tree every bit emits the one symbol (R163). -/
def execDbit (bit : Bool) (s : State) : Answer :=
  checked (.dbit bit) s <|
    if ¬(fitsCounter s.decBits 1) then refuse .capacityExceeded (.dbit bit) s
    else match Table.read s.nm s.root.toNat with
      | none => .fault .invalidEntry
      | some (.leaf _ sym) => consumeBit (emitSymbol sym s)
      | some (.internal _ left right) => walkBit bit left right s

/-- Close the decode frame with END and respond OK (R157). -/
def endDecode (s : State) : Answer := .next (respondOk 0 (emit [.so .endFrame] { s with decAct := false }))

/-- Kill the open decode frame (R162): ABORT on SO, DEC_ACT, DEC_BITS and DEC_CNT cleared, CUR kept. -/
def abortDecode (s : State) : State :=
  emit [.so .abort] { s with decAct := false, decBits := 0, decCnt := 0 }

/-- DEND (R157): on a single-symbol tree END (R163); at a leaf its symbol, then END (R161); at an internal node
TruncatedInput (R162). -/
def execDend (s : State) : Answer :=
  checked .dend s <|
    match Table.read s.nm s.root.toNat with
    | none => .fault .invalidEntry
    | some (.leaf _ _) => endDecode s
    | some (.internal _ _ _) =>
      match Table.read s.nm s.cur.toNat with
      | none => .fault .invalidEntry
      | some (.leaf _ sym) => endDecode (emitSymbol sym s)
      | some (.internal _ _ _) => .next (raiseFault .truncatedInput s.cur (abortDecode s))

end Sys2Proof.Machine
end

