-- ==== Sys2Proof/Machine/Encoder.lean ====
section
/-! DEFINITION. Unit U3, the streaming encoder: EBEG, ESYM, EEND (R140 to R145). -/

namespace Sys2Proof.Machine

/-- EBEG (R140): open an encode frame. -/
def execEbeg (s : State) : Answer :=
  checked .ebeg s <|
    .next (respondOk 0 { s with encAct := true, encLen := 0, encCnt := 0 })

/-- Kill the open encode frame (R143): ABORT on BO, ENC_ACT, ENC_LEN and ENC_CNT cleared. -/
def abortEncode (s : State) : State :=
  emit [.bo .abort] { s with encAct := false, encLen := 0, encCnt := 0 }

/-- Append the code `bits` to the open encode frame (R141). -/
def appendCode (bits : List Bool) (s : State) : State :=
  emit (bitItems bits)
    { s with encLen := s.encLen + BitVec.ofNat 32 bits.length, encCnt := s.encCnt + 1 }

/-- ESYM `sym` (R141): the lookup comes before the capacity check (R205, C10). -/
def execEsym (sym : Symbol) (s : State) : Answer :=
  checked (.esym sym) s <|
    match Table.lookup CtEntry.sym s.ct sym with
    | none => .next (raiseFault .unknownSymbol (sym.setWidth 32) (abortEncode s))
    | some (_, e) =>
      if ¬(fitsCounter s.encLen e.bits.length) then refuse .capacityExceeded (.esym sym) s
      else .next (respondOk 0 (appendCode e.bits s))

/-- EEND (R142): close the encode frame; ENC_LEN and ENC_CNT keep their values. -/
def execEend (s : State) : Answer :=
  checked .eend s <|
    .next (respondOk 0 (emit [.bo .endFrame] { s with encAct := false }))

end Sys2Proof.Machine
end

