-- ==== Sys2Proof/Machine/FrequencyCounter.lean ====
section
/-! DEFINITION. Unit U0, the frequency counter: FSYM and FADD (R100 to R104). -/

namespace Sys2Proof.Machine

/-- Add `cnt` occurrences of `sym` to the map for command `i`, FSYM or FADD (R100, R101). A new symbol takes slot K
(R102). -/
def countSymbol (i : Instr) (sym : Symbol) (cnt : Word32) (s : State) : Answer :=
  checked i s <|
    if cnt = 0 then .next (respondOk 0 s)
    else match Table.lookup FmEntry.sym s.fm sym with
      | none =>
        if ¬(s.k.toNat < s.kMax) then refuse .capacityExceeded i s
        else if ¬(fitsCounter s.total cnt.toNat) then refuse .capacityExceeded i s
        else .next (respondOk 0
          { s with fm := Table.write s.fm s.k.toNat ⟨sym, cnt⟩, k := s.k + 1, total := s.total + cnt })
      | some (slot, e) =>
        if ¬(fitsCounter s.total cnt.toNat) then refuse .capacityExceeded i s
        else .next (respondOk 0
          { s with fm := Table.write s.fm slot ⟨e.sym, e.cnt + cnt⟩, total := s.total + cnt })

/-- FSYM `sym` (R100): FADD `sym`, 1, a fault's information word built from the FSYM word. -/
def execFsym (sym : Symbol) (s : State) : Answer := countSymbol (.fsym sym) sym 1 s

/-- FADD `sym`, `cnt` (R101). -/
def execFadd (sym : Symbol) (cnt : Word32) (s : State) : Answer := countSymbol (.fadd sym cnt) sym cnt s

end Sys2Proof.Machine
end

