-- ==== Sys2Proof/Machine/Operands.lean ====
section
/-! DEFINITION. The readable items of the block: the register map (R43, R44), the table fields (R69), a code read 32
bits at a time (R64), bytes of a frame (R63), and the port codings of the stream items (R45, R46). -/

namespace Sys2Proof.Machine

/-- The number whose `n` binary digits are the first `n` elements of a bit sequence, most significant first; an element
that does not exist counts as 0. -/
def msbFirst : Nat → List Bool → Nat
  | 0, _ => 0
  | n + 1, bits => (bits.headD false).toNat * 2 ^ n + msbFirst n bits.tail

/-- Word `w` of a code (R64): code element `j` is bit 31 − (j mod 32) of word j div 32; bits beyond the code are 0. -/
def codeWord (bits : List Bool) (w : Nat) : Word32 := BitVec.ofNat 32 (msbFirst 32 (bits.drop (32 * w)))

/-- The number of words a code takes in readback (R69). -/
def codeWords (bits : List Bool) : Nat := (bits.length + 31) / 32

/-- `PACK` (R63): the bytes of a frame's bits, most significant bit first, the last byte padded with 0. -/
def pack (bits : List Bool) : List (BitVec 8) :=
  (List.range ((bits.length + 7) / 8)).map (fun j => BitVec.ofNat 8 (msbFirst 8 (bits.drop (8 * j))))

/-- `len` of a Code Table entry as read back (R41). -/
def codeLen (e : CtEntry) : Word32 := BitVec.ofNat 32 e.bits.length

/-- `ENC_BYTES` (R43): (ENC_LEN + 7) div 8, the sum taken without wrap-around. -/
def encBytes (s : State) : Word32 := BitVec.ofNat 32 ((s.encLen.toNat + 7) / 8)

/-- The constant `ID` (R44): ASCII "HUF1". -/
def idWord : Word32 := 0x48554631

/-- `REG[n]` (R43); `none` where register number `n` does not exist. -/
def readReg (s : State) : Nat → Option Word32
  | 0 => some idWord
  | 1 => some (statusWord s)
  | 2 => some s.err
  | 3 => some s.eLast
  | 4 => some s.eInfo
  | 5 => some s.k
  | 6 => some s.total
  | 7 => some s.nn
  | 8 => some s.root
  | 9 => some s.cur
  | 10 => some s.encLen
  | 11 => some s.encCnt
  | 12 => some (encBytes s)
  | 13 => some s.decBits
  | 14 => some s.decCnt
  | 15 => some (BitVec.ofNat 32 s.kMax)
  | _ => none

/-- A field of an FM entry (R69, R179): selector 0 INFO, 1 SYM, 2 CNT; `none` where there is no such item. -/
def readFm (s : State) (idx sel : Nat) : Option Word32 :=
  if ¬(idx < s.kMax ∧ sel ≤ 2) then none
  else match Table.read s.fm idx with
    | none => if sel = 0 then some 0 else none
    | some e =>
      if sel = 0 then some 1
      else if sel = 1 then some (e.sym.setWidth 32)
      else some e.cnt

/-- A field of an NM entry (R69, R180): selector 0 INFO, 1 FREQ, 2 SYM (LEAF only), 3 LEFT and 4 RIGHT (INTERNAL only);
`none` where there is no such item. -/
def readNm (s : State) (idx sel : Nat) : Option Word32 :=
  if ¬(idx < Config.nMax s.kMax ∧ sel ≤ 4) then none
  else match Table.read s.nm idx with
    | none => if sel = 0 then some 0 else none
    | some (.leaf freq sym) =>
      if sel = 0 then some 1
      else if sel = 1 then some freq
      else if sel = 2 then some (sym.setWidth 32)
      else none
    | some (.internal freq left right) =>
      if sel = 0 then some 3
      else if sel = 1 then some freq
      else if sel = 2 then none
      else if sel = 3 then some left
      else some right

/-- A field of a CT entry (R69, R181): selector 0 INFO, 1 SYM, 2 LEN, 3 + w the word `w` of the code; `none` where there
is no such item. -/
def readCt (s : State) (idx sel : Nat) : Option Word32 :=
  if ¬(idx < s.kMax) then none
  else match Table.read s.ct idx with
    | none => if sel = 0 then some 0 else none
    | some e =>
      if sel = 0 then some 1
      else if sel = 1 then some (e.sym.setWidth 32)
      else if sel = 2 then some (codeLen e)
      else if sel - 3 < codeWords e.bits then some (codeWord e.bits (sel - 3))
      else none

/-- Answer a readback command `i`: the value, or BadOperand where there is no such item (R68, R69). -/
def readback (i : Instr) (value : Option Word32) (s : State) : Answer :=
  .next (match value with
    | some d => respondOk d s
    | none => raiseFault .badOperand (upperHalf (encode i)) s)

/-- A BO item on its port, 2 bits (R45). -/
def boPort : BoItem → BitVec 2
  | .bit false => 0b00
  | .bit true => 0b01
  | .endFrame => 0b10
  | .abort => 0b11

/-- An SO item on its port, 23 bits: the kind in bits 22:21, the symbol in bits 20:0 (R46). -/
def soPort : SoItem → BitVec 23
  | .sym s => 0b00#2 ++ s
  | .endFrame => 0b10#2 ++ (0 : Symbol)
  | .abort => 0b11#2 ++ (0 : Symbol)

end Sys2Proof.Machine
end

