-- ==== Sys2Proof/Machine/System.lean ====
section
/-! DEFINITION. The system and readback commands: NOP, RST, ECLR, RDR, RDF, RDN, RDC (R175 to R181). -/

namespace Sys2Proof.Machine

/-- NOP (R175): respond OK, change nothing. -/
def execNop (s : State) : Answer := .next (respondOk 0 s)

/-- RST (R176): end the session; the response comes after the ABORT items (R76). -/
def execRst (s : State) : Answer := .next (respondOk 0 (softReset s))

/-- ECLR (R177): clear the fault record. -/
def execEclr (s : State) : Answer := .next (respondOk 0 (clearFaults s))

/-- RDR `regno` (R178). -/
def execRdr (regno : Word32) (s : State) : Answer := readback (.rdr regno) (readReg s regno.toNat) s

/-- RDF `idx`, `sel` (R179). -/
def execRdf (idx : Index24) (sel : Word32) (s : State) : Answer :=
  readback (.rdf idx sel) (readFm s idx.toNat sel.toNat) s

/-- RDN `idx`, `sel` (R180). -/
def execRdn (idx : Index24) (sel : Word32) (s : State) : Answer :=
  readback (.rdn idx sel) (readNm s idx.toNat sel.toNat) s

/-- RDC `idx`, `sel` (R181). -/
def execRdc (idx : Index24) (sel : Word32) (s : State) : Answer :=
  readback (.rdc idx sel) (readCt s idx.toNat sel.toNat) s

end Sys2Proof.Machine
end

