-- ==== Sys2Proof/Machine/TreeBuilder.lean ====
section
/-! DEFINITION. Unit U1, the tree builder: BUILD (R110 to R120). The collection PQ is hidden state (R47) and lives in
this file's functions only; R119 leaves its form free (log entry 15). -/

namespace Sys2Proof.Machine

/-- An element of PQ: the root of a tree of the forest, by node index, with its frequency. -/
structure ForestRoot where
  /-- Its frequency, NM[idx].freq. -/
  freq : Word32
  /-- Its node index. -/
  idx : Nat
  deriving DecidableEq, Repr

/-- `x << y` (R8): by frequency, unsigned, then by node index. -/
def rootBefore (x y : ForestRoot) : Bool :=
  decide (x.freq < y.freq) || (x.freq == y.freq && decide (x.idx < y.idx))

/-- The `<<`-least of `x` and the elements of a list, and the others (R112). -/
def takeLeast : ForestRoot → List ForestRoot → ForestRoot × List ForestRoot
  | x, [] => (x, [])
  | x, y :: ys =>
    match takeLeast y ys with
    | (least, others) => if rootBefore x least then (x, y :: ys) else (least, x :: others)

/-- What the merges leave: the node memory, the number of valid nodes, the one root. -/
structure Merged where
  /-- The node memory. -/
  nm : Table Node
  /-- NN. -/
  nn : Nat
  /-- ROOT. -/
  root : Nat
  deriving DecidableEq, Repr

/-- The `while |PQ| > 1` loop of R110, PQ being `x` and `pq`, with at most `fuel` merges: remove the two least, `x` then
`y`; make the node NN of them, `x` left and `y` right (R113), frequency the sum (R114); put it into PQ. -/
def mergeLoop : Nat → ForestRoot → List ForestRoot → Nat → Table Node → Merged
  | 0, r, _, nn, nm => ⟨nm, nn, r.idx⟩
  | fuel + 1, r, pq, nn, nm =>
    match takeLeast r pq with
    | (x, []) => ⟨nm, nn, x.idx⟩
    | (x, y0 :: ys) =>
      match takeLeast y0 ys with
      | (y, others) =>
        mergeLoop fuel ⟨x.freq + y.freq, nn⟩ others (nn + 1)
          (Table.write nm nn (.internal (x.freq + y.freq) (BitVec.ofNat 32 x.idx) (BitVec.ofNat 32 y.idx)))

/-- The FM entries of slots `from`, `from + 1`, ..., `n` of them; `none` where one is invalid. -/
def readSlots (fm : Table FmEntry) : Nat → Nat → Option (List FmEntry)
  | _, 0 => some []
  | i, n + 1 =>
    match Table.read fm i, readSlots fm (i + 1) n with
    | some e, some es => some (e :: es)
    | _, _ => none

/-- `NM[i] <- LEAF` for the slots from `i` on (R111). -/
def writeLeaves : Table Node → Nat → List FmEntry → Table Node
  | nm, _, [] => nm
  | nm, i, e :: es => writeLeaves (Table.write nm i (.leaf e.cnt e.sym)) (i + 1) es

/-- The initial collection, one element for each leaf from index `i` on (R111). -/
def leafRoots : Nat → List FmEntry → List ForestRoot
  | _, [] => []
  | i, e :: es => ⟨e.cnt, i⟩ :: leafRoots (i + 1) es

/-- The tree of a non-empty list of map entries, written over node memory `nm` (R110). -/
def buildTree (nm : Table Node) (e : FmEntry) (es : List FmEntry) : Merged :=
  mergeLoop es.length ⟨e.cnt, 0⟩ (leafRoots 1 es) (es.length + 1) (writeLeaves nm 0 (e :: es))

/-- Install the tree (R110, R115): NM, NN, ROOT, and PHASE becomes BUILT. -/
def installTree (m : Merged) (s : State) : State :=
  { s with nm := m.nm, nn := BitVec.ofNat 32 m.nn, root := BitVec.ofNat 32 m.root, phase := .built }

/-- BUILD (R110): EmptyInput with K = 0 (R118). -/
def execBuild (s : State) : Answer :=
  checked .build s <|
    if s.k = 0 then .next (raiseFault .emptyInput 0 s)
    else match readSlots s.fm 0 s.k.toNat with
      | some (e :: es) => .next (respondOk 0 (installTree (buildTree s.nm e es) s))
      | _ => .fault .invalidEntry

end Sys2Proof.Machine
end

