-- ==== Sys2Proof/Machine/Dispatch.lean ====
section
/-! DEFINITION. What each command does: one arm per constructor of `Instr`, each a direct call of its meaning. -/

namespace Sys2Proof.Machine

def exec (i : Instr) (s : State) : Host.Outcome State Fault Refusal :=
  match i with
  | .nop => Sys2Proof.Machine.execNop s
  | .rst => Sys2Proof.Machine.execRst s
  | .eclr => Sys2Proof.Machine.execEclr s
  | .fsym sym => Sys2Proof.Machine.execFsym sym s
  | .fadd sym cnt => Sys2Proof.Machine.execFadd sym cnt s
  | .build => Sys2Proof.Machine.execBuild s
  | .gentab => Sys2Proof.Machine.execGentab s
  | .ebeg => Sys2Proof.Machine.execEbeg s
  | .esym sym => Sys2Proof.Machine.execEsym sym s
  | .eend => Sys2Proof.Machine.execEend s
  | .dbeg => Sys2Proof.Machine.execDbeg s
  | .dbit bit => Sys2Proof.Machine.execDbit bit s
  | .dend => Sys2Proof.Machine.execDend s
  | .rdr regno => Sys2Proof.Machine.execRdr regno s
  | .rdf idx sel => Sys2Proof.Machine.execRdf idx sel s
  | .rdn idx sel => Sys2Proof.Machine.execRdn idx sel s
  | .rdc idx sel => Sys2Proof.Machine.execRdc idx sel s

end Sys2Proof.Machine
end

