-- ==== Sys2Proof/Machine/Step.lean ====
section
/-! DEFINITION. One step of the machine: one input of the host, taken and executed to completion (R60). -/

namespace Sys2Proof.Machine

/-- One step (R60, R85): with no input the block is idle and holds its state (R220); a reset pulse resets it (R230); a
command word is executed, or refused with IllegalCommand where it is no command (R86). -/
def step (s : State) : Host.Outcome State Fault Refusal :=
  match takeInput s with
  | none => .next s
  | some (.reset, s') => .next (hardwareReset s')
  | some (.command w, s') =>
    match decode w with
    | .ok i => exec i s'
    | .unknownOpcode _ => .next (illegalCommand w s')
    | .mbzNonzero _ => .next (illegalCommand w s')

/-- `s` with the command word of the low `nbits` bits of `w` as the host's next input, so that the very next step
executes it (log entry 2). -/
def State.withFetchWord (s : State) (nbits w : Nat) : State := putCommand (tableWord nbits w) s

end Sys2Proof.Machine
end

