-- ==== Sys2Proof/Safety.lean ====
section
/-! DEFINITION. The terms claims are made in: sequences of commands, the tree and its codes as the spec describes them
apart from the algorithms (R8, R40 to R42, R112, R131), the frames on the streams (R45, R46), and the invariant `Inv`
that every run keeps (the invariants of 10_state.md). -/

namespace Sys2Proof.Machine

/-! Sequences of commands -/

/-- Execute commands one after the other, stopping where one does not answer a next state (R60). -/
def execAll : List Instr → State → Answer
  | [], s => .next s
  | i :: is, s =>
    match exec i s with
    | .next t => execAll is t
    | .fault f => .fault f
    | .refused r => .refused r

/-! The tree (R39, R40) -/

/-- Node `m` is INTERNAL and node `i` is one of its two children. -/
def isChild (nm : Table Node) (m i : Nat) : Prop :=
  ∃ f l r, Table.read nm m = some (.internal f l r) ∧ (l.toNat = i ∨ r.toNat = i)

/-- `x << y` (R8), on valid node indices. -/
def nodeBefore (nm : Table Node) (x y : Nat) : Prop :=
  ∃ a b, Table.read nm x = some a ∧ Table.read nm y = some b ∧
    (a.freq.toNat < b.freq.toNat ∨ a.freq = b.freq ∧ x < y)

/-- Node `i` is a root of the forest at the moment node `m` is made (R112): it exists already and is no child yet. -/
def isCandidate (nm : Table Node) (m i : Nat) : Prop := i < m ∧ ∀ m' < m, ¬isChild nm m' i

/-- The children of node `m` are the `<<`-least and the `<<`-next-least root of the forest, in that order, left and
right (R112, R113). -/
def mergesLeast (nm : Table Node) (m : Nat) (l r : Word32) : Prop :=
  isCandidate nm m l.toNat ∧ isCandidate nm m r.toNat ∧ l ≠ r ∧
  (∀ j, isCandidate nm m j → j ≠ l.toNat → nodeBefore nm l.toNat j) ∧
  (∀ j, isCandidate nm m j → j ≠ l.toNat → j ≠ r.toNat → nodeBefore nm r.toNat j)

/-- The node reached from node `n` by a path: 0 a step to the left child, 1 a step to the right child (R131); `none`
where the path leaves the tree. -/
def followPath (nm : Table Node) : Nat → List Bool → Option Nat
  | n, [] => some n
  | n, b :: bs =>
    match Table.read nm n with
    | some (.internal _ l r) => followPath nm (if b then r else l).toNat bs
    | _ => none

/-- The tree of R40, with the merges of R112 to R114. -/
structure TreeInv (s : State) : Prop where
  /-- There is a leaf (R40: at least one node). -/
  nonempty : 1 ≤ s.k.toNat
  /-- NN = 2·K − 1 (R40 (a), R116). -/
  size : s.nn.toNat = 2 * s.k.toNat - 1
  /-- The valid entries are exactly indices 0 to NN − 1 (R39). -/
  keys : s.nm.map Prod.fst = List.range s.nn.toNat
  /-- ROOT = NN − 1 (R40 (e)). -/
  root : s.root.toNat = s.nn.toNat - 1
  /-- The leaves are the map's entries, by slot (R40 (a)). -/
  leaves : ∀ i < s.k.toNat, ∃ e, Table.read s.fm i = some e ∧ Table.read s.nm i = some (.leaf e.cnt e.sym)
  /-- The other nodes are INTERNAL, their children older, their frequency the sum without wrap-around (R40 (a) to (c)). -/
  internals : ∀ m, s.k.toNat ≤ m → m < s.nn.toNat → ∃ f l r a b,
    Table.read s.nm m = some (.internal f l r) ∧ l.toNat < m ∧ r.toNat < m ∧ l ≠ r ∧
    Table.read s.nm l.toNat = some a ∧ Table.read s.nm r.toNat = some b ∧
    f.toNat = a.freq.toNat + b.freq.toNat
  /-- Every index but ROOT is the child of exactly one node (R40 (d)). -/
  owned : ∀ i < s.nn.toNat, i ≠ s.root.toNat → ∃ m, isChild s.nm m i ∧ ∀ m', isChild s.nm m' i → m' = m
  /-- ROOT is the child of none (R40 (d)). -/
  rootFree : ∀ m, ¬isChild s.nm m s.root.toNat
  /-- NM[ROOT].freq = TOTAL (R40 (f)). -/
  total : ∃ n, Table.read s.nm s.root.toNat = some n ∧ n.freq = s.total
  /-- Every merge took the two least roots (R112, R113). -/
  least : ∀ m f l r, Table.read s.nm m = some (.internal f l r) → mergesLeast s.nm m l r

/-! The map, the table, the frames -/

/-- The Frequency Map (R21, R22, R38) and the parameter (R5). -/
structure MapInv (s : State) : Prop where
  /-- 1 ≤ K_MAX ≤ 2^21 (R5). -/
  legal : Config.kMaxLegal s.kMax
  /-- K ≤ K_MAX (R21). -/
  room : s.k.toNat ≤ s.kMax
  /-- The valid entries are exactly slots 0 to K − 1 (R38 (c)). -/
  keys : s.fm.map Prod.fst = List.range s.k.toNat
  /-- No two valid entries have the same symbol (R38 (a)). -/
  distinct : (s.fm.map (fun e => e.2.sym)).Nodup
  /-- Every count is at least 1 (R38 (b)). -/
  counted : ∀ i e, Table.read s.fm i = some e → 1 ≤ e.cnt.toNat
  /-- TOTAL is the sum of the counts (R22). -/
  total : s.total.toNat = (s.fm.map (fun e => e.2.cnt.toNat)).sum

/-- `bits` is the code of leaf `i` (R131, R133): the path from ROOT, or `0` where the root is a leaf. -/
def isCodeOf (s : State) (i : Nat) (bits : List Bool) : Prop :=
  if s.k.toNat = 1 then bits = [false] else followPath s.nm s.root.toNat bits = some i

/-- The Code Table in phase READY (R41, R131 to R133). -/
structure CodeInv (s : State) : Prop where
  /-- The valid entries are exactly slots 0 to K − 1 (R41). -/
  keys : s.ct.map Prod.fst = List.range s.k.toNat
  /-- The entry of slot `i` is the symbol of the slot and the code of leaf `i` (R41, R132). -/
  codes : ∀ i < s.k.toNat, ∃ e c, Table.read s.fm i = some e ∧ Table.read s.ct i = some c ∧
    c.sym = e.sym ∧ isCodeOf s i c.bits

/-- What the phase says of the tree and the table (R23, R24, R26, R39, R41). -/
structure PhaseInv (s : State) : Prop where
  /-- In COLLECT there is no tree and NN and ROOT read 0. -/
  collect : s.phase = .collect → s.nm = [] ∧ s.nn = 0 ∧ s.root = 0
  /-- From BUILT on there is the tree. -/
  tree : s.phase ≠ .collect → TreeInv s
  /-- Before READY there is no table. -/
  noTable : s.phase ≠ .ready → s.ct = []
  /-- In READY there is the table. -/
  table : s.phase = .ready → CodeInv s

/-- The open frames and their counters (R27 to R32, R88, R163, R165). -/
structure FrameInv (s : State) : Prop where
  /-- ENC_ACT = 1 implies PHASE = READY (R88). -/
  encReady : s.encAct = true → s.phase = .ready
  /-- DEC_ACT = 1 implies PHASE ≠ COLLECT (R88). -/
  decBuilt : s.decAct = true → s.phase ≠ .collect
  /-- ENC_CNT ≤ ENC_LEN (R30). -/
  encCount : s.encCnt.toNat ≤ s.encLen.toNat
  /-- DEC_CNT ≤ DEC_BITS (R32). -/
  decCount : s.decCnt.toNat ≤ s.decBits.toNat
  /-- An open decode frame stands at a valid node (R35, R165). -/
  curValid : s.decAct = true → s.cur.toNat < s.nn.toNat
  /-- On a single-symbol tree CUR stays at ROOT and every bit is a symbol (R163, R165). -/
  curSingle : s.decAct = true → s.k.toNat = 1 → s.cur = s.root ∧ s.decCnt = s.decBits
  /-- On any other tree CUR is ROOT exactly when no bit has been consumed, and a symbol of the frame is still to come
  for the bits consumed since the last one (R32, R165). -/
  curWalk : s.decAct = true → 2 ≤ s.k.toNat →
    (s.cur = s.root ↔ s.decBits = 0) ∧ (s.decBits ≠ 0 → s.decCnt.toNat < s.decBits.toNat)

/-- The error registers (R33, R34, R36, R207). -/
structure ErrorInv (s : State) : Prop where
  /-- Bit 0 and bits 31 to 8 of ERR are 0 (R33). -/
  mask : s.err &&& 0xFFFFFF01 = 0
  /-- ELAST is a fault code or 0 (R34, R200). -/
  last : s.eLast.toNat ≤ 7
  /-- No fault recorded: ERR and EINFO are 0 too (R36). -/
  clear : s.eLast = 0 → s.err = 0 ∧ s.eInfo = 0
  /-- The bit of the latest fault is set (R207). -/
  sticky : s.eLast ≠ 0 → s.err.getLsbD s.eLast.toNat = true

/-- The bits of the open frame after one more item of BO: END and ABORT close the frame (R45). -/
def openBitsStep (bits : List Bool) : BoItem → List Bool
  | .bit b => bits ++ [b]
  | .endFrame => []
  | .abort => []

/-- The bits a stream BO carries after its last END or ABORT: those of the open frame (R45). -/
def openBits (bo : List BoItem) : List Bool := bo.foldl openBitsStep []

/-- The symbols of the open frame after one more item of SO (R46). -/
def openSymsStep (syms : List Symbol) : SoItem → List Symbol
  | .sym a => syms ++ [a]
  | .endFrame => []
  | .abort => []

/-- The symbols a stream SO carries after its last END or ABORT (R46). -/
def openSyms (so : List SoItem) : List Symbol := so.foldl openSymsStep []

/-- The streams agree with the frame registers (R29, R32, R45, R46): an open frame's items are counted, and where no
frame is open the stream ends in END or ABORT, or is empty. -/
structure StreamInv (s : State) : Prop where
  /-- ENC_LEN counts the BIT items of the open encode frame (R29). -/
  encOpen : s.encAct = true → (openBits s.bo).length = s.encLen.toNat
  /-- No encode frame open: no BIT item stands after the last END or ABORT (R45). -/
  encClosed : s.encAct = false → openBits s.bo = []
  /-- DEC_CNT counts the SYM items of the open decode frame (R32). -/
  decOpen : s.decAct = true → (openSyms s.so).length = s.decCnt.toNat
  /-- No decode frame open: no SYM item stands after the last END or ABORT (R46). -/
  decClosed : s.decAct = false → openSyms s.so = []

/-- The invariant of HUFFCORE: what 10_state.md and the command rules say of every state a run reaches. -/
structure Inv (s : State) : Prop where
  /-- The map. -/
  map : MapInv s
  /-- The phase, the tree and the table. -/
  phase : PhaseInv s
  /-- The frames. -/
  frames : FrameInv s
  /-- The error registers. -/
  errors : ErrorInv s
  /-- The streams. -/
  streams : StreamInv s

/-! Codes, frames and costs as the properties of 48_properties.md use them -/

/-- `code(s)` (R145): the code of a symbol, empty where it has none. -/
def codeOf (s : State) (sym : Symbol) : List Bool :=
  ((Table.lookup CtEntry.sym s.ct sym).map (fun e => e.2.bits)).getD []

/-- A symbol has a code (R143). -/
def hasCode (s : State) (sym : Symbol) : Prop := (Table.lookup CtEntry.sym s.ct sym).isSome = true

/-- The code of a text: the codes of its symbols, one after the other (R145). -/
def codeOfText (s : State) (text : List Symbol) : List Bool := text.flatMap (codeOf s)

/-- The length of the code of slot `i`. -/
def slotLen (s : State) (i : Nat) : Nat := ((Table.read s.ct i).map (fun c => c.bits.length)).getD 0

/-- The weighted cost of giving slot `i` a code of length `len i` (R192). -/
def costOf (fm : Table FmEntry) (len : Nat → Nat) : Nat := (fm.map (fun e => e.2.cnt.toNat * len e.1)).sum

/-- `COST` (R192): the weighted cost of the code table. -/
def cost (s : State) : Nat := costOf s.fm (slotLen s)

/-- The frequency of an internal node, 0 for a leaf. -/
def Node.internalFreq : Node → Nat
  | .leaf _ _ => 0
  | .internal f _ _ => f.toNat

/-- The sum of the frequencies of the internal nodes (R192). -/
def internalFreqSum (nm : Table Node) : Nat := (nm.map (fun e => e.2.internalFreq)).sum

end Sys2Proof.Machine
end

