-- ==== Sys2Proof/Certificates/Slice0/Obligations.lean ====
section
/-! DEFINITION. The statements of this model, each formalising rules of spec/. A statement about a next state says
`exec i s = .next t`, so it also says that the command completes; `{ s with ... }` says that every field not named keeps
its value, the tables and streams among them. -/

namespace Sys2Proof.Machine

/-- The status field of a response word, bits 63:56 (R90). -/
abbrev rspStatus (r : RspWord) : Nat := (r.extractLsb' 56 8).toNat

/-- The table of R88, row by row. -/
def phaseCondition : Instr → State → Prop
  | .nop, _ => True
  | .rst, _ => True
  | .eclr, _ => True
  | .rdr _, _ => True
  | .rdf _ _, _ => True
  | .rdn _ _, _ => True
  | .rdc _ _, _ => True
  | .fsym _, s => s.phase = .collect
  | .fadd _ _, s => s.phase = .collect
  | .build, s => s.phase = .collect
  | .gentab, s => s.phase = .built
  | .ebeg, s => s.phase = .ready ∧ s.encAct = false
  | .esym _, s => s.encAct = true
  | .eend, s => s.encAct = true
  | .dbeg, s => (s.phase = .built ∨ s.phase = .ready) ∧ s.decAct = false
  | .dbit _, s => s.decAct = true
  | .dend, s => s.decAct = true

/-- The data word of a command's OK response (R90): the value read for RDR, RDF, RDN, RDC, 0 for every other command. -/
def okData : Instr → State → Word32
  | .rdr regno, s => (readReg s regno.toNat).getD 0
  | .rdf idx sel, s => (readFm s idx.toNat sel.toNat).getD 0
  | .rdn idx sel, s => (readNm s idx.toNat sel.toNat).getD 0
  | .rdc idx sel, s => (readCt s idx.toNat sel.toNat).getD 0
  | .nop, _ => 0
  | .rst, _ => 0
  | .eclr, _ => 0
  | .fsym _, _ => 0
  | .fadd _ _, _ => 0
  | .build, _ => 0
  | .gentab, _ => 0
  | .ebeg, _ => 0
  | .esym _, _ => 0
  | .eend, _ => 0
  | .dbeg, _ => 0
  | .dbit _, _ => 0
  | .dend, _ => 0

/-- Command `i` counts `cnt` occurrences of `sym` (R101): every case of the rule, each with its complete next state. -/
def countsOccurrences (i : Instr) (sym : Symbol) (cnt : Word32) (s : State) : Prop :=
  (s.phase ≠ .collect → exec i s = .next (raiseFault .badSequence (upperHalf (encode i)) s)) ∧
  (s.phase = .collect → cnt = 0 → exec i s = .next (respondOk 0 s)) ∧
  (s.phase = .collect → cnt ≠ 0 →
    ((Table.lookup FmEntry.sym s.fm sym = none ∧ s.kMax ≤ s.k.toNat) ∨ maxWord32 < s.total.toNat + cnt.toNat) →
    exec i s = .next (raiseFault .capacityExceeded (upperHalf (encode i)) s)) ∧
  (s.phase = .collect → cnt ≠ 0 → s.total.toNat + cnt.toNat ≤ maxWord32 →
    Table.lookup FmEntry.sym s.fm sym = none → s.k.toNat < s.kMax →
    ∃ fm, exec i s = .next { s with fm := fm, k := s.k + 1, total := s.total + cnt, out := s.out ++ [.rsp 0] } ∧
      Table.read fm s.k.toNat = some ⟨sym, cnt⟩ ∧ ∀ j, j ≠ s.k.toNat → Table.read fm j = Table.read s.fm j) ∧
  (s.phase = .collect → cnt ≠ 0 → s.total.toNat + cnt.toNat ≤ maxWord32 →
    ∀ slot e, Table.lookup FmEntry.sym s.fm sym = some (slot, e) →
    ∃ fm, exec i s = .next { s with fm := fm, total := s.total + cnt, out := s.out ++ [.rsp 0] } ∧
      Table.read fm slot = some ⟨e.sym, e.cnt + cnt⟩ ∧ ∀ j, j ≠ slot → Table.read fm j = Table.read s.fm j)

end Sys2Proof.Machine

open Sys2Proof Sys2Proof.Machine

/-! ## Encoding -/

/-- R82, R83, R84: decoding the word of a command gives the command back, whatever its operands. -/
def Obligations.DecodeOfEncode : Prop := ∀ i : Instr, i.wellFormed = true ∧ decode (encode i) = .ok i

/-- R82 to R85: a word that decodes to a command is the word of that command; every bit is accounted for. -/
def Obligations.EncodeOfDecode : Prop := ∀ (w : CmdWord) (i : Instr), decode w = .ok i → encode i = w

/-- R85, R86: the decoder accepts exactly the words that match one row of the opcode table, and reads the command of
that row; every other word it rejects. -/
def Obligations.DecoderFollowsTheTable : Prop :=
  ∀ w : CmdWord,
    (∀ i, decode w = .ok i → matchingRows w = [i.mnemonic]) ∧
    ((∀ i, decode w ≠ .ok i) → matchingRows w = [])

/-- R84: no two rows match the same word. -/
def Obligations.OpcodeRowsAreDisjoint : Prop :=
  opcodeTable.Pairwise (fun a b => ∀ w : CmdWord, ¬(a.matchesWord w = true ∧ b.matchesWord w = true))

/-- R89, R84: words written out bit by bit, one or more for each unit, decode to the command they stand for; words with a
nonzero MBZ bit or an unassigned opcode are rejected by name. -/
def Obligations.WrittenOutWordsDecode : Prop :=
  decode 0x1000006100000000 = .ok (.fsym 0x61) ∧
  decode 0x1100006100000003 = .ok (.fadd 0x61 3) ∧
  decode 0x2000000000000000 = .ok .build ∧
  decode 0x2100000000000000 = .ok .gentab ∧
  decode 0x3100006200000000 = .ok (.esym 0x62) ∧
  decode 0x4100000000000001 = .ok (.dbit true) ∧
  decode 0x5200000300000001 = .ok (.rdn 3 1) ∧
  decode 0x51FFFFFFFFFFFFFF = .ok (.rdf 0xFFFFFF 0xFFFFFFFF) ∧
  decode 0x1020000000000000 = .mbzNonzero 0x10 ∧
  decode 0x1200000000000000 = .unknownOpcode 0x12

/-! ## Reset and the step -/

/-- R50: after hardware reset, and after RST, every register is 0, every table entry is invalid, PHASE is COLLECT and both
frames are closed; STATUS and ENC_BYTES read 0; hardware reset empties the streams, RST keeps their history and may add
one ABORT to each. -/
def Obligations.ResetState : Prop :=
  ∀ s t : State, (t = hardwareReset s ∨ exec .rst s = .next t) →
    (t.k = 0 ∧ t.total = 0 ∧ t.nn = 0 ∧ t.root = 0 ∧ t.cur = 0 ∧ t.phase = .collect ∧ t.encAct = false ∧
      t.decAct = false ∧ t.encLen = 0 ∧ t.encCnt = 0 ∧ t.decBits = 0 ∧ t.decCnt = 0 ∧ t.err = 0 ∧ t.eLast = 0 ∧
      t.eInfo = 0) ∧
    (∀ i, Table.read t.fm i = none ∧ Table.read t.nm i = none ∧ Table.read t.ct i = none) ∧
    statusWord t = 0 ∧ encBytes t = 0 ∧
    (t = hardwareReset s → t.bo = [] ∧ t.so = []) ∧
    (exec .rst s = .next t → (t.bo = s.bo ∨ t.bo = s.bo ++ [.abort]) ∧ (t.so = s.so ∨ t.so = s.so ++ [.abort]))

/-- R60, R85: when the host's next input is a word that decodes to a command, the step is exactly that command's
execution, the word taken from the host's inputs; nothing else is around it. -/
def Obligations.StepRunsTheDecodedCommand : Prop :=
  ∀ (s : State) (w : CmdWord) (rest : List Input) (i : Instr),
    s.inp = .command w :: rest → decode w = .ok i → step s = exec i { s with inp := rest }

/-- R86, R201: a word that is no command is refused with IllegalCommand, its upper half the information word; nothing
but the error registers changes and nothing but the response is put out. -/
def Obligations.IllegalWordIsRefused : Prop :=
  ∀ (s : State) (w : CmdWord) (rest : List Input),
    s.inp = .command w :: rest → (∀ i, decode w ≠ .ok i) →
    step s = .next (raiseFault .illegalCommand (w.extractLsb' 32 32) { s with inp := rest })

/-- R220, R230: with no input the block is idle and holds its state (the model's reading, log entry 5); a pulse of the
reset input gives the reset state whatever the state was (log entry 4 on its place between commands). -/
def Obligations.IdleAndHardwareReset : Prop :=
  ∀ (s : State) (rest : List Input),
    (s.inp = [] → step s = .next s) ∧
    (s.inp = .reset :: rest → step s = .next { State.resetFor s.kMax with inp := rest })

/-! ## Faults and responses -/

/-- R200, R207, R90: raising a fault sets its bit in ERR and no other, writes ELAST and EINFO, answers one response with
the code as status, zeros, and the information word as data; it changes nothing else. -/
def Obligations.RaiseSetsTheFaultRecord : Prop :=
  (faultCode .emptyInput = 1 ∧ faultCode .unknownSymbol = 2 ∧ faultCode .truncatedInput = 3 ∧
    faultCode .illegalCommand = 4 ∧ faultCode .badSequence = 5 ∧ faultCode .capacityExceeded = 6 ∧
    faultCode .badOperand = 7) ∧
  ∀ (x : FaultKind) (info : Word32) (s : State),
    (∀ n < 32, (raiseFault x info s).err.getLsbD n = (s.err.getLsbD n || decide (n = faultCode x))) ∧
    (raiseFault x info s).eLast.toNat = faultCode x ∧ (raiseFault x info s).eInfo = info ∧
    ∃ r : RspWord, rspStatus r = faultCode x ∧ r.extractLsb' 32 24 = 0 ∧ r.extractLsb' 0 32 = info ∧
      raiseFault x info s = { s with
        err := (raiseFault x info s).err, eLast := (raiseFault x info s).eLast, eInfo := info,
        out := s.out ++ [.rsp r] }

/-- R90, R76: every command word answers exactly one response word, after all the stream items of the command; bits 55:32
are 0; on a fault the status is the code in ELAST, 1 to 7, and the data the word in EINFO; on OK the word was a command
and the data is the value read, for a readback, and 0 for every other command. -/
def Obligations.EveryCommandAnswersOneResponse : Prop :=
  ∀ (s t : State) (w : CmdWord) (rest : List Input), s.inp = .command w :: rest → step s = .next t →
    ∃ items r, t.out = s.out ++ items ++ [.rsp r] ∧ (∀ x ∈ items, x.toRsp = none) ∧
      rspStatus r ≤ 7 ∧ r.extractLsb' 32 24 = 0 ∧
      (rspStatus r ≠ 0 → t.eLast.toNat = rspStatus r ∧ r.extractLsb' 0 32 = t.eInfo) ∧
      (rspStatus r = 0 → ∃ i, decode w = .ok i ∧ r.extractLsb' 0 32 = okData i s)

/-- R203: a refused command (status 4 to 7) changes no state but the error registers and emits nothing. -/
def Obligations.RefusedCommandsChangeOnlyTheErrorRegisters : Prop :=
  ∀ (s t : State) (w : CmdWord) (rest : List Input) (r : RspWord), s.inp = .command w :: rest → step s = .next t →
    t.rsps = s.rsps ++ [r] → 4 ≤ rspStatus r →
    t = { s with inp := rest, err := t.err, eLast := t.eLast, eInfo := t.eInfo, out := s.out ++ [.rsp r] }

/-- R33: no command but RST and ECLR clears a bit of ERR. -/
def Obligations.FaultBitsAreSticky : Prop :=
  ∀ (i : Instr) (s t : State), exec i s = .next t → i ≠ .rst → i ≠ .eclr →
    ∀ n, s.err.getLsbD n = true → t.err.getLsbD n = true

/-- R88: a command whose condition in the table is false is refused with BadSequence; one whose condition holds never
reports BadSequence; and in the states a run can reach, ENC_ACT = 1 implies READY and DEC_ACT = 1 implies a tree. -/
def Obligations.PhaseCheckDecidesBadSequence : Prop :=
  ∀ (i : Instr) (s : State),
    (Inv s → (s.encAct = true → s.phase = .ready) ∧ (s.decAct = true → s.phase ≠ .collect)) ∧
    (¬phaseCondition i s → exec i s = .next (raiseFault .badSequence (upperHalf (encode i)) s)) ∧
    (phaseCondition i s → ∀ t r, exec i s = .next t → t.rsps = s.rsps ++ [r] → rspStatus r ≠ 5)

/-! ## System commands -/

/-- R175: NOP responds OK and changes nothing. -/
def Obligations.NopChangesNothing : Prop :=
  ∀ s : State, exec .nop s = .next { s with out := s.out ++ [.rsp 0] }

/-- R176: RST emits BO.ABORT if an encode frame is open, then SO.ABORT if a decode frame is open, puts every register and
table at its reset value, and responds OK. -/
def Obligations.RstEndsTheSession : Prop :=
  ∀ s : State, exec .rst s = .next { State.resetFor s.kMax with
    inp := s.inp
    out := s.out ++ (if s.encAct then [.bo .abort] else []) ++ (if s.decAct then [.so .abort] else []) ++ [.rsp 0] }

/-- R177: ECLR clears ERR, ELAST and EINFO and nothing else; the FAULT pin falls. -/
def Obligations.EclrClearsTheFaultRecord : Prop :=
  ∀ s : State, ∃ t, exec .eclr s = .next t ∧
    t = { s with err := 0, eLast := 0, eInfo := 0, out := s.out ++ [.rsp 0] } ∧ faultPin t = false

/-! ## The frequency counter -/

/-- R101: FADD, every case. -/
def Obligations.FaddCounts : Prop := ∀ (sym : Symbol) (cnt : Word32) (s : State),
  countsOccurrences (.fadd sym cnt) sym cnt s

/-- R100: FSYM does what FADD with a count of 1 does, its information words built from its own word. -/
def Obligations.FsymCountsOne : Prop := ∀ (sym : Symbol) (s : State), countsOccurrences (.fsym sym) sym 1 s

/-- R100, R102: counting a text from reset gives its distinct symbols in order of first occurrence, each with its count;
K is the number of distinct symbols and TOTAL the length. -/
def Obligations.CountingATextGivesItsCounts : Prop :=
  ∀ (kMax : Nat) (text : List Symbol), text.eraseDups.length ≤ kMax → text.length ≤ maxWord32 →
    ∃ t, execAll (Instr.ftext text) (State.resetFor kMax) = .next t ∧
      t.fm.map Prod.fst = List.range text.eraseDups.length ∧
      t.fm.map (fun e => (e.2.sym, e.2.cnt.toNat)) = text.eraseDups.map (fun a => (a, text.count a)) ∧
      t.k.toNat = text.eraseDups.length ∧ t.total.toNat = text.length ∧ t.phase = .collect ∧ t.err = 0

/-! ## The tree builder -/

/-- R118, R88: BUILD of an empty map raises EmptyInput and changes nothing else; outside COLLECT it is refused. -/
def Obligations.BuildRefusals : Prop :=
  ∀ s : State,
    (s.phase = .collect → s.k = 0 → exec .build s = .next (raiseFault .emptyInput 0 s)) ∧
    (s.phase ≠ .collect → exec .build s = .next (raiseFault .badSequence 0x20000000 s))

/-- R111 to R116, R40: BUILD of a non-empty map completes with the tree of the spec: the leaves the map's entries, every
internal node made of the two `<<`-least roots, the lower left, its frequency their sum, NN = 2K − 1, ROOT = NN − 1;
nothing but NM, NN, ROOT and PHASE changes. -/
def Obligations.BuildMakesTheTree : Prop :=
  ∀ s : State, Inv s → s.phase = .collect → s.k ≠ 0 →
    ∃ t, exec .build s = .next t ∧ TreeInv t ∧
      t = { s with nm := t.nm, nn := t.nn, root := t.root, phase := .built, out := s.out ++ [.rsp 0] }

/-- R112: the tree is a function of the map. -/
def Obligations.TheMapDeterminesTheTree : Prop :=
  ∀ s t : State, TreeInv s → TreeInv t → s.k = t.k → s.fm = t.fm →
    s.nm = t.nm ∧ s.nn = t.nn ∧ s.root = t.root ∧ s.total = t.total

/-! ## The code table generator -/

/-- R130 to R133: in BUILT, GENTAB completes with the code of every leaf, its path from ROOT (the one-bit code `0` where
ROOT is a leaf), at the leaf's slot; nothing but CT and PHASE changes. -/
def Obligations.GentabWritesThePaths : Prop :=
  ∀ s : State, Inv s → s.phase = .built →
    ∃ t, exec .gentab s = .next t ∧ CodeInv t ∧
      (∀ i c, Table.read t.ct i = some c → ∃ f, Table.read t.nm i = some (.leaf f c.sym)) ∧
      t = { s with ct := t.ct, phase := .ready, out := s.out ++ [.rsp 0] }

/-- R42, R134: the code table is prefix-free. -/
def Obligations.CodesArePrefixFree : Prop :=
  ∀ s : State, Inv s → s.phase = .ready → ∀ i j c d, i ≠ j → Table.read s.ct i = some c → Table.read s.ct j = some d →
    ¬c.bits <+: d.bits

/-- R135: every code has at least one bit and at most max(1, K − 1), so at most CODE_MAX. -/
def Obligations.CodeLengthsAreBounded : Prop :=
  ∀ s : State, Inv s → s.phase = .ready → ∀ i c, Table.read s.ct i = some c →
    1 ≤ c.bits.length ∧ c.bits.length ≤ max 1 (s.k.toNat - 1) ∧ c.bits.length ≤ Config.codeMax s.kMax

/-- R136: for K ≥ 2 the code is complete: the sum of 2^(−len) over the entries is 1 (both sides times 2^K). -/
def Obligations.CodeIsComplete : Prop :=
  ∀ s : State, Inv s → s.phase = .ready → 2 ≤ s.k.toNat →
    ((List.range s.k.toNat).map (fun i => 2 ^ (s.k.toNat - slotLen s i))).sum = 2 ^ s.k.toNat

/-! ## The encoder -/

/-- R140: EBEG. -/
def Obligations.EbegOpensAFrame : Prop :=
  ∀ s : State,
    (s.phase = .ready → s.encAct = false →
      exec .ebeg s = .next { s with encAct := true, encLen := 0, encCnt := 0, out := s.out ++ [.rsp 0] }) ∧
    (¬(s.phase = .ready ∧ s.encAct = false) → exec .ebeg s = .next (raiseFault .badSequence 0x30000000 s))

/-- R141, R143, R144: ESYM, every case: the code of the symbol on BO, element 0 first; an unknown symbol kills the frame;
a full length counter refuses the command. -/
def Obligations.EsymEncodesASymbol : Prop :=
  ∀ (sym : Symbol) (s : State),
    (s.encAct = false → exec (.esym sym) s = .next (raiseFault .badSequence (upperHalf (encode (.esym sym))) s)) ∧
    (s.encAct = true → Table.lookup CtEntry.sym s.ct sym = none →
      exec (.esym sym) s = .next (raiseFault .unknownSymbol (sym.setWidth 32)
        { s with encAct := false, encLen := 0, encCnt := 0, out := s.out ++ [.bo .abort] })) ∧
    (s.encAct = true → ∀ i e, Table.lookup CtEntry.sym s.ct sym = some (i, e) →
      (maxWord32 < s.encLen.toNat + e.bits.length →
        exec (.esym sym) s = .next (raiseFault .capacityExceeded (upperHalf (encode (.esym sym))) s)) ∧
      (s.encLen.toNat + e.bits.length ≤ maxWord32 →
        exec (.esym sym) s = .next { s with
          encLen := s.encLen + BitVec.ofNat 32 e.bits.length
          encCnt := s.encCnt + 1
          out := s.out ++ e.bits.map (fun b => .bo (.bit b)) ++ [.rsp 0] }))

/-- R142: EEND. -/
def Obligations.EendClosesTheFrame : Prop :=
  ∀ s : State,
    (s.encAct = true → exec .eend s = .next { s with encAct := false, out := s.out ++ [.bo .endFrame, .rsp 0] }) ∧
    (s.encAct = false → exec .eend s = .next (raiseFault .badSequence 0x32000000 s))

/-- R145: a frame opened in READY, fed symbols that have codes and closed, holds exactly the codes of the symbols, one
after the other, then END; ENC_LEN and ENC_CNT are their numbers; the empty text gives the single item END. -/
def Obligations.EncodeFrameHoldsTheCodes : Prop :=
  ∀ (s : State) (text : List Symbol), Inv s → s.phase = .ready → s.encAct = false →
    (∀ a ∈ text, hasCode s a) → (codeOfText s text).length ≤ maxWord32 →
    ∃ t, execAll ([.ebeg] ++ Instr.etext text ++ [.eend]) s = .next t ∧
      t.bo = s.bo ++ (codeOfText s text).map BoItem.bit ++ [.endFrame] ∧ t.so = s.so ∧
      t.encLen.toNat = (codeOfText s text).length ∧ t.encCnt.toNat = text.length ∧ t.encAct = false ∧ t.err = s.err

/-! ## The decoder -/

/-- R155: DBEG. -/
def Obligations.DbegOpensAFrame : Prop :=
  ∀ s : State,
    (s.phase ≠ .collect → s.decAct = false →
      exec .dbeg s = .next { s with decAct := true, cur := s.root, decBits := 0, decCnt := 0, out := s.out ++ [.rsp 0] }) ∧
    (¬(s.phase ≠ .collect ∧ s.decAct = false) → exec .dbeg s = .next (raiseFault .badSequence 0x40000000 s))

/-- R156, R160, R163: DBIT, every case: refusals; on a single-symbol tree the symbol; at an internal node one descent; at
a leaf its symbol, the restart at the root, and one descent. -/
def Obligations.DbitWalksTheTree : Prop :=
  ∀ (bit : Bool) (s : State),
    (s.decAct = false → exec (.dbit bit) s = .next (raiseFault .badSequence 0x41000000 s)) ∧
    (s.decAct = true → s.decBits.toNat = maxWord32 →
      exec (.dbit bit) s = .next (raiseFault .capacityExceeded 0x41000000 s)) ∧
    (s.decAct = true → s.decBits.toNat < maxWord32 →
      (∀ f sym, Table.read s.nm s.root.toNat = some (.leaf f sym) →
        exec (.dbit bit) s = .next { s with
          decCnt := s.decCnt + 1, decBits := s.decBits + 1, out := s.out ++ [.so (.sym sym), .rsp 0] }) ∧
      (∀ f l r, Table.read s.nm s.root.toNat = some (.internal f l r) →
        (∀ g sym, Table.read s.nm s.cur.toNat = some (.leaf g sym) →
          exec (.dbit bit) s = .next { s with
            cur := if bit then r else l
            decCnt := s.decCnt + 1
            decBits := s.decBits + 1
            out := s.out ++ [.so (.sym sym), .rsp 0] }) ∧
        (∀ g l' r', Table.read s.nm s.cur.toNat = some (.internal g l' r') →
          exec (.dbit bit) s = .next { s with
            cur := if bit then r' else l', decBits := s.decBits + 1, out := s.out ++ [.rsp 0] })))

/-- R157, R161, R162, R163: DEND, every case: the refusal; END on a single-symbol tree; the pending symbol and END at a
leaf; ABORT and TruncatedInput, with CUR as information, at an internal node. -/
def Obligations.DendEndsTheFrame : Prop :=
  ∀ s : State,
    (s.decAct = false → exec .dend s = .next (raiseFault .badSequence 0x42000000 s)) ∧
    (s.decAct = true →
      (∀ f sym, Table.read s.nm s.root.toNat = some (.leaf f sym) →
        exec .dend s = .next { s with decAct := false, out := s.out ++ [.so .endFrame, .rsp 0] }) ∧
      (∀ f l r, Table.read s.nm s.root.toNat = some (.internal f l r) →
        (∀ g sym, Table.read s.nm s.cur.toNat = some (.leaf g sym) →
          exec .dend s = .next { s with
            decAct := false, decCnt := s.decCnt + 1, out := s.out ++ [.so (.sym sym), .so .endFrame, .rsp 0] }) ∧
        (∀ g l' r', Table.read s.nm s.cur.toNat = some (.internal g l' r') →
          exec .dend s = .next (raiseFault .truncatedInput s.cur
            { s with decAct := false, decBits := 0, decCnt := 0, out := s.out ++ [.so .abort] }))))

/-- R161: on a tree with K ≥ 2 a decode frame ends in END exactly when its bits are one or more codes, one after the
other, and its symbols are then the symbols of those codes; else it ends in ABORT with TruncatedInput. -/
def Obligations.DecodeFrameEndsExactlyOnCodes : Prop :=
  ∀ (s : State) (bits : List Bool), Inv s → s.phase = .ready → s.decAct = false → 2 ≤ s.k.toNat →
    bits.length ≤ maxWord32 →
    ∃ t syms, execAll ([.dbeg] ++ Instr.dbits bits ++ [.dend]) s = .next t ∧ t.decAct = false ∧
      ((syms ≠ [] ∧ (∀ a ∈ syms, hasCode s a) ∧ bits = codeOfText s syms ∧
          t.so = s.so ++ syms.map SoItem.sym ++ [.endFrame] ∧ t.err = s.err) ∨
       ((∀ text, text ≠ [] → (∀ a ∈ text, hasCode s a) → bits ≠ codeOfText s text) ∧
          t.so = s.so ++ syms.map SoItem.sym ++ [.abort] ∧ t.eLast = 3))

/-- R163: on a single-symbol tree a frame of n bits decodes to n copies of the symbol, whatever the bits, and ends in
END. -/
def Obligations.SingleSymbolFrameDecodes : Prop :=
  ∀ (s : State) (bits : List Bool), Inv s → s.phase ≠ .collect → s.decAct = false → s.k = 1 →
    bits.length ≤ maxWord32 →
    ∃ t f a, Table.read s.nm s.root.toNat = some (.leaf f a) ∧
      execAll ([.dbeg] ++ Instr.dbits bits ++ [.dend]) s = .next t ∧
      t.so = s.so ++ List.replicate bits.length (.sym a) ++ [.endFrame] ∧
      t.decCnt.toNat = bits.length ∧ t.decBits.toNat = bits.length ∧ t.cur = s.root ∧ t.err = s.err

/-- R193: the empty text: its encode frame is the single item END; on a tree with K ≥ 2 the decode frame with no bits
ends in ABORT with TruncatedInput at ROOT, on a single-symbol tree in END. -/
def Obligations.EmptyTextFrames : Prop :=
  ∀ s : State, Inv s →
    (s.phase = .ready → s.encAct = false →
      ∃ t, execAll [.ebeg, .eend] s = .next t ∧ t.bo = s.bo ++ [.endFrame] ∧ t.encLen = 0) ∧
    (s.phase ≠ .collect → s.decAct = false →
      ∃ t, execAll [.dbeg, .dend] s = .next t ∧
        (2 ≤ s.k.toNat → t.so = s.so ++ [.abort] ∧ t.eLast = 3 ∧ t.eInfo = s.root) ∧
        (s.k = 1 → t.so = s.so ++ [.endFrame] ∧ t.err = s.err))

/-! ## Readback -/

/-- R178, R43, R44: RDR reads the register of its number, and refuses a number that names none. -/
def Obligations.RdrReadsTheRegisterMap : Prop :=
  ∀ s : State,
    exec (.rdr 0) s = .next (respondOk 0x48554631 s) ∧
    exec (.rdr 1) s = .next (respondOk (statusWord s) s) ∧
    exec (.rdr 2) s = .next (respondOk s.err s) ∧
    exec (.rdr 3) s = .next (respondOk s.eLast s) ∧
    exec (.rdr 4) s = .next (respondOk s.eInfo s) ∧
    exec (.rdr 5) s = .next (respondOk s.k s) ∧
    exec (.rdr 6) s = .next (respondOk s.total s) ∧
    exec (.rdr 7) s = .next (respondOk s.nn s) ∧
    exec (.rdr 8) s = .next (respondOk s.root s) ∧
    exec (.rdr 9) s = .next (respondOk s.cur s) ∧
    exec (.rdr 10) s = .next (respondOk s.encLen s) ∧
    exec (.rdr 11) s = .next (respondOk s.encCnt s) ∧
    (∃ d : Word32, d.toNat = (s.encLen.toNat + 7) / 8 ∧ exec (.rdr 12) s = .next (respondOk d s)) ∧
    exec (.rdr 13) s = .next (respondOk s.decBits s) ∧
    exec (.rdr 14) s = .next (respondOk s.decCnt s) ∧
    exec (.rdr 15) s = .next (respondOk (BitVec.ofNat 32 s.kMax) s) ∧
    ∀ regno : Word32, 16 ≤ regno.toNat → exec (.rdr regno) s = .next (raiseFault .badOperand 0x50000000 s)

/-- R43, R37, R26, R212: the fields of STATUS, and the FAULT pin. -/
def Obligations.StatusWordFields : Prop :=
  ∀ s : State,
    ((s.phase = .collect → (statusWord s).extractLsb' 0 2 = 0) ∧ (s.phase = .built → (statusWord s).extractLsb' 0 2 = 1) ∧
      (s.phase = .ready → (statusWord s).extractLsb' 0 2 = 2)) ∧
    (statusWord s).getLsbD 2 = s.encAct ∧ (statusWord s).getLsbD 3 = s.decAct ∧
    ((statusWord s).getLsbD 4 = true ↔
      s.phase ≠ .collect ∧ ∃ f a, Table.read s.nm s.root.toNat = some (.leaf f a)) ∧
    ((statusWord s).getLsbD 5 = true ↔ s.err ≠ 0) ∧ (faultPin s = true ↔ s.err ≠ 0) ∧
    ∀ n, 6 ≤ n → (statusWord s).getLsbD n = false

/-- R179, R69: RDF, every index and selector. -/
def Obligations.RdfReadsTheMap : Prop :=
  ∀ (idx : Index24) (sel : Word32) (s : State),
    (∀ e, idx.toNat < s.kMax → Table.read s.fm idx.toNat = some e →
      exec (.rdf idx 0) s = .next (respondOk 1 s) ∧
      exec (.rdf idx 1) s = .next (respondOk (e.sym.setWidth 32) s) ∧
      exec (.rdf idx 2) s = .next (respondOk e.cnt s)) ∧
    (idx.toNat < s.kMax → Table.read s.fm idx.toNat = none → exec (.rdf idx 0) s = .next (respondOk 0 s)) ∧
    ((s.kMax ≤ idx.toNat ∨ 3 ≤ sel.toNat ∨ (Table.read s.fm idx.toNat = none ∧ sel ≠ 0)) →
      exec (.rdf idx sel) s = .next (raiseFault .badOperand (upperHalf (encode (.rdf idx sel))) s)) ∧
    (Inv s → ((Table.read s.fm idx.toNat).isSome = true ↔ idx.toNat < s.k.toNat))

/-- R180, R69: RDN, every index and selector. -/
def Obligations.RdnReadsTheTree : Prop :=
  ∀ (idx : Index24) (sel : Word32) (s : State),
    (∀ f a, idx.toNat < 2 * s.kMax - 1 → Table.read s.nm idx.toNat = some (.leaf f a) →
      exec (.rdn idx 0) s = .next (respondOk 1 s) ∧
      exec (.rdn idx 1) s = .next (respondOk f s) ∧
      exec (.rdn idx 2) s = .next (respondOk (a.setWidth 32) s) ∧
      ((sel = 3 ∨ sel = 4) →
        exec (.rdn idx sel) s = .next (raiseFault .badOperand (upperHalf (encode (.rdn idx sel))) s))) ∧
    (∀ f l r, idx.toNat < 2 * s.kMax - 1 → Table.read s.nm idx.toNat = some (.internal f l r) →
      exec (.rdn idx 0) s = .next (respondOk 3 s) ∧
      exec (.rdn idx 1) s = .next (respondOk f s) ∧
      (sel = 2 → exec (.rdn idx sel) s = .next (raiseFault .badOperand (upperHalf (encode (.rdn idx sel))) s)) ∧
      exec (.rdn idx 3) s = .next (respondOk l s) ∧
      exec (.rdn idx 4) s = .next (respondOk r s)) ∧
    (idx.toNat < 2 * s.kMax - 1 → Table.read s.nm idx.toNat = none → exec (.rdn idx 0) s = .next (respondOk 0 s)) ∧
    ((2 * s.kMax - 1 ≤ idx.toNat ∨ 5 ≤ sel.toNat ∨ (Table.read s.nm idx.toNat = none ∧ sel ≠ 0)) →
      exec (.rdn idx sel) s = .next (raiseFault .badOperand (upperHalf (encode (.rdn idx sel))) s)) ∧
    (Inv s → ((Table.read s.nm idx.toNat).isSome = true ↔ idx.toNat < s.nn.toNat))

/-- R181, R69: RDC, every index and selector. -/
def Obligations.RdcReadsTheTable : Prop :=
  ∀ (idx : Index24) (sel : Word32) (s : State),
    (∀ e, idx.toNat < s.kMax → Table.read s.ct idx.toNat = some e →
      exec (.rdc idx 0) s = .next (respondOk 1 s) ∧
      exec (.rdc idx 1) s = .next (respondOk (e.sym.setWidth 32) s) ∧
      exec (.rdc idx 2) s = .next (respondOk (BitVec.ofNat 32 e.bits.length) s) ∧
      (3 ≤ sel.toNat → sel.toNat - 3 < (e.bits.length + 31) / 32 →
        exec (.rdc idx sel) s = .next (respondOk (codeWord e.bits (sel.toNat - 3)) s)) ∧
      (3 ≤ sel.toNat → (e.bits.length + 31) / 32 ≤ sel.toNat - 3 →
        exec (.rdc idx sel) s = .next (raiseFault .badOperand (upperHalf (encode (.rdc idx sel))) s))) ∧
    (idx.toNat < s.kMax → Table.read s.ct idx.toNat = none → exec (.rdc idx 0) s = .next (respondOk 0 s)) ∧
    ((s.kMax ≤ idx.toNat ∨ (Table.read s.ct idx.toNat = none ∧ sel ≠ 0)) →
      exec (.rdc idx sel) s = .next (raiseFault .badOperand (upperHalf (encode (.rdc idx sel))) s)) ∧
    (Inv s → ((Table.read s.ct idx.toNat).isSome = true ↔ s.phase = .ready ∧ idx.toNat < s.k.toNat))

/-- R64: word `w` of a code holds the elements 32w to 32w + 31, element j at bit 31 − (j mod 32); bits beyond the code are
0. -/
def Obligations.CodeWordLayout : Prop :=
  ∀ (bits : List Bool) (j : Nat), (codeWord bits (j / 32)).getLsbD (31 - j % 32) = bits.getD j false

/-- R63: PACK makes (L + 7) div 8 bytes; stream bit i is bit 7 − (i mod 8) of byte i div 8, the unused bits of the last
byte are 0. -/
def Obligations.PackLayout : Prop :=
  ∀ bits : List Bool, (pack bits).length = (bits.length + 7) / 8 ∧
    ∀ i, i < 8 * (pack bits).length → ((pack bits).getD (i / 8) 0).getLsbD (7 - i % 8) = bits.getD i false

/-- R68: a readback command changes nothing but the response, or, refused, the error registers; issued again it answers
the same response. -/
def Obligations.ReadsAreIdempotent : Prop :=
  ∀ (i : Instr) (s t : State), (∃ n, i = .rdr n) ∨ (∃ x n, i = .rdf x n ∨ i = .rdn x n ∨ i = .rdc x n) →
    exec i s = .next t →
    ∃ r u, t.out = s.out ++ [.rsp r] ∧ exec i t = .next u ∧ u.out = t.out ++ [.rsp r] ∧
      (rspStatus r = 0 → t = { s with out := t.out }) ∧
      t = { s with err := t.err, eLast := t.eLast, eInfo := t.eInfo, out := t.out }

/-! ## The whole machine -/

/-- R50, R230: the reset state meets the invariant, for every legal capacity. -/
def Obligations.ResetMeetsTheInvariant : Prop :=
  Inv State.reset ∧ ∀ n, Config.kMaxLegal n → Inv (State.resetFor n)

/-- 10_state.md, R165: every step keeps the invariant, from every state that meets it, whatever the host does. -/
def Obligations.StepKeepsTheInvariant : Prop := ∀ s t : State, Inv s → step s = .next t → Inv t

/-- R208, R243: from every state that meets the invariant every step answers a next state: no fault, no refusal. -/
def Obligations.StepNeverStops : Prop := ∀ s : State, Inv s → ∃ t, step s = .next t

/-- R66: every step keeps the tables in canonical form, from every state in which they are. -/
def Obligations.TablesStayCanonical : Prop :=
  ∀ s t : State, Memory.wf s → step s = .next t → Memory.wf t

/-- R74, R103, R66: NM, NN and ROOT change by BUILD and RST only, CT by GENTAB and RST only, FM, K and TOTAL by FSYM and
FADD in COLLECT and RST only. -/
def Obligations.OnlyTheBuildersWriteTheTables : Prop :=
  ∀ (i : Instr) (s t : State), exec i s = .next t → i ≠ .rst →
    (i ≠ .build → t.nm = s.nm ∧ t.nn = s.nn ∧ t.root = s.root) ∧
    (i ≠ .gentab → t.ct = s.ct) ∧
    (((∀ a, i ≠ .fsym a) ∧ (∀ a c, i ≠ .fadd a c)) ∨ s.phase ≠ .collect →
      t.fm = s.fm ∧ t.k = s.k ∧ t.total = s.total)

/-- R26, R37: PHASE changes by BUILD (0 to 1), GENTAB (1 to 2) and RST (to 0) only; ROOTLEAF by BUILD and RST only. -/
def Obligations.PhaseMovesForwardOnly : Prop :=
  ∀ (i : Instr) (s t : State), exec i s = .next t →
    (t.phase = s.phase ∨ (i = .build ∧ s.phase = .collect ∧ t.phase = .built) ∨
      (i = .gentab ∧ s.phase = .built ∧ t.phase = .ready) ∨ (i = .rst ∧ t.phase = .collect)) ∧
    (i ≠ .build → i ≠ .rst → rootLeaf t = rootLeaf s)

/-- R27, R28: ENC_ACT is set by EBEG and cleared by EEND, UnknownSymbol and RST only; DEC_ACT is set by DBEG and cleared
by DEND and RST only. -/
def Obligations.FrameFlagsFollowTheirCommands : Prop :=
  ∀ (i : Instr) (s t : State), exec i s = .next t →
    (s.encAct = false → t.encAct = true → i = .ebeg) ∧
    (s.encAct = true → t.encAct = false → i = .eend ∨ i = .rst ∨ ∃ a, i = .esym a ∧ t.eLast = 2) ∧
    (s.decAct = false → t.decAct = true → i = .dbeg) ∧
    (s.decAct = true → t.decAct = false → i = .dend ∨ i = .rst)

/-- R28, R73: the encoder's commands leave the decoder's registers and SO alone, and the decoder's commands the encoder's
registers and BO. -/
def Obligations.EncoderAndDecoderAreIndependent : Prop :=
  ∀ (i : Instr) (s t : State), exec i s = .next t →
    ((i = .ebeg ∨ i = .eend ∨ ∃ a, i = .esym a) →
      t.decAct = s.decAct ∧ t.cur = s.cur ∧ t.decBits = s.decBits ∧ t.decCnt = s.decCnt ∧ t.so = s.so) ∧
    ((i = .dbeg ∨ i = .dend ∨ ∃ b, i = .dbit b) →
      t.encAct = s.encAct ∧ t.encLen = s.encLen ∧ t.encCnt = s.encCnt ∧ t.bo = s.bo)

/-- R20, R45, R196: a command sees neither what the block has put out nor what the host will do next: with another history
and another future it does the same and appends the same items. -/
def Obligations.CommandsSeeNeitherOutputsNorInputs : Prop :=
  ∀ (i : Instr) (s : State) (out : List OutItem) (inp : List Input),
    (∀ t, exec i s = .next t → t.inp = s.inp ∧ t.kMax = s.kMax ∧ ∃ new, t.out = s.out ++ new ∧
      exec i { s with out := out, inp := inp } = .next { t with out := out ++ new, inp := inp }) ∧
    (∀ f, exec i s = .fault f → exec i { s with out := out, inp := inp } = .fault f)

/-! ## Properties across units -/

/-- R190, from every state in READY with no frame open: a non-empty text whose symbols have codes is encoded, and the bits
of its frame decode to the text. -/
def Obligations.RoundTripOfAFrame : Prop :=
  ∀ (s : State) (text : List Symbol), Inv s → s.phase = .ready → s.encAct = false → s.decAct = false → text ≠ [] →
    (∀ a ∈ text, hasCode s a) → (codeOfText s text).length ≤ maxWord32 →
    ∃ t u bits, execAll ([.ebeg] ++ Instr.etext text ++ [.eend]) s = .next t ∧
      t.bo = s.bo ++ bits.map BoItem.bit ++ [.endFrame] ∧
      execAll ([.dbeg] ++ Instr.dbits bits ++ [.dend]) t = .next u ∧
      u.so = s.so ++ text.map SoItem.sym ++ [.endFrame] ∧
      u.decCnt.toNat = text.length ∧ u.decBits.toNat = bits.length ∧ u.encLen.toNat = bits.length ∧ u.err = s.err

/-- R190: the whole run from reset: counting a non-empty text, BUILD, GENTAB, encoding it and decoding its frame's bits;
no command faults, BO holds the one frame, SO holds the text. -/
def Obligations.RoundTripOfACountedText : Prop :=
  ∀ (kMax : Nat) (text : List Symbol), Config.kMaxLegal kMax → text ≠ [] → text.eraseDups.length ≤ kMax →
    text.length ≤ maxWord32 →
    ∃ s, execAll (Instr.ftext text ++ [.build, .gentab]) (State.resetFor kMax) = .next s ∧ s.err = 0 ∧
      ((codeOfText s text).length ≤ maxWord32 →
        ∃ t u bits, execAll ([.ebeg] ++ Instr.etext text ++ [.eend]) s = .next t ∧ t.err = 0 ∧
          t.bo = bits.map BoItem.bit ++ [.endFrame] ∧ t.encLen.toNat = bits.length ∧
          execAll ([.dbeg] ++ Instr.dbits bits ++ [.dend]) t = .next u ∧ u.err = 0 ∧
          u.so = text.map SoItem.sym ++ [.endFrame] ∧ u.decCnt.toNat = text.length ∧ u.decBits.toNat = bits.length)

/-- R194: when the text encoded in a frame is, as a multiset of symbols, the counted text, ENC_LEN after EEND is COST for
K ≥ 2 and TOTAL for K = 1. -/
def Obligations.EncodedLengthIsTheCost : Prop :=
  ∀ (s : State) (text : List Symbol), Inv s → s.phase = .ready → s.encAct = false →
    (∀ a ∈ text, hasCode s a) → (∀ i e, Table.read s.fm i = some e → text.count e.sym = e.cnt.toNat) →
    cost s ≤ maxWord32 →
    ∃ t, execAll ([.ebeg] ++ Instr.etext text ++ [.eend]) s = .next t ∧
      (2 ≤ s.k.toNat → t.encLen.toNat = cost s) ∧ (s.k = 1 → t.encLen = s.total)

/-- R192: COST equals the sum of the frequencies of the internal nodes. -/
def Obligations.CostIsTheSumOfInternalFrequencies : Prop :=
  ∀ s : State, Inv s → s.phase = .ready → 2 ≤ s.k.toNat → cost s = internalFreqSum s.nm

/-- R192: no other assignment of prefix-free, non-empty codes to the symbols costs less. -/
def Obligations.CodeTableIsOptimal : Prop :=
  ∀ (s : State) (code : Nat → List Bool), Inv s → s.phase = .ready → 2 ≤ s.k.toNat →
    (∀ i < s.k.toNat, code i ≠ []) →
    (∀ i < s.k.toNat, ∀ j < s.k.toNat, i ≠ j → ¬code i <+: code j) →
    cost s ≤ costOf s.fm (fun i => (code i).length)
end

