-- ==== Sys2Proof/Laws/Tables.lean ====
section
/-! SUPPORT. The laws of the tables: read after write, the canonical form, and the tables whose valid entries are exactly
the indices below a bound. -/

namespace Sys2Proof.Machine

@[simp] theorem Table.read_nil {α : Type} (i : Nat) : Table.read ([] : Table α) i = none := rfl

theorem Table.read_cons {α : Type} (j : Nat) (x : α) (t : Table α) (i : Nat) :
    Table.read ((j, x) :: t) i = if j = i then some x else Table.read t i := rfl

/-- The entry just written is the entry read. -/
@[simp] theorem Table.read_write_same {α : Type} (t : Table α) (i : Nat) (v : α) :
    Table.read (Table.write t i v) i = some v := by
  induction t with
  | nil => simp [Table.write, Table.read]
  | cons e t ih =>
    obtain ⟨j, x⟩ := e
    simp only [Table.write]
    split
    · simp [Table.read]
    · split
      · simp [Table.read]
      · next h1 h2 => simp [Table.read, Ne.symm h2, ih]

/-- A write leaves every other entry alone. -/
theorem Table.read_write_other {α : Type} (t : Table α) {i k : Nat} (v : α) (h : k ≠ i) :
    Table.read (Table.write t i v) k = Table.read t k := by
  induction t with
  | nil => simp [Table.write, Table.read, h.symm]
  | cons e t ih =>
    obtain ⟨j, x⟩ := e
    simp only [Table.write]
    split
    · simp [Table.read, h.symm]
    · split
      · next h2 => subst h2; simp [Table.read, h.symm]
      · simp only [Table.read, ih]

/-- The keys of a table after a write: the old ones and the written one. -/
theorem Table.mem_keys_write {α : Type} (t : Table α) (i k : Nat) (v : α) :
    k ∈ (Table.write t i v).map Prod.fst ↔ k = i ∨ k ∈ t.map Prod.fst := by
  induction t with
  | nil => simp [Table.write]
  | cons e t ih =>
    obtain ⟨j, x⟩ := e
    simp only [Table.write]
    split
    · simp
    · split
      · next h2 => subst h2; simp
      · simp only [List.map_cons, List.mem_cons, ih]; tauto

/-- A write keeps the canonical form. -/
theorem Table.wf_write {α : Type} {t : Table α} (h : Table.wf t) (i : Nat) (v : α) : Table.wf (Table.write t i v) := by
  induction t with
  | nil => simp [Table.wf, Table.write]
  | cons e t ih =>
    obtain ⟨j, x⟩ := e
    have ht := List.pairwise_cons.mp h
    simp only [Table.write]
    split
    · next h1 =>
      refine List.pairwise_cons.mpr ⟨fun k hk => ?_, h⟩
      rcases List.mem_cons.mp hk with rfl | hk
      · exact h1
      · exact h1.trans (ht.1 k hk)
    · split
      · next h2 => subst h2; exact h
      · next h1 h2 =>
        refine List.pairwise_cons.mpr ⟨fun k hk => ?_, ih ht.2⟩
        rcases (Table.mem_keys_write t i k v).mp hk with rfl | hk
        · show j < k; omega
        · exact ht.1 k hk

/-- An entry is valid exactly when its index is listed. -/
theorem Table.read_isSome_iff {α : Type} (t : Table α) (i : Nat) :
    (Table.read t i).isSome = true ↔ i ∈ t.map Prod.fst := by
  induction t with
  | nil => simp
  | cons e t ih =>
    obtain ⟨j, x⟩ := e
    by_cases h : j = i
    · simp [Table.read, h]
    · simp [Table.read, h, Ne.symm h, ih]

/-- In a table whose valid entries are the indices below `n`, exactly those indices read an entry. -/
theorem Table.read_isSome_of_keys {α : Type} {t : Table α} {n : Nat} (h : t.map Prod.fst = List.range n) (i : Nat) :
    (Table.read t i).isSome = true ↔ i < n := by
  rw [Table.read_isSome_iff, h, List.mem_range]

/-- Such a table has an entry at every index below `n`. -/
theorem Table.exists_of_keys {α : Type} {t : Table α} {n i : Nat} (h : t.map Prod.fst = List.range n) (hi : i < n) :
    ∃ x, Table.read t i = some x :=
  Option.isSome_iff_exists.mp ((Table.read_isSome_of_keys h i).mpr hi)

/-- Such a table has no entry from `n` on. -/
theorem Table.none_of_keys {α : Type} {t : Table α} {n i : Nat} (h : t.map Prod.fst = List.range n) (hi : n ≤ i) :
    Table.read t i = none := by
  rw [← Option.not_isSome_iff_eq_none, Table.read_isSome_of_keys h]
  omega

/-- Such a table is in canonical form. -/
theorem Table.wf_of_keys {α : Type} {t : Table α} {n : Nat} (h : t.map Prod.fst = List.range n) : Table.wf t := by
  unfold Table.wf
  rw [h]
  exact List.pairwise_lt_range

/-- Writing above every listed index appends the entry. -/
theorem Table.write_append {α : Type} {t : Table α} {i : Nat} (h : ∀ k ∈ t.map Prod.fst, k < i) (v : α) :
    Table.write t i v = t ++ [(i, v)] := by
  induction t with
  | nil => rfl
  | cons e t ih =>
    obtain ⟨j, x⟩ := e
    have hj : j < i := h j (by simp)
    simp only [Table.write, if_neg (show ¬i < j by omega), if_neg (show ¬i = j by omega), List.cons_append]
    rw [ih (fun k hk => h k (by simp only [List.map_cons, List.mem_cons]; exact Or.inr hk))]

/-- Writing at `n` extends a table whose valid entries are the indices below `n`. -/
theorem Table.write_next {α : Type} {t : Table α} {n : Nat} (h : t.map Prod.fst = List.range n) (v : α) :
    Table.write t n v = t ++ [(n, v)] ∧ (Table.write t n v).map Prod.fst = List.range (n + 1) := by
  have hw : Table.write t n v = t ++ [(n, v)] :=
    Table.write_append (fun k hk => by rw [h] at hk; exact List.mem_range.mp hk) v
  exact ⟨hw, by rw [hw, List.map_append, h, List.range_succ]; rfl⟩

/-- Overwriting a listed index leaves the list of indices as it is. -/
theorem Table.keys_overwrite {α : Type} {t : Table α} (hw : Table.wf t) {i : Nat} (h : i ∈ t.map Prod.fst) (v : α) :
    (Table.write t i v).map Prod.fst = t.map Prod.fst := by
  induction t with
  | nil => simp at h
  | cons e t ih =>
    obtain ⟨j, x⟩ := e
    have ht := List.pairwise_cons.mp hw
    simp only [Table.write]
    rcases List.mem_cons.mp h with rfl | hm
    · simp
    · have hji : j < i := ht.1 i hm
      rw [if_neg (by omega), if_neg (by omega), List.map_cons, List.map_cons, ih ht.2 hm]

/-- A listed pair is what its index reads, in canonical form. -/
theorem Table.read_of_mem {α : Type} {t : Table α} (hw : Table.wf t) {i : Nat} {x : α} (h : (i, x) ∈ t) :
    Table.read t i = some x := by
  induction t with
  | nil => simp at h
  | cons e t ih =>
    obtain ⟨j, y⟩ := e
    have ht := List.pairwise_cons.mp hw
    rcases List.mem_cons.mp h with heq | hm
    · obtain ⟨rfl, rfl⟩ := Prod.mk.inj heq
      simp [Table.read]
    · have hji : j < i := ht.1 i (List.mem_map.mpr ⟨_, hm, rfl⟩)
      rw [Table.read, if_neg (by omega)]
      exact ih ht.2 hm

/-- What an index reads is a listed pair. -/
theorem Table.mem_of_read {α : Type} {t : Table α} {i : Nat} {x : α} (h : Table.read t i = some x) : (i, x) ∈ t := by
  induction t with
  | nil => simp at h
  | cons e t ih =>
    obtain ⟨j, y⟩ := e
    rw [Table.read] at h
    split at h
    · next hj => cases h; subst hj; exact List.mem_cons_self
    · exact List.mem_cons_of_mem _ (ih h)

/-- A successful lookup names a valid entry with the symbol. -/
theorem Table.lookup_some {α : Type} {f : α → Symbol} {t : Table α} (hw : Table.wf t) {sym : Symbol} {i : Nat} {x : α}
    (h : Table.lookup f t sym = some (i, x)) : Table.read t i = some x ∧ f x = sym := by
  refine ⟨Table.read_of_mem hw (List.mem_of_find?_eq_some h), ?_⟩
  simpa using List.find?_some h

/-- A failed lookup: no valid entry has the symbol. -/
theorem Table.lookup_none {α : Type} {f : α → Symbol} {t : Table α} {sym : Symbol}
    (h : Table.lookup f t sym = none) {i : Nat} {x : α} (hr : Table.read t i = some x) : f x ≠ sym := by
  have := List.find?_eq_none.mp h _ (Table.mem_of_read hr)
  simpa using this

/-- Where no two entries have the same symbol, a valid entry with the symbol is the one the lookup finds. -/
theorem Table.lookup_of_read {α : Type} {f : α → Symbol} {t : Table α} {sym : Symbol} {i : Nat} {x : α}
    (hd : (t.map (fun e => f e.2)).Nodup) (hr : Table.read t i = some x) (hx : f x = sym) :
    Table.lookup f t sym = some (i, x) := by
  subst hx
  have hm := Table.mem_of_read hr
  clear hr
  unfold Table.lookup
  induction t with
  | nil => simp at hm
  | cons e t ih =>
    rw [List.map_cons, List.nodup_cons] at hd
    rcases List.mem_cons.mp hm with rfl | hm'
    · simp
    · have hne : f e.2 ≠ f x := fun heq => hd.1 (List.mem_map.mpr ⟨_, hm', heq.symm⟩)
      simpa [List.find?_cons, hne] using ih hd.2 hm'

end Sys2Proof.Machine
end

