-- ==== Sys2Proof/Laws/Builder.lean ====
section
/-! SUPPORT. The functions of the tree builder, one spec lemma each: the order `<<` (R8), the selection (R112), the leaves
(R111). -/

namespace Sys2Proof.Machine

/-- `<<` on forest roots as numbers (R8). -/
theorem rootBefore_iff (x y : ForestRoot) :
    rootBefore x y = true ↔ x.freq.toNat < y.freq.toNat ∨ x.freq = y.freq ∧ x.idx < y.idx := by
  simp [rootBefore, BitVec.lt_def]

/-- Two roots of different index are ordered one way or the other. -/
theorem rootBefore_total {x y : ForestRoot} (h : x.idx ≠ y.idx) (hn : rootBefore x y = false) :
    rootBefore y x = true := by
  have h1 := (rootBefore_iff x y).not.mp (by simp [hn])
  rw [not_or, not_and] at h1
  rw [rootBefore_iff]
  rcases Nat.lt_trichotomy x.freq.toNat y.freq.toNat with h2 | h2 | h2
  · exact absurd h2 h1.1
  · have h3 : x.freq = y.freq := BitVec.eq_of_toNat_eq h2
    have := h1.2 h3
    exact .inr ⟨h3.symm, by omega⟩
  · exact .inl h2

/-- `<<` is transitive. -/
theorem rootBefore_trans {x y z : ForestRoot} (h1 : rootBefore x y = true) (h2 : rootBefore y z = true) :
    rootBefore x z = true := by
  rw [rootBefore_iff] at *
  rcases h1 with h1 | ⟨h1, h1'⟩ <;> rcases h2 with h2 | ⟨h2, h2'⟩
  · exact .inl (h1.trans h2)
  · exact .inl (h2 ▸ h1)
  · exact .inl (h1 ▸ h2)
  · exact .inr ⟨h1.trans h2, h1'.trans h2'⟩

/-- Taking the least root out leaves the others: together they are the collection. -/
theorem takeLeast_perm (x : ForestRoot) (l : List ForestRoot) :
    ((takeLeast x l).1 :: (takeLeast x l).2).Perm (x :: l) := by
  induction l generalizing x with
  | nil => exact List.Perm.refl _
  | cons y ys ih =>
    simp only [takeLeast]
    split
    · exact List.Perm.refl _
    · exact (List.Perm.swap x _ _).trans ((ih y).cons x)

/-- One root fewer is left. -/
theorem takeLeast_length (x : ForestRoot) (l : List ForestRoot) : (takeLeast x l).2.length = l.length := by
  simpa using (takeLeast_perm x l).length_eq

/-- The root taken out is `<<` every root that is left, the indices being distinct (R112). -/
theorem takeLeast_least (x : ForestRoot) (l : List ForestRoot) (hd : ((x :: l).map ForestRoot.idx).Nodup) :
    ∀ z ∈ (takeLeast x l).2, rootBefore (takeLeast x l).1 z = true := by
  induction l generalizing x with
  | nil => intro z hz; cases hz
  | cons y ys ih =>
    rw [List.map_cons, List.nodup_cons] at hd
    have hp := takeLeast_perm y ys
    have hm : (takeLeast y ys).1 ∈ y :: ys := hp.subset List.mem_cons_self
    simp only [takeLeast]
    split
    · next hb =>
      intro z hz
      rcases List.mem_cons.mp (hp.symm.subset hz) with rfl | hz
      · exact hb
      · exact rootBefore_trans hb (ih y hd.2 z hz)
    · next hb =>
      intro z hz
      rcases List.mem_cons.mp hz with rfl | hz
      · refine rootBefore_total (fun heq => hd.1 ?_) (by simpa using hb)
        exact List.mem_map.mpr ⟨_, hm, heq.symm⟩
      · exact ih y hd.2 z hz

/-- The slots read are the entries at their indices. -/
theorem readSlots_some {fm : Table FmEntry} {n i : Nat} {es : List FmEntry} (h : readSlots fm i n = some es) :
    es.length = n ∧ ∀ j, (hj : j < es.length) → Table.read fm (i + j) = some es[j] := by
  induction n generalizing i es with
  | zero => cases h; exact ⟨rfl, fun j hj => absurd hj (Nat.not_lt_zero _)⟩
  | succ n ih =>
    rw [readSlots] at h
    split at h
    · next e es' he hes =>
      cases h
      obtain ⟨hl, hr⟩ := ih hes
      refine ⟨by rw [List.length_cons, hl], fun j hj => ?_⟩
      cases j with
      | zero => simpa using he
      | succ j => simpa [Nat.add_assoc, Nat.add_comm 1] using hr j (by simpa using hj)
    · cases h

/-- Where the slots are all valid, they can be read. -/
theorem readSlots_isSome {fm : Table FmEntry} {n i : Nat} (h : ∀ j, i ≤ j → j < i + n → ∃ e, Table.read fm j = some e) :
    ∃ es, readSlots fm i n = some es := by
  induction n generalizing i with
  | zero => exact ⟨[], rfl⟩
  | succ n ih =>
    obtain ⟨e, he⟩ := h i (by omega) (by omega)
    obtain ⟨es, hes⟩ := ih (i := i + 1) (fun j h1 h2 => h j (by omega) (by omega))
    exact ⟨e :: es, by simp [readSlots, he, hes]⟩

/-- The leaves written from index `i` on extend a node memory that holds the indices below `i`. -/
theorem writeLeaves_keys {nm : Table Node} {i : Nat} (h : nm.map Prod.fst = List.range i) (es : List FmEntry) :
    (writeLeaves nm i es).map Prod.fst = List.range (i + es.length) := by
  induction es generalizing nm i with
  | nil => simpa [writeLeaves] using h
  | cons e es ih =>
    rw [writeLeaves, ih (Table.write_next h _).2, List.length_cons, Nat.add_assoc, Nat.add_comm 1]

/-- An index below the written leaves keeps its entry. -/
theorem writeLeaves_read_lt (nm : Table Node) {i k : Nat} (es : List FmEntry) (h : k < i) :
    Table.read (writeLeaves nm i es) k = Table.read nm k := by
  induction es generalizing nm i with
  | nil => rfl
  | cons e es ih => rw [writeLeaves, ih _ (by omega), Table.read_write_other _ _ (by omega)]

/-- Leaf `i + j` holds the count and the symbol of the `j`-th entry (R111). -/
theorem writeLeaves_read (nm : Table Node) (i : Nat) (es : List FmEntry) (j : Nat) (hj : j < es.length) :
    Table.read (writeLeaves nm i es) (i + j) = some (.leaf es[j].cnt es[j].sym) := by
  induction es generalizing nm i j with
  | nil => simp at hj
  | cons e es ih =>
    rw [writeLeaves]
    cases j with
    | zero => rw [Nat.add_zero, writeLeaves_read_lt _ _ (by omega)]; simp
    | succ j =>
      rw [show i + (j + 1) = (i + 1) + j by omega, ih _ _ j (by simpa using hj)]
      simp

/-- The initial collection: one root a leaf, with its index and its count (R111). -/
theorem leafRoots_eq (i : Nat) (es : List FmEntry) :
    leafRoots i es = es.zipIdx.map (fun p => ⟨p.1.cnt, i + p.2⟩) := by
  induction es generalizing i with
  | nil => rfl
  | cons e es ih =>
    rw [leafRoots, ih, List.zipIdx_cons', List.map_cons, List.map_map]
    simp only [Nat.add_zero, List.cons.injEq, true_and]
    exact List.map_congr_left (fun p _ => by
      simp only [Function.comp, Prod.map_fst, Prod.map_snd, id_eq, ForestRoot.mk.injEq, true_and]; omega)

end Sys2Proof.Machine
end

