-- ==== Sys2Proof/Laws/Decode.lean ====
section
/-! SUPPORT. The fields of a command word (R81) and which rows of the opcode table a word matches (R84). -/

namespace Sys2Proof

/-- The value of a command word from its fields (R81). -/
theorem cmdWord_toNat (op : BitVec 8) (a : BitVec 24) (b : BitVec 32) :
    (cmdWord op a b).toNat = op.toNat * 2 ^ 56 + a.toNat * 2 ^ 32 + b.toNat := by
  have h1 : (cmdWord op a b).toNat = op.toNat <<< 56 ||| (a.toNat <<< 32 ||| b.toNat) := by
    show (op ++ (a ++ b)).toNat = _
    rw [BitVec.toNat_append, BitVec.toNat_append]
  have h2 : a.toNat <<< 32 + b.toNat = a.toNat <<< 32 ||| b.toNat := Nat.shiftLeft_add_eq_or_of_lt b.isLt _
  have hlt : a.toNat <<< 32 + b.toNat < 2 ^ 56 := by
    rw [Nat.shiftLeft_eq]; have := a.isLt; have := b.isLt; omega
  have h3 := Nat.shiftLeft_add_eq_or_of_lt hlt op.toNat
  rw [h1, ← h2, ← h3, Nat.shiftLeft_eq, Nat.shiftLeft_eq]; omega

/-- The opcode field of a command word (R81). -/
@[simp] theorem cmdOp_cmdWord (op : BitVec 8) (a : BitVec 24) (b : BitVec 32) : cmdOp (cmdWord op a b) = op := by
  apply BitVec.eq_of_toNat_eq
  rw [cmdOp, BitVec.extractLsb'_toNat, cmdWord_toNat, Nat.shiftRight_eq_div_pow]
  have := op.isLt; have := a.isLt; have := b.isLt; omega

/-- The field `cmd.a` of a command word (R81). -/
@[simp] theorem cmdA_cmdWord (op : BitVec 8) (a : BitVec 24) (b : BitVec 32) : cmdA (cmdWord op a b) = a := by
  apply BitVec.eq_of_toNat_eq
  rw [cmdA, BitVec.extractLsb'_toNat, cmdWord_toNat, Nat.shiftRight_eq_div_pow]
  have := op.isLt; have := a.isLt; have := b.isLt; omega

/-- The field `cmd.b` of a command word (R81). -/
@[simp] theorem cmdB_cmdWord (op : BitVec 8) (a : BitVec 24) (b : BitVec 32) : cmdB (cmdWord op a b) = b := by
  apply BitVec.eq_of_toNat_eq
  rw [cmdB, BitVec.extractLsb'_toNat, cmdWord_toNat, Nat.shiftRight_eq_div_pow]
  have := op.isLt; have := a.isLt; have := b.isLt; omega

/-- A command word is its three fields (R81). -/
@[simp] theorem cmdWord_fields (w : CmdWord) : cmdWord (cmdOp w) (cmdA w) (cmdB w) = w := by
  apply BitVec.eq_of_toNat_eq
  rw [cmdWord_toNat, cmdOp, cmdA, cmdB]
  simp only [BitVec.extractLsb'_toNat, Nat.shiftRight_eq_div_pow]
  have := w.isLt; omega

/-- Two command words are equal exactly when their fields are. -/
theorem cmdWord_inj {op op' : BitVec 8} {a a' : BitVec 24} {b b' : BitVec 32} :
    cmdWord op a b = cmdWord op' a' b' ↔ op = op' ∧ a = a' ∧ b = b' := by
  refine ⟨fun h => ⟨?_, ?_, ?_⟩, fun ⟨h1, h2, h3⟩ => by rw [h1, h2, h3]⟩
  · simpa only [cmdOp_cmdWord] using congrArg cmdOp h
  · simpa only [cmdA_cmdWord] using congrArg cmdA h
  · simpa only [cmdB_cmdWord] using congrArg cmdB h

/-- A masked command word, field by field. -/
theorem cmdWord_and (op mop : BitVec 8) (a ma : BitVec 24) (b mb : BitVec 32) :
    cmdWord op a b &&& cmdWord mop ma mb = cmdWord (op &&& mop) (a &&& ma) (b &&& mb) := by
  have h2 := @BitVec.and_append 24 32 a ma b mb
  have h := @BitVec.and_append 8 56 op mop (a ++ b) (ma ++ mb)
  exact h.trans (by rw [h2]; rfl)

/-- The part of a format's mask over operand A (R82). -/
def Format.maskA : Format → BitVec 24
  | .n => 0xFFFFFF
  | .s => 0xE00000
  | .sc => 0xE00000
  | .b => 0xFFFFFF
  | .r => 0xFFFFFF
  | .x => 0

/-- The part of a format's mask over operand B (R82). -/
def Format.maskB : Format → BitVec 32
  | .n => 0xFFFFFFFF
  | .s => 0xFFFFFFFF
  | .sc => 0
  | .b => 0xFFFFFFFE
  | .r => 0
  | .x => 0

/-- A format's mask is the opcode and its MBZ bits (R84). -/
theorem Format.mask_eq (f : Format) : f.mask = cmdWord 0xFF f.maskA f.maskB := by
  cases f <;> decide

/-- A word matches a row exactly when its opcode is the row's and its MBZ bits are 0. -/
theorem matchesWord_cmdWord (name : String) (f : Format) (rop op : BitVec 8) (a : BitVec 24) (b : BitVec 32) :
    OpRow.matchesWord ⟨name, f, cmdWord rop 0#24 0#32⟩ (cmdWord op a b) =
      (op == rop && (a &&& f.maskA == 0 && b &&& f.maskB == 0)) := by
  have hop : op &&& 0xFF#8 = op := BitVec.and_allOnes
  rw [Bool.eq_iff_iff]
  simp [OpRow.matchesWord, Format.mask_eq, cmdWord_and, cmdWord_inj, hop]

/-- The opcode table with its match words written field by field. -/
theorem opcodeTable_eq : opcodeTable =
    [ ⟨"NOP", .n, cmdWord 0x00 0 0⟩, ⟨"RST", .n, cmdWord 0x01 0 0⟩, ⟨"ECLR", .n, cmdWord 0x02 0 0⟩,
      ⟨"FSYM", .s, cmdWord 0x10 0 0⟩, ⟨"FADD", .sc, cmdWord 0x11 0 0⟩, ⟨"BUILD", .n, cmdWord 0x20 0 0⟩,
      ⟨"GENTAB", .n, cmdWord 0x21 0 0⟩, ⟨"EBEG", .n, cmdWord 0x30 0 0⟩, ⟨"ESYM", .s, cmdWord 0x31 0 0⟩,
      ⟨"EEND", .n, cmdWord 0x32 0 0⟩, ⟨"DBEG", .n, cmdWord 0x40 0 0⟩, ⟨"DBIT", .b, cmdWord 0x41 0 0⟩,
      ⟨"DEND", .n, cmdWord 0x42 0 0⟩, ⟨"RDR", .r, cmdWord 0x50 0 0⟩, ⟨"RDF", .x, cmdWord 0x51 0 0⟩,
      ⟨"RDN", .x, cmdWord 0x52 0 0⟩, ⟨"RDC", .x, cmdWord 0x53 0 0⟩ ] := by
  decide

/-- The upper half of a command's word: opcode and operand A (R201). -/
theorem upperHalf_cmdWord_toNat (op : BitVec 8) (a : BitVec 24) (b : BitVec 32) :
    (upperHalf (cmdWord op a b)).toNat = op.toNat * 2 ^ 24 + a.toNat := by
  rw [upperHalf, BitVec.extractLsb'_toNat, cmdWord_toNat, Nat.shiftRight_eq_div_pow]
  have := op.isLt; have := a.isLt; have := b.isLt; omega

end Sys2Proof
end

