-- ==== Sys2Proof/Laws/State.lean ====
section
/-! SUPPORT. What every named update of the state does to every field, true by unfolding, so that no later proof unfolds
a record update. -/

namespace Sys2Proof.Machine

@[simp] theorem emit_kMax (items : List OutItem) (s : State) : (emit items s).kMax = s.kMax := rfl
@[simp] theorem emit_k (items : List OutItem) (s : State) : (emit items s).k = s.k := rfl
@[simp] theorem emit_total (items : List OutItem) (s : State) : (emit items s).total = s.total := rfl
@[simp] theorem emit_nn (items : List OutItem) (s : State) : (emit items s).nn = s.nn := rfl
@[simp] theorem emit_root (items : List OutItem) (s : State) : (emit items s).root = s.root := rfl
@[simp] theorem emit_cur (items : List OutItem) (s : State) : (emit items s).cur = s.cur := rfl
@[simp] theorem emit_phase (items : List OutItem) (s : State) : (emit items s).phase = s.phase := rfl
@[simp] theorem emit_encAct (items : List OutItem) (s : State) : (emit items s).encAct = s.encAct := rfl
@[simp] theorem emit_decAct (items : List OutItem) (s : State) : (emit items s).decAct = s.decAct := rfl
@[simp] theorem emit_encLen (items : List OutItem) (s : State) : (emit items s).encLen = s.encLen := rfl
@[simp] theorem emit_encCnt (items : List OutItem) (s : State) : (emit items s).encCnt = s.encCnt := rfl
@[simp] theorem emit_decBits (items : List OutItem) (s : State) : (emit items s).decBits = s.decBits := rfl
@[simp] theorem emit_decCnt (items : List OutItem) (s : State) : (emit items s).decCnt = s.decCnt := rfl
@[simp] theorem emit_err (items : List OutItem) (s : State) : (emit items s).err = s.err := rfl
@[simp] theorem emit_eLast (items : List OutItem) (s : State) : (emit items s).eLast = s.eLast := rfl
@[simp] theorem emit_eInfo (items : List OutItem) (s : State) : (emit items s).eInfo = s.eInfo := rfl
@[simp] theorem emit_fm (items : List OutItem) (s : State) : (emit items s).fm = s.fm := rfl
@[simp] theorem emit_nm (items : List OutItem) (s : State) : (emit items s).nm = s.nm := rfl
@[simp] theorem emit_ct (items : List OutItem) (s : State) : (emit items s).ct = s.ct := rfl
@[simp] theorem emit_out (items : List OutItem) (s : State) : (emit items s).out = s.out ++ items := rfl
@[simp] theorem emit_inp (items : List OutItem) (s : State) : (emit items s).inp = s.inp := rfl

@[simp] theorem respondOk_kMax (d : Word32) (s : State) : (respondOk d s).kMax = s.kMax := rfl
@[simp] theorem respondOk_k (d : Word32) (s : State) : (respondOk d s).k = s.k := rfl
@[simp] theorem respondOk_total (d : Word32) (s : State) : (respondOk d s).total = s.total := rfl
@[simp] theorem respondOk_nn (d : Word32) (s : State) : (respondOk d s).nn = s.nn := rfl
@[simp] theorem respondOk_root (d : Word32) (s : State) : (respondOk d s).root = s.root := rfl
@[simp] theorem respondOk_cur (d : Word32) (s : State) : (respondOk d s).cur = s.cur := rfl
@[simp] theorem respondOk_phase (d : Word32) (s : State) : (respondOk d s).phase = s.phase := rfl
@[simp] theorem respondOk_encAct (d : Word32) (s : State) : (respondOk d s).encAct = s.encAct := rfl
@[simp] theorem respondOk_decAct (d : Word32) (s : State) : (respondOk d s).decAct = s.decAct := rfl
@[simp] theorem respondOk_encLen (d : Word32) (s : State) : (respondOk d s).encLen = s.encLen := rfl
@[simp] theorem respondOk_encCnt (d : Word32) (s : State) : (respondOk d s).encCnt = s.encCnt := rfl
@[simp] theorem respondOk_decBits (d : Word32) (s : State) : (respondOk d s).decBits = s.decBits := rfl
@[simp] theorem respondOk_decCnt (d : Word32) (s : State) : (respondOk d s).decCnt = s.decCnt := rfl
@[simp] theorem respondOk_err (d : Word32) (s : State) : (respondOk d s).err = s.err := rfl
@[simp] theorem respondOk_eLast (d : Word32) (s : State) : (respondOk d s).eLast = s.eLast := rfl
@[simp] theorem respondOk_eInfo (d : Word32) (s : State) : (respondOk d s).eInfo = s.eInfo := rfl
@[simp] theorem respondOk_fm (d : Word32) (s : State) : (respondOk d s).fm = s.fm := rfl
@[simp] theorem respondOk_nm (d : Word32) (s : State) : (respondOk d s).nm = s.nm := rfl
@[simp] theorem respondOk_ct (d : Word32) (s : State) : (respondOk d s).ct = s.ct := rfl
@[simp] theorem respondOk_out (d : Word32) (s : State) : (respondOk d s).out = s.out ++ [.rsp (rspWord 0 d)] := rfl
@[simp] theorem respondOk_inp (d : Word32) (s : State) : (respondOk d s).inp = s.inp := rfl

@[simp] theorem raiseFault_kMax (x : FaultKind) (info : Word32) (s : State) : (raiseFault x info s).kMax = s.kMax := rfl
@[simp] theorem raiseFault_k (x : FaultKind) (info : Word32) (s : State) : (raiseFault x info s).k = s.k := rfl
@[simp] theorem raiseFault_total (x : FaultKind) (info : Word32) (s : State) : (raiseFault x info s).total = s.total := rfl
@[simp] theorem raiseFault_nn (x : FaultKind) (info : Word32) (s : State) : (raiseFault x info s).nn = s.nn := rfl
@[simp] theorem raiseFault_root (x : FaultKind) (info : Word32) (s : State) : (raiseFault x info s).root = s.root := rfl
@[simp] theorem raiseFault_cur (x : FaultKind) (info : Word32) (s : State) : (raiseFault x info s).cur = s.cur := rfl
@[simp] theorem raiseFault_phase (x : FaultKind) (info : Word32) (s : State) : (raiseFault x info s).phase = s.phase := rfl
@[simp] theorem raiseFault_encAct (x : FaultKind) (info : Word32) (s : State) : (raiseFault x info s).encAct = s.encAct := rfl
@[simp] theorem raiseFault_decAct (x : FaultKind) (info : Word32) (s : State) : (raiseFault x info s).decAct = s.decAct := rfl
@[simp] theorem raiseFault_encLen (x : FaultKind) (info : Word32) (s : State) : (raiseFault x info s).encLen = s.encLen := rfl
@[simp] theorem raiseFault_encCnt (x : FaultKind) (info : Word32) (s : State) : (raiseFault x info s).encCnt = s.encCnt := rfl
@[simp] theorem raiseFault_decBits (x : FaultKind) (info : Word32) (s : State) : (raiseFault x info s).decBits = s.decBits := rfl
@[simp] theorem raiseFault_decCnt (x : FaultKind) (info : Word32) (s : State) : (raiseFault x info s).decCnt = s.decCnt := rfl
@[simp] theorem raiseFault_err (x : FaultKind) (info : Word32) (s : State) : (raiseFault x info s).err = s.err ||| (1#32 <<< faultCode x) := rfl
@[simp] theorem raiseFault_eLast (x : FaultKind) (info : Word32) (s : State) : (raiseFault x info s).eLast = BitVec.ofNat 32 (faultCode x) := rfl
@[simp] theorem raiseFault_eInfo (x : FaultKind) (info : Word32) (s : State) : (raiseFault x info s).eInfo = info := rfl
@[simp] theorem raiseFault_fm (x : FaultKind) (info : Word32) (s : State) : (raiseFault x info s).fm = s.fm := rfl
@[simp] theorem raiseFault_nm (x : FaultKind) (info : Word32) (s : State) : (raiseFault x info s).nm = s.nm := rfl
@[simp] theorem raiseFault_ct (x : FaultKind) (info : Word32) (s : State) : (raiseFault x info s).ct = s.ct := rfl
@[simp] theorem raiseFault_out (x : FaultKind) (info : Word32) (s : State) : (raiseFault x info s).out = s.out ++ [.rsp (rspWord (BitVec.ofNat 8 (faultCode x)) info)] := rfl
@[simp] theorem raiseFault_inp (x : FaultKind) (info : Word32) (s : State) : (raiseFault x info s).inp = s.inp := rfl

@[simp] theorem clearFaults_kMax (s : State) : (clearFaults s).kMax = s.kMax := rfl
@[simp] theorem clearFaults_k (s : State) : (clearFaults s).k = s.k := rfl
@[simp] theorem clearFaults_total (s : State) : (clearFaults s).total = s.total := rfl
@[simp] theorem clearFaults_nn (s : State) : (clearFaults s).nn = s.nn := rfl
@[simp] theorem clearFaults_root (s : State) : (clearFaults s).root = s.root := rfl
@[simp] theorem clearFaults_cur (s : State) : (clearFaults s).cur = s.cur := rfl
@[simp] theorem clearFaults_phase (s : State) : (clearFaults s).phase = s.phase := rfl
@[simp] theorem clearFaults_encAct (s : State) : (clearFaults s).encAct = s.encAct := rfl
@[simp] theorem clearFaults_decAct (s : State) : (clearFaults s).decAct = s.decAct := rfl
@[simp] theorem clearFaults_encLen (s : State) : (clearFaults s).encLen = s.encLen := rfl
@[simp] theorem clearFaults_encCnt (s : State) : (clearFaults s).encCnt = s.encCnt := rfl
@[simp] theorem clearFaults_decBits (s : State) : (clearFaults s).decBits = s.decBits := rfl
@[simp] theorem clearFaults_decCnt (s : State) : (clearFaults s).decCnt = s.decCnt := rfl
@[simp] theorem clearFaults_err (s : State) : (clearFaults s).err = 0 := rfl
@[simp] theorem clearFaults_eLast (s : State) : (clearFaults s).eLast = 0 := rfl
@[simp] theorem clearFaults_eInfo (s : State) : (clearFaults s).eInfo = 0 := rfl
@[simp] theorem clearFaults_fm (s : State) : (clearFaults s).fm = s.fm := rfl
@[simp] theorem clearFaults_nm (s : State) : (clearFaults s).nm = s.nm := rfl
@[simp] theorem clearFaults_ct (s : State) : (clearFaults s).ct = s.ct := rfl
@[simp] theorem clearFaults_out (s : State) : (clearFaults s).out = s.out := rfl
@[simp] theorem clearFaults_inp (s : State) : (clearFaults s).inp = s.inp := rfl

@[simp] theorem softReset_kMax (s : State) : (softReset s).kMax = s.kMax := rfl
@[simp] theorem softReset_k (s : State) : (softReset s).k = 0 := rfl
@[simp] theorem softReset_total (s : State) : (softReset s).total = 0 := rfl
@[simp] theorem softReset_nn (s : State) : (softReset s).nn = 0 := rfl
@[simp] theorem softReset_root (s : State) : (softReset s).root = 0 := rfl
@[simp] theorem softReset_cur (s : State) : (softReset s).cur = 0 := rfl
@[simp] theorem softReset_phase (s : State) : (softReset s).phase = .collect := rfl
@[simp] theorem softReset_encAct (s : State) : (softReset s).encAct = false := rfl
@[simp] theorem softReset_decAct (s : State) : (softReset s).decAct = false := rfl
@[simp] theorem softReset_encLen (s : State) : (softReset s).encLen = 0 := rfl
@[simp] theorem softReset_encCnt (s : State) : (softReset s).encCnt = 0 := rfl
@[simp] theorem softReset_decBits (s : State) : (softReset s).decBits = 0 := rfl
@[simp] theorem softReset_decCnt (s : State) : (softReset s).decCnt = 0 := rfl
@[simp] theorem softReset_err (s : State) : (softReset s).err = 0 := rfl
@[simp] theorem softReset_eLast (s : State) : (softReset s).eLast = 0 := rfl
@[simp] theorem softReset_eInfo (s : State) : (softReset s).eInfo = 0 := rfl
@[simp] theorem softReset_fm (s : State) : (softReset s).fm = [] := rfl
@[simp] theorem softReset_nm (s : State) : (softReset s).nm = [] := rfl
@[simp] theorem softReset_ct (s : State) : (softReset s).ct = [] := rfl
@[simp] theorem softReset_out (s : State) : (softReset s).out = s.out ++ abortItems s := rfl
@[simp] theorem softReset_inp (s : State) : (softReset s).inp = s.inp := rfl

@[simp] theorem hardwareReset_kMax (s : State) : (hardwareReset s).kMax = s.kMax := rfl
@[simp] theorem hardwareReset_k (s : State) : (hardwareReset s).k = 0 := rfl
@[simp] theorem hardwareReset_total (s : State) : (hardwareReset s).total = 0 := rfl
@[simp] theorem hardwareReset_nn (s : State) : (hardwareReset s).nn = 0 := rfl
@[simp] theorem hardwareReset_root (s : State) : (hardwareReset s).root = 0 := rfl
@[simp] theorem hardwareReset_cur (s : State) : (hardwareReset s).cur = 0 := rfl
@[simp] theorem hardwareReset_phase (s : State) : (hardwareReset s).phase = .collect := rfl
@[simp] theorem hardwareReset_encAct (s : State) : (hardwareReset s).encAct = false := rfl
@[simp] theorem hardwareReset_decAct (s : State) : (hardwareReset s).decAct = false := rfl
@[simp] theorem hardwareReset_encLen (s : State) : (hardwareReset s).encLen = 0 := rfl
@[simp] theorem hardwareReset_encCnt (s : State) : (hardwareReset s).encCnt = 0 := rfl
@[simp] theorem hardwareReset_decBits (s : State) : (hardwareReset s).decBits = 0 := rfl
@[simp] theorem hardwareReset_decCnt (s : State) : (hardwareReset s).decCnt = 0 := rfl
@[simp] theorem hardwareReset_err (s : State) : (hardwareReset s).err = 0 := rfl
@[simp] theorem hardwareReset_eLast (s : State) : (hardwareReset s).eLast = 0 := rfl
@[simp] theorem hardwareReset_eInfo (s : State) : (hardwareReset s).eInfo = 0 := rfl
@[simp] theorem hardwareReset_fm (s : State) : (hardwareReset s).fm = [] := rfl
@[simp] theorem hardwareReset_nm (s : State) : (hardwareReset s).nm = [] := rfl
@[simp] theorem hardwareReset_ct (s : State) : (hardwareReset s).ct = [] := rfl
@[simp] theorem hardwareReset_out (s : State) : (hardwareReset s).out = [] := rfl
@[simp] theorem hardwareReset_inp (s : State) : (hardwareReset s).inp = s.inp := rfl

@[simp] theorem putCommand_kMax (w : CmdWord) (s : State) : (putCommand w s).kMax = s.kMax := rfl
@[simp] theorem putCommand_k (w : CmdWord) (s : State) : (putCommand w s).k = s.k := rfl
@[simp] theorem putCommand_total (w : CmdWord) (s : State) : (putCommand w s).total = s.total := rfl
@[simp] theorem putCommand_nn (w : CmdWord) (s : State) : (putCommand w s).nn = s.nn := rfl
@[simp] theorem putCommand_root (w : CmdWord) (s : State) : (putCommand w s).root = s.root := rfl
@[simp] theorem putCommand_cur (w : CmdWord) (s : State) : (putCommand w s).cur = s.cur := rfl
@[simp] theorem putCommand_phase (w : CmdWord) (s : State) : (putCommand w s).phase = s.phase := rfl
@[simp] theorem putCommand_encAct (w : CmdWord) (s : State) : (putCommand w s).encAct = s.encAct := rfl
@[simp] theorem putCommand_decAct (w : CmdWord) (s : State) : (putCommand w s).decAct = s.decAct := rfl
@[simp] theorem putCommand_encLen (w : CmdWord) (s : State) : (putCommand w s).encLen = s.encLen := rfl
@[simp] theorem putCommand_encCnt (w : CmdWord) (s : State) : (putCommand w s).encCnt = s.encCnt := rfl
@[simp] theorem putCommand_decBits (w : CmdWord) (s : State) : (putCommand w s).decBits = s.decBits := rfl
@[simp] theorem putCommand_decCnt (w : CmdWord) (s : State) : (putCommand w s).decCnt = s.decCnt := rfl
@[simp] theorem putCommand_err (w : CmdWord) (s : State) : (putCommand w s).err = s.err := rfl
@[simp] theorem putCommand_eLast (w : CmdWord) (s : State) : (putCommand w s).eLast = s.eLast := rfl
@[simp] theorem putCommand_eInfo (w : CmdWord) (s : State) : (putCommand w s).eInfo = s.eInfo := rfl
@[simp] theorem putCommand_fm (w : CmdWord) (s : State) : (putCommand w s).fm = s.fm := rfl
@[simp] theorem putCommand_nm (w : CmdWord) (s : State) : (putCommand w s).nm = s.nm := rfl
@[simp] theorem putCommand_ct (w : CmdWord) (s : State) : (putCommand w s).ct = s.ct := rfl
@[simp] theorem putCommand_out (w : CmdWord) (s : State) : (putCommand w s).out = s.out := rfl
@[simp] theorem putCommand_inp (w : CmdWord) (s : State) : (putCommand w s).inp = .command w :: s.inp := rfl

@[simp] theorem installTree_kMax (m : Merged) (s : State) : (installTree m s).kMax = s.kMax := rfl
@[simp] theorem installTree_k (m : Merged) (s : State) : (installTree m s).k = s.k := rfl
@[simp] theorem installTree_total (m : Merged) (s : State) : (installTree m s).total = s.total := rfl
@[simp] theorem installTree_nn (m : Merged) (s : State) : (installTree m s).nn = BitVec.ofNat 32 m.nn := rfl
@[simp] theorem installTree_root (m : Merged) (s : State) : (installTree m s).root = BitVec.ofNat 32 m.root := rfl
@[simp] theorem installTree_cur (m : Merged) (s : State) : (installTree m s).cur = s.cur := rfl
@[simp] theorem installTree_phase (m : Merged) (s : State) : (installTree m s).phase = .built := rfl
@[simp] theorem installTree_encAct (m : Merged) (s : State) : (installTree m s).encAct = s.encAct := rfl
@[simp] theorem installTree_decAct (m : Merged) (s : State) : (installTree m s).decAct = s.decAct := rfl
@[simp] theorem installTree_encLen (m : Merged) (s : State) : (installTree m s).encLen = s.encLen := rfl
@[simp] theorem installTree_encCnt (m : Merged) (s : State) : (installTree m s).encCnt = s.encCnt := rfl
@[simp] theorem installTree_decBits (m : Merged) (s : State) : (installTree m s).decBits = s.decBits := rfl
@[simp] theorem installTree_decCnt (m : Merged) (s : State) : (installTree m s).decCnt = s.decCnt := rfl
@[simp] theorem installTree_err (m : Merged) (s : State) : (installTree m s).err = s.err := rfl
@[simp] theorem installTree_eLast (m : Merged) (s : State) : (installTree m s).eLast = s.eLast := rfl
@[simp] theorem installTree_eInfo (m : Merged) (s : State) : (installTree m s).eInfo = s.eInfo := rfl
@[simp] theorem installTree_fm (m : Merged) (s : State) : (installTree m s).fm = s.fm := rfl
@[simp] theorem installTree_nm (m : Merged) (s : State) : (installTree m s).nm = m.nm := rfl
@[simp] theorem installTree_ct (m : Merged) (s : State) : (installTree m s).ct = s.ct := rfl
@[simp] theorem installTree_out (m : Merged) (s : State) : (installTree m s).out = s.out := rfl
@[simp] theorem installTree_inp (m : Merged) (s : State) : (installTree m s).inp = s.inp := rfl

@[simp] theorem abortEncode_kMax (s : State) : (abortEncode s).kMax = s.kMax := rfl
@[simp] theorem abortEncode_k (s : State) : (abortEncode s).k = s.k := rfl
@[simp] theorem abortEncode_total (s : State) : (abortEncode s).total = s.total := rfl
@[simp] theorem abortEncode_nn (s : State) : (abortEncode s).nn = s.nn := rfl
@[simp] theorem abortEncode_root (s : State) : (abortEncode s).root = s.root := rfl
@[simp] theorem abortEncode_cur (s : State) : (abortEncode s).cur = s.cur := rfl
@[simp] theorem abortEncode_phase (s : State) : (abortEncode s).phase = s.phase := rfl
@[simp] theorem abortEncode_encAct (s : State) : (abortEncode s).encAct = false := rfl
@[simp] theorem abortEncode_decAct (s : State) : (abortEncode s).decAct = s.decAct := rfl
@[simp] theorem abortEncode_encLen (s : State) : (abortEncode s).encLen = 0 := rfl
@[simp] theorem abortEncode_encCnt (s : State) : (abortEncode s).encCnt = 0 := rfl
@[simp] theorem abortEncode_decBits (s : State) : (abortEncode s).decBits = s.decBits := rfl
@[simp] theorem abortEncode_decCnt (s : State) : (abortEncode s).decCnt = s.decCnt := rfl
@[simp] theorem abortEncode_err (s : State) : (abortEncode s).err = s.err := rfl
@[simp] theorem abortEncode_eLast (s : State) : (abortEncode s).eLast = s.eLast := rfl
@[simp] theorem abortEncode_eInfo (s : State) : (abortEncode s).eInfo = s.eInfo := rfl
@[simp] theorem abortEncode_fm (s : State) : (abortEncode s).fm = s.fm := rfl
@[simp] theorem abortEncode_nm (s : State) : (abortEncode s).nm = s.nm := rfl
@[simp] theorem abortEncode_ct (s : State) : (abortEncode s).ct = s.ct := rfl
@[simp] theorem abortEncode_out (s : State) : (abortEncode s).out = s.out ++ [.bo .abort] := rfl
@[simp] theorem abortEncode_inp (s : State) : (abortEncode s).inp = s.inp := rfl

@[simp] theorem appendCode_kMax (bits : List Bool) (s : State) : (appendCode bits s).kMax = s.kMax := rfl
@[simp] theorem appendCode_k (bits : List Bool) (s : State) : (appendCode bits s).k = s.k := rfl
@[simp] theorem appendCode_total (bits : List Bool) (s : State) : (appendCode bits s).total = s.total := rfl
@[simp] theorem appendCode_nn (bits : List Bool) (s : State) : (appendCode bits s).nn = s.nn := rfl
@[simp] theorem appendCode_root (bits : List Bool) (s : State) : (appendCode bits s).root = s.root := rfl
@[simp] theorem appendCode_cur (bits : List Bool) (s : State) : (appendCode bits s).cur = s.cur := rfl
@[simp] theorem appendCode_phase (bits : List Bool) (s : State) : (appendCode bits s).phase = s.phase := rfl
@[simp] theorem appendCode_encAct (bits : List Bool) (s : State) : (appendCode bits s).encAct = s.encAct := rfl
@[simp] theorem appendCode_decAct (bits : List Bool) (s : State) : (appendCode bits s).decAct = s.decAct := rfl
@[simp] theorem appendCode_encLen (bits : List Bool) (s : State) : (appendCode bits s).encLen = s.encLen + BitVec.ofNat 32 bits.length := rfl
@[simp] theorem appendCode_encCnt (bits : List Bool) (s : State) : (appendCode bits s).encCnt = s.encCnt + 1 := rfl
@[simp] theorem appendCode_decBits (bits : List Bool) (s : State) : (appendCode bits s).decBits = s.decBits := rfl
@[simp] theorem appendCode_decCnt (bits : List Bool) (s : State) : (appendCode bits s).decCnt = s.decCnt := rfl
@[simp] theorem appendCode_err (bits : List Bool) (s : State) : (appendCode bits s).err = s.err := rfl
@[simp] theorem appendCode_eLast (bits : List Bool) (s : State) : (appendCode bits s).eLast = s.eLast := rfl
@[simp] theorem appendCode_eInfo (bits : List Bool) (s : State) : (appendCode bits s).eInfo = s.eInfo := rfl
@[simp] theorem appendCode_fm (bits : List Bool) (s : State) : (appendCode bits s).fm = s.fm := rfl
@[simp] theorem appendCode_nm (bits : List Bool) (s : State) : (appendCode bits s).nm = s.nm := rfl
@[simp] theorem appendCode_ct (bits : List Bool) (s : State) : (appendCode bits s).ct = s.ct := rfl
@[simp] theorem appendCode_out (bits : List Bool) (s : State) : (appendCode bits s).out = s.out ++ bitItems bits := rfl
@[simp] theorem appendCode_inp (bits : List Bool) (s : State) : (appendCode bits s).inp = s.inp := rfl

@[simp] theorem emitSymbol_kMax (sym : Symbol) (s : State) : (emitSymbol sym s).kMax = s.kMax := rfl
@[simp] theorem emitSymbol_k (sym : Symbol) (s : State) : (emitSymbol sym s).k = s.k := rfl
@[simp] theorem emitSymbol_total (sym : Symbol) (s : State) : (emitSymbol sym s).total = s.total := rfl
@[simp] theorem emitSymbol_nn (sym : Symbol) (s : State) : (emitSymbol sym s).nn = s.nn := rfl
@[simp] theorem emitSymbol_root (sym : Symbol) (s : State) : (emitSymbol sym s).root = s.root := rfl
@[simp] theorem emitSymbol_cur (sym : Symbol) (s : State) : (emitSymbol sym s).cur = s.cur := rfl
@[simp] theorem emitSymbol_phase (sym : Symbol) (s : State) : (emitSymbol sym s).phase = s.phase := rfl
@[simp] theorem emitSymbol_encAct (sym : Symbol) (s : State) : (emitSymbol sym s).encAct = s.encAct := rfl
@[simp] theorem emitSymbol_decAct (sym : Symbol) (s : State) : (emitSymbol sym s).decAct = s.decAct := rfl
@[simp] theorem emitSymbol_encLen (sym : Symbol) (s : State) : (emitSymbol sym s).encLen = s.encLen := rfl
@[simp] theorem emitSymbol_encCnt (sym : Symbol) (s : State) : (emitSymbol sym s).encCnt = s.encCnt := rfl
@[simp] theorem emitSymbol_decBits (sym : Symbol) (s : State) : (emitSymbol sym s).decBits = s.decBits := rfl
@[simp] theorem emitSymbol_decCnt (sym : Symbol) (s : State) : (emitSymbol sym s).decCnt = s.decCnt + 1 := rfl
@[simp] theorem emitSymbol_err (sym : Symbol) (s : State) : (emitSymbol sym s).err = s.err := rfl
@[simp] theorem emitSymbol_eLast (sym : Symbol) (s : State) : (emitSymbol sym s).eLast = s.eLast := rfl
@[simp] theorem emitSymbol_eInfo (sym : Symbol) (s : State) : (emitSymbol sym s).eInfo = s.eInfo := rfl
@[simp] theorem emitSymbol_fm (sym : Symbol) (s : State) : (emitSymbol sym s).fm = s.fm := rfl
@[simp] theorem emitSymbol_nm (sym : Symbol) (s : State) : (emitSymbol sym s).nm = s.nm := rfl
@[simp] theorem emitSymbol_ct (sym : Symbol) (s : State) : (emitSymbol sym s).ct = s.ct := rfl
@[simp] theorem emitSymbol_out (sym : Symbol) (s : State) : (emitSymbol sym s).out = s.out ++ [.so (.sym sym)] := rfl
@[simp] theorem emitSymbol_inp (sym : Symbol) (s : State) : (emitSymbol sym s).inp = s.inp := rfl

@[simp] theorem descend_kMax (bit : Bool) (left right : Word32) (s : State) : (descend bit left right s).kMax = s.kMax := rfl
@[simp] theorem descend_k (bit : Bool) (left right : Word32) (s : State) : (descend bit left right s).k = s.k := rfl
@[simp] theorem descend_total (bit : Bool) (left right : Word32) (s : State) : (descend bit left right s).total = s.total := rfl
@[simp] theorem descend_nn (bit : Bool) (left right : Word32) (s : State) : (descend bit left right s).nn = s.nn := rfl
@[simp] theorem descend_root (bit : Bool) (left right : Word32) (s : State) : (descend bit left right s).root = s.root := rfl
@[simp] theorem descend_cur (bit : Bool) (left right : Word32) (s : State) : (descend bit left right s).cur = if bit then right else left := rfl
@[simp] theorem descend_phase (bit : Bool) (left right : Word32) (s : State) : (descend bit left right s).phase = s.phase := rfl
@[simp] theorem descend_encAct (bit : Bool) (left right : Word32) (s : State) : (descend bit left right s).encAct = s.encAct := rfl
@[simp] theorem descend_decAct (bit : Bool) (left right : Word32) (s : State) : (descend bit left right s).decAct = s.decAct := rfl
@[simp] theorem descend_encLen (bit : Bool) (left right : Word32) (s : State) : (descend bit left right s).encLen = s.encLen := rfl
@[simp] theorem descend_encCnt (bit : Bool) (left right : Word32) (s : State) : (descend bit left right s).encCnt = s.encCnt := rfl
@[simp] theorem descend_decBits (bit : Bool) (left right : Word32) (s : State) : (descend bit left right s).decBits = s.decBits := rfl
@[simp] theorem descend_decCnt (bit : Bool) (left right : Word32) (s : State) : (descend bit left right s).decCnt = s.decCnt := rfl
@[simp] theorem descend_err (bit : Bool) (left right : Word32) (s : State) : (descend bit left right s).err = s.err := rfl
@[simp] theorem descend_eLast (bit : Bool) (left right : Word32) (s : State) : (descend bit left right s).eLast = s.eLast := rfl
@[simp] theorem descend_eInfo (bit : Bool) (left right : Word32) (s : State) : (descend bit left right s).eInfo = s.eInfo := rfl
@[simp] theorem descend_fm (bit : Bool) (left right : Word32) (s : State) : (descend bit left right s).fm = s.fm := rfl
@[simp] theorem descend_nm (bit : Bool) (left right : Word32) (s : State) : (descend bit left right s).nm = s.nm := rfl
@[simp] theorem descend_ct (bit : Bool) (left right : Word32) (s : State) : (descend bit left right s).ct = s.ct := rfl
@[simp] theorem descend_out (bit : Bool) (left right : Word32) (s : State) : (descend bit left right s).out = s.out := rfl
@[simp] theorem descend_inp (bit : Bool) (left right : Word32) (s : State) : (descend bit left right s).inp = s.inp := rfl

@[simp] theorem abortDecode_kMax (s : State) : (abortDecode s).kMax = s.kMax := rfl
@[simp] theorem abortDecode_k (s : State) : (abortDecode s).k = s.k := rfl
@[simp] theorem abortDecode_total (s : State) : (abortDecode s).total = s.total := rfl
@[simp] theorem abortDecode_nn (s : State) : (abortDecode s).nn = s.nn := rfl
@[simp] theorem abortDecode_root (s : State) : (abortDecode s).root = s.root := rfl
@[simp] theorem abortDecode_cur (s : State) : (abortDecode s).cur = s.cur := rfl
@[simp] theorem abortDecode_phase (s : State) : (abortDecode s).phase = s.phase := rfl
@[simp] theorem abortDecode_encAct (s : State) : (abortDecode s).encAct = s.encAct := rfl
@[simp] theorem abortDecode_decAct (s : State) : (abortDecode s).decAct = false := rfl
@[simp] theorem abortDecode_encLen (s : State) : (abortDecode s).encLen = s.encLen := rfl
@[simp] theorem abortDecode_encCnt (s : State) : (abortDecode s).encCnt = s.encCnt := rfl
@[simp] theorem abortDecode_decBits (s : State) : (abortDecode s).decBits = 0 := rfl
@[simp] theorem abortDecode_decCnt (s : State) : (abortDecode s).decCnt = 0 := rfl
@[simp] theorem abortDecode_err (s : State) : (abortDecode s).err = s.err := rfl
@[simp] theorem abortDecode_eLast (s : State) : (abortDecode s).eLast = s.eLast := rfl
@[simp] theorem abortDecode_eInfo (s : State) : (abortDecode s).eInfo = s.eInfo := rfl
@[simp] theorem abortDecode_fm (s : State) : (abortDecode s).fm = s.fm := rfl
@[simp] theorem abortDecode_nm (s : State) : (abortDecode s).nm = s.nm := rfl
@[simp] theorem abortDecode_ct (s : State) : (abortDecode s).ct = s.ct := rfl
@[simp] theorem abortDecode_out (s : State) : (abortDecode s).out = s.out ++ [.so .abort] := rfl
@[simp] theorem abortDecode_inp (s : State) : (abortDecode s).inp = s.inp := rfl

@[simp] theorem resetFor_kMax (n : Nat) : (State.resetFor n).kMax = n := rfl

end Sys2Proof.Machine
end

