-- ==== Sys2Proof/Laws/Ops.lean ====
section
/-! SUPPORT. What the shared operations can do, once each: the views of the trace, the phase check, refusals and
readback, the command port, and the inversion of every meaning that has more than one outcome. -/

namespace Sys2Proof.Machine

/-! The views of the merged trace -/

@[simp] theorem toBo_bo (x : BoItem) : OutItem.toBo (.bo x) = some x := rfl
@[simp] theorem toBo_so (x : SoItem) : OutItem.toBo (.so x) = none := rfl
@[simp] theorem toBo_rsp (w : RspWord) : OutItem.toBo (.rsp w) = none := rfl
@[simp] theorem toSo_bo (x : BoItem) : OutItem.toSo (.bo x) = none := rfl
@[simp] theorem toSo_so (x : SoItem) : OutItem.toSo (.so x) = some x := rfl
@[simp] theorem toSo_rsp (w : RspWord) : OutItem.toSo (.rsp w) = none := rfl
@[simp] theorem toRsp_bo (x : BoItem) : OutItem.toRsp (.bo x) = none := rfl
@[simp] theorem toRsp_so (x : SoItem) : OutItem.toRsp (.so x) = none := rfl
@[simp] theorem toRsp_rsp (w : RspWord) : OutItem.toRsp (.rsp w) = some w := rfl

/-- BO after a step that appends `items` to the trace. -/
theorem bo_of_out {s t : State} {items : List OutItem} (h : t.out = s.out ++ items) :
    t.bo = s.bo ++ items.filterMap OutItem.toBo := by
  simp [State.bo, h]

/-- SO after a step that appends `items` to the trace. -/
theorem so_of_out {s t : State} {items : List OutItem} (h : t.out = s.out ++ items) :
    t.so = s.so ++ items.filterMap OutItem.toSo := by
  simp [State.so, h]

/-- The responses after a step that appends `items` to the trace. -/
theorem rsps_of_out {s t : State} {items : List OutItem} (h : t.out = s.out ++ items) :
    t.rsps = s.rsps ++ items.filterMap OutItem.toRsp := by
  simp [State.rsps, h]

@[simp] theorem bitItems_toBo (bits : List Bool) :
    (bitItems bits).filterMap OutItem.toBo = bits.map BoItem.bit := by
  induction bits with
  | nil => rfl
  | cons b bs ih => simpa [bitItems] using ih

@[simp] theorem bitItems_toSo (bits : List Bool) : (bitItems bits).filterMap OutItem.toSo = [] := by
  induction bits with
  | nil => rfl
  | cons b bs ih => exact ih

@[simp] theorem bitItems_toRsp (bits : List Bool) : (bitItems bits).filterMap OutItem.toRsp = [] := by
  induction bits with
  | nil => rfl
  | cons b bs ih => exact ih

/-! The phase check, refusals, readback -/

/-- An accepted command is its body. -/
theorem checked_accepted {i : Instr} {s : State} (h : accepts i s = true) (body : Answer) :
    checked i s body = body := by
  simp [checked, h]

/-- A command that is not accepted is refused with BadSequence. -/
theorem checked_refused {i : Instr} {s : State} (h : accepts i s = false) (body : Answer) :
    checked i s body = .next (raiseFault .badSequence (upperHalf (encode i)) s) := by
  simp [checked, h, refuse]

/-- All a checked command can answer. -/
theorem checked_cases {i : Instr} {s : State} {body a : Answer} (h : checked i s body = a) :
    (accepts i s = true ∧ body = a) ∨
    (accepts i s = false ∧ a = .next (raiseFault .badSequence (upperHalf (encode i)) s)) := by
  cases hc : accepts i s with
  | true => exact .inl ⟨rfl, by rw [← h, checked_accepted hc]⟩
  | false => exact .inr ⟨rfl, by rw [← h, checked_refused hc]⟩

/-- All a readback can answer. -/
theorem readback_cases {i : Instr} {v : Option Word32} {s t : State} (h : readback i v s = .next t) :
    (∃ d, v = some d ∧ t = respondOk d s) ∨
    (v = none ∧ t = raiseFault .badOperand (upperHalf (encode i)) s) := by
  cases v with
  | none => exact .inr ⟨rfl, by simpa [readback, refuse] using h.symm⟩
  | some d => exact .inl ⟨d, rfl, by simpa [readback] using h.symm⟩

/-! The meanings with more than one outcome -/

/-- All FSYM and FADD can do, and they always answer a next state. -/
theorem countSymbol_cases {i : Instr} {sym : Symbol} {cnt : Word32} {s : State} {a : Answer}
    (h : countSymbol i sym cnt s = a) :
    (accepts i s = false ∧ a = .next (raiseFault .badSequence (upperHalf (encode i)) s)) ∨
    (accepts i s = true ∧ cnt = 0 ∧ a = .next (respondOk 0 s)) ∨
    (accepts i s = true ∧ cnt ≠ 0 ∧
      ((Table.lookup FmEntry.sym s.fm sym = none ∧ ¬s.k.toNat < s.kMax) ∨ fitsCounter s.total cnt.toNat = false) ∧
      a = .next (raiseFault .capacityExceeded (upperHalf (encode i)) s)) ∨
    (accepts i s = true ∧ cnt ≠ 0 ∧ Table.lookup FmEntry.sym s.fm sym = none ∧ s.k.toNat < s.kMax ∧
      fitsCounter s.total cnt.toNat = true ∧
      a = .next (respondOk 0
        { s with fm := Table.write s.fm s.k.toNat ⟨sym, cnt⟩, k := s.k + 1, total := s.total + cnt })) ∨
    (∃ slot e, accepts i s = true ∧ cnt ≠ 0 ∧ Table.lookup FmEntry.sym s.fm sym = some (slot, e) ∧
      fitsCounter s.total cnt.toNat = true ∧
      a = .next (respondOk 0
        { s with fm := Table.write s.fm slot ⟨e.sym, e.cnt + cnt⟩, total := s.total + cnt })) := by
  unfold countSymbol at h
  rcases checked_cases h with ⟨hacc, rfl⟩ | ⟨hacc, rfl⟩
  · by_cases h0 : cnt = 0
    · exact .inr (.inl ⟨hacc, h0, by simp [h0]⟩)
    · rw [if_neg h0]
      cases hl : Table.lookup FmEntry.sym s.fm sym with
      | none =>
        by_cases hk : s.k.toNat < s.kMax
        · cases hf : fitsCounter s.total cnt.toNat with
          | false => exact .inr (.inr (.inl ⟨hacc, h0, .inr rfl, by simp [hk, refuse]⟩))
          | true => exact .inr (.inr (.inr (.inl ⟨hacc, h0, rfl, hk, rfl, by simp [hk]⟩)))
        · exact .inr (.inr (.inl ⟨hacc, h0, .inl ⟨rfl, hk⟩, by simp [hk, refuse]⟩))
      | some p =>
        cases hf : fitsCounter s.total cnt.toNat with
        | false => exact .inr (.inr (.inl ⟨hacc, h0, .inr rfl, by simp [refuse]⟩))
        | true => exact .inr (.inr (.inr (.inr ⟨p.1, p.2, hacc, h0, rfl, rfl, by simp⟩)))
  · exact .inl ⟨hacc, rfl⟩

/-- All BUILD can do. -/
theorem execBuild_cases {s : State} {a : Answer} (h : execBuild s = a) :
    (accepts .build s = false ∧ a = .next (raiseFault .badSequence (upperHalf (encode .build)) s)) ∨
    (accepts .build s = true ∧ s.k = 0 ∧ a = .next (raiseFault .emptyInput 0 s)) ∨
    (∃ e es, accepts .build s = true ∧ s.k ≠ 0 ∧ readSlots s.fm 0 s.k.toNat = some (e :: es) ∧
      a = .next (respondOk 0 (installTree (buildTree s.nm e es) s))) ∨
    (accepts .build s = true ∧ s.k ≠ 0 ∧ (∀ e es, readSlots s.fm 0 s.k.toNat ≠ some (e :: es)) ∧
      a = .fault .invalidEntry) := by
  unfold execBuild at h
  rcases checked_cases h with ⟨hacc, rfl⟩ | ⟨hacc, rfl⟩
  · by_cases h0 : s.k = 0
    · exact .inr (.inl ⟨hacc, h0, by rw [if_pos h0]⟩)
    · rw [if_neg h0]
      split
      · next e es hr => exact .inr (.inr (.inl ⟨e, es, hacc, h0, hr, rfl⟩))
      · next hr => exact .inr (.inr (.inr ⟨hacc, h0, hr, rfl⟩))
  · exact .inl ⟨hacc, rfl⟩

/-- All GENTAB can do. -/
theorem execGentab_cases {s : State} {a : Answer} (h : execGentab s = a) :
    (accepts .gentab s = false ∧ a = .next (raiseFault .badSequence (upperHalf (encode .gentab)) s)) ∨
    (∃ ct, accepts .gentab s = true ∧ codeTable s = .ok ct ∧
      a = .next (respondOk 0 { s with ct := ct, phase := .ready })) ∨
    (∃ f, accepts .gentab s = true ∧ codeTable s = .error f ∧ a = .fault f) := by
  unfold execGentab at h
  rcases checked_cases h with ⟨hacc, rfl⟩ | ⟨hacc, rfl⟩
  · cases hc : codeTable s with
    | error f => exact .inr (.inr ⟨f, hacc, rfl, rfl⟩)
    | ok ct => exact .inr (.inl ⟨ct, hacc, rfl, rfl⟩)
  · exact .inl ⟨hacc, rfl⟩

/-- All ESYM can do, and it always answers a next state. -/
theorem execEsym_cases {sym : Symbol} {s : State} {a : Answer} (h : execEsym sym s = a) :
    (accepts (.esym sym) s = false ∧ a = .next (raiseFault .badSequence (upperHalf (encode (.esym sym))) s)) ∨
    (accepts (.esym sym) s = true ∧ Table.lookup CtEntry.sym s.ct sym = none ∧
      a = .next (raiseFault .unknownSymbol (sym.setWidth 32) (abortEncode s))) ∨
    (∃ i e, accepts (.esym sym) s = true ∧ Table.lookup CtEntry.sym s.ct sym = some (i, e) ∧
      fitsCounter s.encLen e.bits.length = false ∧
      a = .next (raiseFault .capacityExceeded (upperHalf (encode (.esym sym))) s)) ∨
    (∃ i e, accepts (.esym sym) s = true ∧ Table.lookup CtEntry.sym s.ct sym = some (i, e) ∧
      fitsCounter s.encLen e.bits.length = true ∧ a = .next (respondOk 0 (appendCode e.bits s))) := by
  unfold execEsym at h
  rcases checked_cases h with ⟨hacc, rfl⟩ | ⟨hacc, rfl⟩
  · cases hl : Table.lookup CtEntry.sym s.ct sym with
    | none => exact .inr (.inl ⟨hacc, rfl, rfl⟩)
    | some p =>
      cases hf : fitsCounter s.encLen p.2.bits.length with
      | false => exact .inr (.inr (.inl ⟨p.1, p.2, hacc, rfl, hf, by simp [hf, refuse]⟩))
      | true => exact .inr (.inr (.inr ⟨p.1, p.2, hacc, rfl, hf, by simp [hf]⟩))
  · exact .inl ⟨hacc, rfl⟩

/-- All DBIT can do. -/
theorem execDbit_cases {bit : Bool} {s : State} {a : Answer} (h : execDbit bit s = a) :
    (accepts (.dbit bit) s = false ∧ a = .next (raiseFault .badSequence (upperHalf (encode (.dbit bit))) s)) ∨
    (accepts (.dbit bit) s = true ∧ fitsCounter s.decBits 1 = false ∧
      a = .next (raiseFault .capacityExceeded (upperHalf (encode (.dbit bit))) s)) ∨
    (∃ f sym, accepts (.dbit bit) s = true ∧ fitsCounter s.decBits 1 = true ∧
      Table.read s.nm s.root.toNat = some (.leaf f sym) ∧ a = consumeBit (emitSymbol sym s)) ∨
    (∃ f l r g sym, accepts (.dbit bit) s = true ∧ fitsCounter s.decBits 1 = true ∧
      Table.read s.nm s.root.toNat = some (.internal f l r) ∧ Table.read s.nm s.cur.toNat = some (.leaf g sym) ∧
      a = consumeBit (descend bit l r (emitSymbol sym s))) ∨
    (∃ f l r g l' r', accepts (.dbit bit) s = true ∧ fitsCounter s.decBits 1 = true ∧
      Table.read s.nm s.root.toNat = some (.internal f l r) ∧
      Table.read s.nm s.cur.toNat = some (.internal g l' r') ∧ a = consumeBit (descend bit l' r' s)) ∨
    (accepts (.dbit bit) s = true ∧ fitsCounter s.decBits 1 = true ∧
      (Table.read s.nm s.root.toNat = none ∨ Table.read s.nm s.cur.toNat = none) ∧ a = .fault .invalidEntry) := by
  unfold execDbit at h
  rcases checked_cases h with ⟨hacc, rfl⟩ | ⟨hacc, rfl⟩
  · cases hf : fitsCounter s.decBits 1 with
    | false => exact .inr (.inl ⟨hacc, rfl, by simp [refuse]⟩)
    | true =>
      cases hr : Table.read s.nm s.root.toNat with
      | none => exact .inr (.inr (.inr (.inr (.inr ⟨hacc, rfl, .inl rfl, by simp⟩))))
      | some n =>
        cases n with
        | leaf f sym => exact .inr (.inr (.inl ⟨f, sym, hacc, rfl, rfl, by simp⟩))
        | internal f l r =>
          cases hc : Table.read s.nm s.cur.toNat with
          | none => exact .inr (.inr (.inr (.inr (.inr ⟨hacc, rfl, .inr rfl, by simp [walkBit, hc]⟩))))
          | some m =>
            cases m with
            | leaf g sym =>
              exact .inr (.inr (.inr (.inl ⟨f, l, r, g, sym, hacc, rfl, rfl, rfl, by simp [walkBit, hc]⟩)))
            | internal g l' r' =>
              exact .inr (.inr (.inr (.inr (.inl ⟨f, l, r, g, l', r', hacc, rfl, rfl, rfl, by simp [walkBit, hc]⟩))))
  · exact .inl ⟨hacc, rfl⟩

/-- All DEND can do. -/
theorem execDend_cases {s : State} {a : Answer} (h : execDend s = a) :
    (accepts .dend s = false ∧ a = .next (raiseFault .badSequence (upperHalf (encode .dend)) s)) ∨
    (∃ f sym, accepts .dend s = true ∧ Table.read s.nm s.root.toNat = some (.leaf f sym) ∧ a = endDecode s) ∨
    (∃ f l r g sym, accepts .dend s = true ∧ Table.read s.nm s.root.toNat = some (.internal f l r) ∧
      Table.read s.nm s.cur.toNat = some (.leaf g sym) ∧ a = endDecode (emitSymbol sym s)) ∨
    (∃ f l r g l' r', accepts .dend s = true ∧ Table.read s.nm s.root.toNat = some (.internal f l r) ∧
      Table.read s.nm s.cur.toNat = some (.internal g l' r') ∧
      a = .next (raiseFault .truncatedInput s.cur (abortDecode s))) ∨
    (accepts .dend s = true ∧
      (Table.read s.nm s.root.toNat = none ∨ Table.read s.nm s.cur.toNat = none) ∧ a = .fault .invalidEntry) := by
  unfold execDend at h
  rcases checked_cases h with ⟨hacc, rfl⟩ | ⟨hacc, rfl⟩
  · cases hr : Table.read s.nm s.root.toNat with
    | none => exact .inr (.inr (.inr (.inr ⟨hacc, .inl rfl, rfl⟩)))
    | some n =>
      cases n with
      | leaf f sym => exact .inr (.inl ⟨f, sym, hacc, rfl, rfl⟩)
      | internal f l r =>
        cases hc : Table.read s.nm s.cur.toNat with
        | none => exact .inr (.inr (.inr (.inr ⟨hacc, .inr rfl, rfl⟩)))
        | some m =>
          cases m with
          | leaf g sym => exact .inr (.inr (.inl ⟨f, l, r, g, sym, hacc, rfl, rfl, rfl⟩))
          | internal g l' r' => exact .inr (.inr (.inr (.inl ⟨f, l, r, g, l', r', hacc, rfl, rfl, rfl⟩)))
  · exact .inl ⟨hacc, rfl⟩

/-! One step -/

/-- All a step can be (R60, R86, R220, R230). -/
theorem step_cases (s : State) :
    (s.inp = [] ∧ step s = .next s) ∨
    (∃ rest, s.inp = .reset :: rest ∧ step s = .next (hardwareReset { s with inp := rest })) ∨
    (∃ w rest i, s.inp = .command w :: rest ∧ decode w = .ok i ∧ step s = exec i { s with inp := rest }) ∨
    (∃ w rest, s.inp = .command w :: rest ∧ (∀ i, decode w ≠ .ok i) ∧
      step s = .next (illegalCommand w { s with inp := rest })) := by
  cases hi : s.inp with
  | nil => exact .inl ⟨rfl, by simp [step, takeInput, hi]⟩
  | cons x rest =>
    cases x with
    | reset => exact .inr (.inl ⟨rest, rfl, by simp [step, takeInput, hi]⟩)
    | command w =>
      cases hd : decode w with
      | ok i => exact .inr (.inr (.inl ⟨w, rest, i, rfl, hd, by simp [step, takeInput, hi, hd]⟩))
      | unknownOpcode op => exact .inr (.inr (.inr ⟨w, rest, rfl, by simp [hd], by simp [step, takeInput, hi, hd]⟩))
      | mbzNonzero op => exact .inr (.inr (.inr ⟨w, rest, rfl, by simp [hd], by simp [step, takeInput, hi, hd]⟩))

/-- The three tables are in canonical form after reset. -/
theorem resetFor_wf (n : Nat) : Memory.wf (State.resetFor n) := by
  simp [Memory.wf, Table.wf, State.resetFor]

/-- The three tables are in canonical form after reset. -/
theorem reset_wf : Memory.wf State.reset := resetFor_wf _

end Sys2Proof.Machine
end

