-- ==== Sys2Proof/Laws/PerInstr.lean ====
section
/-! SUPPORT. Per instruction: the word of a command matches exactly one row of the opcode table, the row of its own
mnemonic (R84, R85). -/

namespace Sys2Proof.Laws

/-- The rows the word of a command matches are the one row that has its mnemonic. -/
def TableRow.Statement (i : Instr) : Prop := matchingRows (encode i) = [i.mnemonic]

/-- A symbol in operand A leaves the MBZ bits 55:53 at 0. -/
theorem symOperand_and (sym : Symbol) : symOperand sym &&& 0xE00000#24 = 0#24 := by
  ext i hi
  simp only [symOperand, BitVec.getElem_and, BitVec.getElem_setWidth]
  by_cases h : i < 21
  · have : (0xE00000#24).getLsbD i = false := by
      interval_cases i <;> decide
    simp_all
  · simp [BitVec.getLsbD_of_ge sym i (by omega)]

/-- A bit in operand B leaves the MBZ bits 31:1 at 0. -/
theorem bitOperand_and (bit : Bool) : bitOperand bit &&& 0xFFFFFFFE#32 = 0#32 := by
  cases bit <;> decide

theorem TableRow.nop : TableRow.Statement .nop := by
  simp [TableRow.Statement, encode, matchingRows, opcodeTable_eq, matchesWord_cmdWord, Format.maskA, Format.maskB, 
    Instr.mnemonic]

theorem TableRow.rst : TableRow.Statement .rst := by
  simp [TableRow.Statement, encode, matchingRows, opcodeTable_eq, matchesWord_cmdWord, Format.maskA, Format.maskB, 
    Instr.mnemonic]

theorem TableRow.eclr : TableRow.Statement .eclr := by
  simp [TableRow.Statement, encode, matchingRows, opcodeTable_eq, matchesWord_cmdWord, Format.maskA, Format.maskB, 
    Instr.mnemonic]

theorem TableRow.fsym (sym : Symbol) : TableRow.Statement (.fsym sym) := by
  simp [TableRow.Statement, encode, matchingRows, opcodeTable_eq, matchesWord_cmdWord, symOperand_and, Format.maskA, Format.maskB, 
    Instr.mnemonic]

theorem TableRow.fadd (sym : Symbol) (cnt : Word32) : TableRow.Statement (.fadd sym cnt) := by
  simp [TableRow.Statement, encode, matchingRows, opcodeTable_eq, matchesWord_cmdWord, symOperand_and, Format.maskA, Format.maskB, 
    Instr.mnemonic]

theorem TableRow.build : TableRow.Statement .build := by
  simp [TableRow.Statement, encode, matchingRows, opcodeTable_eq, matchesWord_cmdWord, Format.maskA, Format.maskB, 
    Instr.mnemonic]

theorem TableRow.gentab : TableRow.Statement .gentab := by
  simp [TableRow.Statement, encode, matchingRows, opcodeTable_eq, matchesWord_cmdWord, Format.maskA, Format.maskB, 
    Instr.mnemonic]

theorem TableRow.ebeg : TableRow.Statement .ebeg := by
  simp [TableRow.Statement, encode, matchingRows, opcodeTable_eq, matchesWord_cmdWord, Format.maskA, Format.maskB, 
    Instr.mnemonic]

theorem TableRow.esym (sym : Symbol) : TableRow.Statement (.esym sym) := by
  simp [TableRow.Statement, encode, matchingRows, opcodeTable_eq, matchesWord_cmdWord, symOperand_and, Format.maskA, Format.maskB, 
    Instr.mnemonic]

theorem TableRow.eend : TableRow.Statement .eend := by
  simp [TableRow.Statement, encode, matchingRows, opcodeTable_eq, matchesWord_cmdWord, Format.maskA, Format.maskB, 
    Instr.mnemonic]

theorem TableRow.dbeg : TableRow.Statement .dbeg := by
  simp [TableRow.Statement, encode, matchingRows, opcodeTable_eq, matchesWord_cmdWord, Format.maskA, Format.maskB, 
    Instr.mnemonic]

theorem TableRow.dbit (bit : Bool) : TableRow.Statement (.dbit bit) := by
  simp [TableRow.Statement, encode, matchingRows, opcodeTable_eq, matchesWord_cmdWord, bitOperand_and, Format.maskA, Format.maskB, 
    Instr.mnemonic]

theorem TableRow.dend : TableRow.Statement .dend := by
  simp [TableRow.Statement, encode, matchingRows, opcodeTable_eq, matchesWord_cmdWord, Format.maskA, Format.maskB, 
    Instr.mnemonic]

theorem TableRow.rdr (regno : Word32) : TableRow.Statement (.rdr regno) := by
  simp [TableRow.Statement, encode, matchingRows, opcodeTable_eq, matchesWord_cmdWord, Format.maskA, Format.maskB, 
    Instr.mnemonic]

theorem TableRow.rdf (idx : Index24) (sel : Word32) : TableRow.Statement (.rdf idx sel) := by
  simp [TableRow.Statement, encode, matchingRows, opcodeTable_eq, matchesWord_cmdWord, Format.maskA, Format.maskB, 
    Instr.mnemonic]

theorem TableRow.rdn (idx : Index24) (sel : Word32) : TableRow.Statement (.rdn idx sel) := by
  simp [TableRow.Statement, encode, matchingRows, opcodeTable_eq, matchesWord_cmdWord, Format.maskA, Format.maskB, 
    Instr.mnemonic]

theorem TableRow.rdc (idx : Index24) (sel : Word32) : TableRow.Statement (.rdc idx sel) := by
  simp [TableRow.Statement, encode, matchingRows, opcodeTable_eq, matchesWord_cmdWord, Format.maskA, Format.maskB, 
    Instr.mnemonic]

end Sys2Proof.Laws
end

