-- ==== Sys2Proof/Laws/Runs.lean ====
section
/-! SUPPORT. The laws of the terms of Safety: sequences of commands, paths in the tree, the open frames of the streams. -/

namespace Sys2Proof.Machine

@[simp] theorem execAll_nil (s : State) : execAll [] s = .next s := rfl

/-- A sequence goes on from the next state of its first command. -/
theorem execAll_cons_next {i : Instr} {is : List Instr} {s t : State} (h : exec i s = .next t) :
    execAll (i :: is) s = execAll is t := by
  simp [execAll, h]

/-- A sequence of two parts goes on from the next state of the first part. -/
theorem execAll_append_next {is js : List Instr} {s t : State} (h : execAll is s = .next t) :
    execAll (is ++ js) s = execAll js t := by
  induction is generalizing s with
  | nil => cases h; rfl
  | cons i is ih =>
    rw [execAll] at h
    rw [List.cons_append, execAll]
    cases hi : exec i s with
    | next u => rw [hi] at h; exact ih h
    | fault f => rw [hi] at h; cases h
    | refused r => rw [hi] at h; cases h

/-- A path of two parts goes on from where the first part leads. -/
theorem followPath_append {nm : Table Node} {n m : Nat} {p q : List Bool} (h : followPath nm n p = some m) :
    followPath nm n (p ++ q) = followPath nm m q := by
  induction p generalizing n with
  | nil => cases h; rfl
  | cons b bs ih =>
    rw [followPath] at h
    rw [List.cons_append, followPath]
    split at h
    · next f l r hn => exact ih h
    · cases h

/-- A leaf has no path but the empty one. -/
theorem followPath_leaf {nm : Table Node} {n m : Nat} {f : Word32} {sym : Symbol} {p : List Bool}
    (hn : Table.read nm n = some (.leaf f sym)) (h : followPath nm n p = some m) : p = [] := by
  cases p with
  | nil => rfl
  | cons b bs => rw [followPath, hn] at h; cases h

/-- The open bits of a longer stream. -/
theorem openBits_append (bo items : List BoItem) : openBits (bo ++ items) = items.foldl openBitsStep (openBits bo) := by
  simp [openBits]

/-- BIT items lengthen the open frame. -/
theorem openBits_append_bits (bo : List BoItem) (bits : List Bool) :
    openBits (bo ++ bits.map BoItem.bit) = openBits bo ++ bits := by
  rw [openBits_append]
  generalize openBits bo = acc
  induction bits generalizing acc with
  | nil => simp
  | cons b bs ih => simp [openBitsStep, ih]

/-- END closes the frame. -/
@[simp] theorem openBits_append_end (bo : List BoItem) : openBits (bo ++ [.endFrame]) = [] := by
  simp [openBits_append, openBitsStep]

/-- ABORT closes the frame. -/
@[simp] theorem openBits_append_abort (bo : List BoItem) : openBits (bo ++ [.abort]) = [] := by
  simp [openBits_append, openBitsStep]

/-- The open symbols of a longer stream. -/
theorem openSyms_append (so items : List SoItem) : openSyms (so ++ items) = items.foldl openSymsStep (openSyms so) := by
  simp [openSyms]

/-- A SYM item lengthens the open frame. -/
@[simp] theorem openSyms_append_sym (so : List SoItem) (a : Symbol) : openSyms (so ++ [.sym a]) = openSyms so ++ [a] := by
  simp [openSyms_append, openSymsStep]

/-- END closes the frame. -/
@[simp] theorem openSyms_append_end (so : List SoItem) : openSyms (so ++ [.endFrame]) = [] := by
  simp [openSyms_append, openSymsStep]

/-- ABORT closes the frame. -/
@[simp] theorem openSyms_append_abort (so : List SoItem) : openSyms (so ++ [.abort]) = [] := by
  simp [openSyms_append, openSymsStep]

end Sys2Proof.Machine
end

