-- ==== Sys2Proof/Machine/Assembler.lean ====
section
/-! DEFINITION. The textual form of a command (R89): one command a line, the mnemonic in capitals, operands separated by
commas, a comment from `;` on; the pseudo-commands FTEXT, ETEXT and DBITS. It belongs to the host's side of the command
port: the block sees command words only (R65). -/

namespace Sys2Proof.Machine

/-- What a line of assembler text is made of. -/
inductive AsmToken where
  /-- A run of characters that are no blank, comma, quote or comment: a mnemonic, a name or a number. -/
  | word (cs : List Char)
  /-- A comma. -/
  | comma
  /-- A character in single quotes. -/
  | quoted (c : Char)
  /-- A string in double quotes. -/
  | text (cs : List Char)
  deriving DecidableEq, Repr

/-- The pending word as a token, if there is one; `acc` holds it last character first. -/
def flushWord (acc : List Char) : List AsmToken := if acc.isEmpty then [] else [.word acc.reverse]

/-- The tokens of a line. `str` holds the string in double quotes being read, if any, and `acc` the word being read, both
last character first; `none` where a string is left open. 34 is the double quote, 39 the single quote. -/
def lexLine : Option (List Char) → List Char → List Char → Option (List AsmToken)
  | some _, _, [] => none
  | none, acc, [] => some (flushWord acc)
  | some str, acc, c :: cs =>
    if c.toNat = 34 then (lexLine none acc cs).map (fun ts => .text str.reverse :: ts)
    else lexLine (some (c :: str)) acc cs
  | none, acc, [c] =>
    if c = ';' then some (flushWord acc)
    else if c = ' ' ∨ c = '\t' then some (flushWord acc)
    else if c = ',' then some (flushWord acc ++ [.comma])
    else if c.toNat = 34 ∨ c.toNat = 39 then none
    else some (flushWord (c :: acc))
  | none, acc, [c, d] =>
    if c = ';' then some (flushWord acc)
    else if c = ' ' ∨ c = '\t' then (lexLine none [] [d]).map (fun ts => flushWord acc ++ ts)
    else if c = ',' then (lexLine none [] [d]).map (fun ts => flushWord acc ++ .comma :: ts)
    else if c.toNat = 34 then (lexLine (some []) [] [d]).map (fun ts => flushWord acc ++ ts)
    else if c.toNat = 39 then none
    else lexLine none (c :: acc) [d]
  | none, acc, c :: d :: e :: cs =>
    if c = ';' then some (flushWord acc)
    else if c = ' ' ∨ c = '\t' then (lexLine none [] (d :: e :: cs)).map (fun ts => flushWord acc ++ ts)
    else if c = ',' then (lexLine none [] (d :: e :: cs)).map (fun ts => flushWord acc ++ .comma :: ts)
    else if c.toNat = 34 then (lexLine (some []) [] (d :: e :: cs)).map (fun ts => flushWord acc ++ ts)
    else if c.toNat = 39 then
      if e.toNat = 39 then (lexLine none [] cs).map (fun ts => flushWord acc ++ .quoted d :: ts) else none
    else lexLine none (c :: acc) (d :: e :: cs)

/-- The value of a digit in base 16, capitals or not. -/
def digitValue (c : Char) : Option Nat :=
  if '0' ≤ c ∧ c ≤ '9' then some (c.toNat - 48)
  else if 'A' ≤ c ∧ c ≤ 'F' then some (c.toNat - 55)
  else if 'a' ≤ c ∧ c ≤ 'f' then some (c.toNat - 87)
  else none

/-- The number whose digits in a base are given, continuing from `v`; `none` where a character is no digit. -/
def digitsFrom (base : Nat) : Nat → List Char → Option Nat
  | v, [] => some v
  | v, c :: cs =>
    match digitValue c with
    | none => none
    | some d => if d < base then digitsFrom base (v * base + d) cs else none

/-- The number with at least one digit in a base. -/
def digits (base : Nat) (cs : List Char) : Option Nat := if cs.isEmpty then none else digitsFrom base 0 cs

/-- A decimal number, or a hexadecimal one after `0x`; an underscore inside a literal only groups digits (R6, R89). -/
def parseNumber (cs : List Char) : Option Nat :=
  match cs.filter (· != '_') with
  | '0' :: 'x' :: hex => digits 16 hex
  | dec => digits 10 dec

/-- A symbol operand (R89): a character in single quotes, `U+` and hexadecimal digits, or a number. -/
def parseSymbol : AsmToken → Option Nat
  | .quoted c => some c.toNat
  | .word ('U' :: '+' :: hex) => digits 16 hex
  | .word cs => parseNumber cs
  | .comma => none
  | .text _ => none

/-- A number operand, or one of the names given, which stand for 0, 1, 2, ... (R89). -/
def parseNamed (names : List (List Char)) : AsmToken → Option Nat
  | .word cs => if names.idxOf cs < names.length then some (names.idxOf cs) else parseNumber cs
  | .quoted _ => none
  | .comma => none
  | .text _ => none

/-- The register names, by register number (R43). -/
def registerNames : List (List Char) :=
  [['I', 'D'], ['S', 'T', 'A', 'T', 'U', 'S'], ['E', 'R', 'R'], ['E', 'L', 'A', 'S', 'T'], ['E', 'I', 'N', 'F', 'O'],
   ['K'], ['T', 'O', 'T', 'A', 'L'], ['N', 'N'], ['R', 'O', 'O', 'T'], ['C', 'U', 'R'],
   ['E', 'N', 'C', '_', 'L', 'E', 'N'], ['E', 'N', 'C', '_', 'C', 'N', 'T'],
   ['E', 'N', 'C', '_', 'B', 'Y', 'T', 'E', 'S'], ['D', 'E', 'C', '_', 'B', 'I', 'T', 'S'],
   ['D', 'E', 'C', '_', 'C', 'N', 'T'], ['K', 'M', 'A', 'X']]

/-- The selector names of RDF (R69). -/
def fmSelectors : List (List Char) := [['I', 'N', 'F', 'O'], ['S', 'Y', 'M'], ['C', 'N', 'T']]

/-- The selector names of RDN (R69). -/
def nmSelectors : List (List Char) :=
  [['I', 'N', 'F', 'O'], ['F', 'R', 'E', 'Q'], ['S', 'Y', 'M'], ['L', 'E', 'F', 'T'], ['R', 'I', 'G', 'H', 'T']]

/-- The selector names of RDC (R69). -/
def ctSelectors : List (List Char) := [['I', 'N', 'F', 'O'], ['S', 'Y', 'M'], ['L', 'E', 'N']]

/-- A value that fits its operand's width (R83), as that operand. -/
def fitOperand (w : Nat) (v : Option Nat) : Option (BitVec w) :=
  match v with
  | none => none
  | some n => if n < 2 ^ w then some (BitVec.ofNat w n) else none

/-- A command with one operand, from its parsed operand. -/
def one {α : Type} (f : α → Instr) (x : Option α) : Option (List Instr) := x.map (fun v => [f v])

/-- A command with two operands, from its parsed operands. -/
def two {α β : Type} (f : α → β → Instr) (x : Option α) (y : Option β) : Option (List Instr) :=
  match x, y with
  | some v, some w => some [f v w]
  | _, _ => none

/-- The symbols of a string's characters (R89). -/
def textSymbols (cs : List Char) : List Symbol := cs.map (fun c => BitVec.ofNat 21 c.toNat)

/-- The bits of a string of `0`s and `1`s; `none` where a character is neither (R89). -/
def textBits : List Char → Option (List Bool)
  | [] => some []
  | c :: cs =>
    match textBits cs with
    | none => none
    | some bs => if c = '0' then some (false :: bs) else if c = '1' then some (true :: bs) else none

/-- The bit operand of DBIT (R89): 0 or 1. -/
def parseBit (t : AsmToken) : Option Bool :=
  match parseNamed [] t with
  | some 0 => some false
  | some 1 => some true
  | _ => none

/-- The commands of a line's tokens (R89): none for an empty line, several for a pseudo-command; `none` where the line is
no command. -/
def asmTokens : List AsmToken → Option (List Instr)
  | [] => some []
  | [.word ['N', 'O', 'P']] => some [.nop]
  | [.word ['R', 'S', 'T']] => some [.rst]
  | [.word ['E', 'C', 'L', 'R']] => some [.eclr]
  | [.word ['B', 'U', 'I', 'L', 'D']] => some [.build]
  | [.word ['G', 'E', 'N', 'T', 'A', 'B']] => some [.gentab]
  | [.word ['E', 'B', 'E', 'G']] => some [.ebeg]
  | [.word ['E', 'E', 'N', 'D']] => some [.eend]
  | [.word ['D', 'B', 'E', 'G']] => some [.dbeg]
  | [.word ['D', 'E', 'N', 'D']] => some [.dend]
  | [.word ['F', 'S', 'Y', 'M'], x] => one .fsym (fitOperand 21 (parseSymbol x))
  | [.word ['E', 'S', 'Y', 'M'], x] => one .esym (fitOperand 21 (parseSymbol x))
  | [.word ['F', 'A', 'D', 'D'], x, .comma, y] =>
    two .fadd (fitOperand 21 (parseSymbol x)) (fitOperand 32 (parseNamed [] y))
  | [.word ['D', 'B', 'I', 'T'], x] => one .dbit (parseBit x)
  | [.word ['R', 'D', 'R'], x] => one .rdr (fitOperand 32 (parseNamed registerNames x))
  | [.word ['R', 'D', 'F'], x, .comma, y] =>
    two .rdf (fitOperand 24 (parseNamed [] x)) (fitOperand 32 (parseNamed fmSelectors y))
  | [.word ['R', 'D', 'N'], x, .comma, y] =>
    two .rdn (fitOperand 24 (parseNamed [] x)) (fitOperand 32 (parseNamed nmSelectors y))
  | [.word ['R', 'D', 'C'], x, .comma, y] =>
    two .rdc (fitOperand 24 (parseNamed [] x)) (fitOperand 32 (parseNamed ctSelectors y))
  | [.word ['F', 'T', 'E', 'X', 'T'], .text cs] => some (Instr.ftext (textSymbols cs))
  | [.word ['E', 'T', 'E', 'X', 'T'], .text cs] => some (Instr.etext (textSymbols cs))
  | [.word ['D', 'B', 'I', 'T', 'S'], .text cs] => (textBits cs).map Instr.dbits
  | _ => none

/-- The commands of one line of assembler text (R89). -/
def assemble (line : List Char) : Option (List Instr) :=
  match lexLine none [] line with
  | none => none
  | some ts => asmTokens ts

end Sys2Proof.Machine
end

