-- ==== Sys2Proof/Tests/Slice0.lean ====
section
/-! SUPPORT. Tests of the model: ill-formed words, words written out from the spec's encodings, one-step vectors of
95_test_vectors.md, and a witness for every statement with hypotheses. -/

namespace Sys2Proof.Tests

open Sys2Proof Sys2Proof.Machine

/-! ## Ill-formed words (R82, R86; V36): each MBZ check and the opcode check refuses one -/

theorem test_illformed_n_operandB : wellFormedWord 0x0000000000000001 = false := by decide
theorem test_illformed_n_operandA : wellFormedWord 0x0100000100000000 = false := by decide
theorem test_illformed_s_bit53 : wellFormedWord 0x1020006100000000 = false := by decide
theorem test_illformed_s_operandB : wellFormedWord 0x1000006100000001 = false := by decide
theorem test_illformed_sc_bit53 : wellFormedWord 0x1120006100000005 = false := by decide
theorem test_illformed_b_bit1 : wellFormedWord 0x4100000000000002 = false := by decide
theorem test_illformed_b_operandA : wellFormedWord 0x4100000100000000 = false := by decide
theorem test_illformed_r_operandA : wellFormedWord 0x5000000100000000 = false := by decide
theorem test_illformed_opcode : wellFormedWord 0x0300000000000000 = false ∧ wellFormedWord 0x5400000000000000 = false := by
  decide
theorem test_wellformed_x : wellFormedWord 0x51FFFFFFFFFFFFFF = true := by decide

/-! ## Decoding words written out from R84, one for each constructor (V10 to V35) -/

theorem test_decode_nop : decode 0x0000000000000000 = .ok .nop := by decide
theorem test_decode_rst : decode 0x0100000000000000 = .ok .rst := by decide
theorem test_decode_eclr : decode 0x0200000000000000 = .ok .eclr := by decide
theorem test_decode_fsym : decode 0x101FFFFF00000000 = .ok (.fsym 0x1FFFFF) := by decide
theorem test_decode_fadd : decode 0x11000061FFFFFFFE = .ok (.fadd 0x61 0xFFFFFFFE) := by decide
theorem test_decode_build : decode 0x2000000000000000 = .ok .build := by decide
theorem test_decode_gentab : decode 0x2100000000000000 = .ok .gentab := by decide
theorem test_decode_ebeg : decode 0x3000000000000000 = .ok .ebeg := by decide
theorem test_decode_esym : decode 0x3100007A00000000 = .ok (.esym 0x7A) := by decide
theorem test_decode_eend : decode 0x3200000000000000 = .ok .eend := by decide
theorem test_decode_dbeg : decode 0x4000000000000000 = .ok .dbeg := by decide
theorem test_decode_dbit : decode 0x4100000000000001 = .ok (.dbit true) ∧ decode 0x4100000000000000 = .ok (.dbit false) := by
  decide
theorem test_decode_dend : decode 0x4200000000000000 = .ok .dend := by decide
theorem test_decode_rdr : decode 0x500000000000000A = .ok (.rdr 10) := by decide
theorem test_decode_rdf : decode 0x5100000100000002 = .ok (.rdf 1 2) := by decide
theorem test_decode_rdn : decode 0x5200000300000001 = .ok (.rdn 3 1) := by decide
theorem test_decode_rdc : decode 0x5300000200000003 = .ok (.rdc 2 3) := by decide
theorem test_decode_rejects : decode 0x3200000000000001 = .mbzNonzero 0x32 ∧ decode 0x0300000000000000 = .unknownOpcode 0x03 := by
  decide
theorem test_decodeTableWord : decodeTableWord 64 0x5200000300000001 = some (.rdn 3 1) ∧ decodeTableWord 64 1 = none := by
  decide

/-! ## Assembler text (R89) -/

theorem test_assemble_fadd : assemble ['F', 'A', 'D', 'D', ' ', Char.ofNat 39, 'a', Char.ofNat 39, ',', ' ', '3'] =
    some [.fadd 0x61 3] := by decide
theorem test_assemble_rdn : assemble ['R', 'D', 'N', ' ', '3', ',', ' ', 'F', 'R', 'E', 'Q', ' ', ';', ' ', 'x'] =
    some [.rdn 3 1] := by decide

/-! ## States of the vectors -/

/-- The next state of an answer. -/
def nextOf : Answer → Option State
  | .next t => some t
  | .fault _ => none
  | .refused _ => none

/-- A field of the next state of an answer. -/
def after {α : Type} (a : Answer) (f : State → α) : Option α := (nextOf a).map f

/-- The response a command answers. -/
def answered (i : Instr) (s : State) : Option (Option RspWord) := after (exec i s) (fun t => t.rsps.getLast?)

/-- A state in COLLECT with the map given, counts summing to `total`. -/
def mapState (fm : Table FmEntry) (k total : Word32) : State := { State.resetFor 8 with fm := fm, k := k, total := total }

/-- V1: the map of `aaabbc`. -/
def mapAbc : State := mapState [(0, ⟨0x61, 3⟩), (1, ⟨0x62, 2⟩), (2, ⟨0x63, 1⟩)] 3 6

/-- V1: the tree of `aaabbc`. -/
def builtAbc : State :=
  { mapAbc with
    phase := .built
    nn := 5
    root := 4
    nm := [(0, .leaf 3 0x61), (1, .leaf 2 0x62), (2, .leaf 1 0x63), (3, .internal 3 2 1), (4, .internal 6 0 3)] }

/-- V1: the code table of `aaabbc`. -/
def readyAbc : State :=
  { builtAbc with
    phase := .ready
    ct := [(0, ⟨0x61, [false]⟩), (1, ⟨0x62, [true, true]⟩), (2, ⟨0x63, [true, false]⟩)] }

/-- The map of a text with one symbol, `a`. -/
def mapOne : State := mapState [(0, ⟨0x61, 4⟩)] 1 4

/-- V2: the tree of `aaaa`. -/
def builtOne : State := { mapOne with phase := .built, nn := 1, root := 0, nm := [(0, .leaf 4 0x61)] }

/-- V2: the code table of `aaaa`. -/
def readyOne : State := { builtOne with phase := .ready, ct := [(0, ⟨0x61, [false]⟩)] }

/-- The map of `ab`. -/
def mapTwo : State := mapState [(0, ⟨0x61, 1⟩), (1, ⟨0x62, 1⟩)] 2 2

/-- The tree of `ab` (V25, V29, V33). -/
def builtTwo : State :=
  { mapTwo with phase := .built, nn := 3, root := 2, nm := [(0, .leaf 1 0x61), (1, .leaf 1 0x62), (2, .internal 2 0 1)] }

/-- The code table of `ab`. -/
def readyTwo : State := { builtTwo with phase := .ready, ct := [(0, ⟨0x61, [false]⟩), (1, ⟨0x62, [true]⟩)] }

/-! ## One-step vectors -/

/-- V35. -/
theorem test_nop : exec .nop readyTwo = .next { readyTwo with out := [.rsp 0] } := by rfl
/-- V33, P5: BO.ABORT before SO.ABORT before the response, and the phase and the tables cleared. -/
theorem test_rst_open_frames :
    after (exec .rst { readyTwo with encAct := true, decAct := true }) (fun t => (t.out, t.phase, t.k, t.nm)) =
      some ([.bo .abort, .so .abort, .rsp 0], .collect, 0, []) := by decide
/-- V34. -/
theorem test_eclr : after (exec .eclr { readyAbc with err := 4, eLast := 2, eInfo := 0x7A })
    (fun t => (t.err, t.eLast, t.eInfo, statusWord t)) = some (0, 0, 0, 2) := by decide
/-- V10: the fifth and the sixth FSYM of `aaabbc`. -/
theorem test_fsym : after (exec (.fsym 0x62) (mapState [(0, ⟨0x61, 3⟩), (1, ⟨0x62, 1⟩)] 2 4)) (fun t => (t.fm, t.k, t.total)) =
    some ([(0, ⟨0x61, 3⟩), (1, ⟨0x62, 2⟩)], 2, 5) ∧
    after (exec (.fsym 0x63) (mapState [(0, ⟨0x61, 3⟩), (1, ⟨0x62, 2⟩)] 2 5)) (fun t => (t.fm, t.k, t.total)) =
    some ([(0, ⟨0x61, 3⟩), (1, ⟨0x62, 2⟩), (2, ⟨0x63, 1⟩)], 3, 6) := by decide
/-- V14: the map full, K_MAX = 2; V13: the total full. -/
theorem test_fsym_full : answered (.fsym 0x63) { mapTwo with kMax := 2 } = some (some 0x0600000010000063) ∧
    answered (.fsym 0x63) (mapState [(0, ⟨0x61, 0xFFFFFFFE⟩), (1, ⟨0x62, 1⟩)] 2 0xFFFFFFFF) =
      some (some 0x0600000010000063) := by decide
/-- V13, boundary: 2 does not fit, 1 does. -/
theorem test_fadd_boundary : answered (.fadd 0x62 2) (mapState [(0, ⟨0x61, 0xFFFFFFFE⟩)] 1 0xFFFFFFFE) =
      some (some 0x0600000011000062) ∧
    after (exec (.fadd 0x62 1) (mapState [(0, ⟨0x61, 0xFFFFFFFE⟩)] 1 0xFFFFFFFE)) (fun t => (t.k, t.total)) =
      some (2, 0xFFFFFFFF) := by decide
/-- V15: the phase check precedes the zero-count check; V11: a zero count makes no entry. -/
theorem test_fadd_zero : answered (.fadd 0x61 0) builtOne = some (some 0x0500000011000061) ∧
    after (exec (.fadd 0x61 0) (State.resetFor 8)) (fun t => (t.fm, t.k, t.rsps)) = some ([], 0, [0]) := by decide
/-- V1 (tree part). -/
theorem test_build_v1 : after (exec .build mapAbc) (fun t => (t.nm, t.nn, t.root, statusWord t)) =
    some (builtAbc.nm, 5, 4, 1) := by decide
/-- V19: frequencies compare as unsigned numbers; V3: the empty map. -/
theorem test_build_unsigned : after (exec .build (mapState [(0, ⟨0x61, 0x7FFFFFFF⟩), (1, ⟨0x62, 0x7FFFFFFF⟩), (2, ⟨0x63, 1⟩)]
      3 0xFFFFFFFF)) (fun t => (Table.read t.nm 3, Table.read t.nm 4)) =
      some (some (.internal 0x80000000 2 0), some (.internal 0xFFFFFFFF 1 3)) ∧
    after (exec .build (State.resetFor 8)) (fun t => (t.rsps, statusWord t, t.err)) = some ([0x0100000000000000], 0x20, 2) := by
  decide
/-- V1 (table part). -/
theorem test_gentab_v1 : after (exec .gentab builtAbc) (fun t => (t.ct, t.phase)) = some (readyAbc.ct, .ready) := by decide
/-- V2 (table part): the single symbol gets the code `0`. -/
theorem test_gentab_single : after (exec .gentab builtOne) (fun t => (t.ct, statusWord t)) =
    some ([(0, ⟨0x61, [false]⟩)], 0x12) := by decide
/-- V24: EBEG in BUILT, and with a frame open. -/
theorem test_ebeg_refused : answered .ebeg builtTwo = some (some 0x0500000030000000) ∧
    answered .ebeg { readyTwo with encAct := true } = some (some 0x0500000030000000) := by decide
/-- R140: the counters are cleared. -/
theorem test_ebeg : after (exec .ebeg { readyTwo with encLen := 7, encCnt := 3 }) (fun t => (t.encAct, t.encLen, t.encCnt)) =
    some (true, 0, 0) := by decide
/-- V1 (encode part), the fourth ESYM. -/
theorem test_esym : after (exec (.esym 0x62) { readyAbc with encAct := true, encLen := 3, encCnt := 3 })
    (fun t => (t.out, t.encLen, t.encCnt)) = some ([.bo (.bit true), .bo (.bit true), .rsp 0], 5, 4) := by decide
/-- V25, boundary: with a full counter a known symbol is refused, an unknown one kills the frame. -/
theorem test_esym_full : answered (.esym 0x61) { readyTwo with encAct := true, encLen := 0xFFFFFFFF, encCnt := 5 } =
      some (some 0x0600000031000061) ∧
    after (exec (.esym 0x7A) { readyTwo with encAct := true, encLen := 0xFFFFFFFF, encCnt := 5 })
      (fun t => (t.out, t.encAct, t.encLen, t.encCnt)) =
      some ([.bo .abort, .rsp 0x020000000000007A], false, 0, 0) := by decide
/-- V1 (encode part): EEND, and ENC_BYTES after it; V24: EEND with no frame open. -/
theorem test_eend : after (exec .eend { readyAbc with encAct := true, encLen := 9, encCnt := 6 })
      (fun t => (t.out, t.encAct, t.encLen, encBytes t)) = some ([.bo .endFrame, .rsp 0], false, 9, 2) ∧
    answered .eend readyAbc = some (some 0x0500000032000000) := by decide
/-- V1 (decode part): DBEG; V28: from reset and with a frame open it is refused. -/
theorem test_dbeg : after (exec .dbeg builtAbc) (fun t => (t.decAct, t.cur)) = some (true, 4) ∧
    answered .dbeg (State.resetFor 8) = some (some 0x0500000040000000) ∧
    answered .dbeg { builtAbc with decAct := true } = some (some 0x0500000040000000) := by decide
/-- V1 (decode part), the fourth DBIT: at leaf `a`, bit 1 emits it, restarts and descends right. -/
theorem test_dbit_restart : after (exec (.dbit true) { readyAbc with decAct := true, cur := 0, decBits := 3, decCnt := 2 })
    (fun t => (t.out, t.cur, t.decBits, t.decCnt)) = some ([.so (.sym 0x61), .rsp 0], 3, 4, 3) := by decide
/-- V29: the bit counter full; V27: on a single-symbol tree the bit's value is ignored. -/
theorem test_dbit_full : answered (.dbit true) { readyTwo with decAct := true, cur := 2, decBits := 0xFFFFFFFF } =
      some (some 0x0600000041000000) ∧
    after (exec (.dbit true) { readyOne with decAct := true }) (fun t => (t.out, t.cur, t.decCnt)) =
      some ([.so (.sym 0x61), .rsp 0], 0, 1) := by decide
/-- V1 (decode part): DEND at leaf `c`. -/
theorem test_dend : after (exec .dend { readyAbc with decAct := true, cur := 2, decBits := 9, decCnt := 5 })
    (fun t => (t.out, t.decAct, t.decCnt)) = some ([.so (.sym 0x63), .so .endFrame, .rsp 0], false, 6) := by decide
/-- V7, P3: TruncatedInput at node 3. -/
theorem test_dend_truncated : after (exec .dend { readyAbc with decAct := true, cur := 3, decBits := 1 })
    (fun t => (t.out, t.decAct, t.decBits, t.cur, t.err, t.eInfo)) =
      some ([.so .abort, .rsp 0x0300000000000003], false, 0, 3, 8, 3) := by decide
/-- V33: STATUS with both frames open; P1: ENC_LEN. -/
theorem test_rdr : answered (.rdr 1) { readyTwo with encAct := true, decAct := true } = some (some 0xE) ∧
    answered (.rdr 10) { readyAbc with encLen := 9 } = some (some 9) := by decide
/-- V30, V31, V14: ID, KMAX, and the first register number that does not exist. -/
theorem test_rdr_bounds : answered (.rdr 0) readyTwo = some (some 0x48554631) ∧ answered (.rdr 15) readyTwo = some (some 8) ∧
    answered (.rdr 16) readyTwo = some (some 0x0700000050000000) := by decide
/-- V10. -/
theorem test_rdf : answered (.rdf 1 2) mapAbc = some (some 2) ∧ answered (.rdf 2 1) mapAbc = some (some 0x63) ∧
    answered (.rdf 3 0) mapAbc = some (some 0) ∧ answered (.rdf 3 1) mapAbc = some (some 0x0700000051000003) := by decide
/-- V14, boundary: K_MAX = 2. -/
theorem test_rdf_bounds : answered (.rdf 2 0) { mapTwo with kMax := 2 } = some (some 0x0700000051000002) ∧
    answered (.rdf 1 3) { mapTwo with kMax := 2 } = some (some 0x0700000051000001) := by decide
/-- 45_system_commands.md R180's example, V32's forms. -/
theorem test_rdn : answered (.rdn 3 3) readyAbc = some (some 2) ∧ answered (.rdn 3 2) readyAbc = some (some 0x0700000052000003) ∧
    answered (.rdn 0 3) readyAbc = some (some 0x0700000052000000) ∧ answered (.rdn 4 1) readyAbc = some (some 6) ∧
    answered (.rdn 3 0) readyAbc = some (some 3) := by decide
/-- V14, boundary: N_MAX = 3. -/
theorem test_rdn_bounds : answered (.rdn 2 0) { mapTwo with kMax := 2 } = some (some 0) ∧
    answered (.rdn 3 0) { mapTwo with kMax := 2 } = some (some 0x0700000052000003) := by decide
/-- V1 (table part): codes read back, and the first word that does not exist. -/
theorem test_rdc : answered (.rdc 1 3) readyAbc = some (some 0xC0000000) ∧ answered (.rdc 2 3) readyAbc = some (some 0x80000000) ∧
    answered (.rdc 2 4) readyAbc = some (some 0x0700000053000002) ∧ answered (.rdc 0 2) readyAbc = some (some 1) := by decide
/-- A code of 33 bits: its second word holds element 32 in bit 31 (R64). -/
theorem test_rdc_second_word : answered (.rdc 0 4) { readyOne with ct := [(0, ⟨0x61, List.replicate 33 true⟩)] } =
    some (some 0x80000000) := by decide
/-- V26. -/
theorem test_pack : pack [false, false, false, true, true, true, true, true, false] = [0x1F, 0x00] ∧
    pack [true, false, true, true, false] = [0xB0] ∧ pack [] = [] := by decide
/-- V1: items on their ports. -/
theorem test_ports : boPort .endFrame = 0b10 ∧ boPort (.bit true) = 0b01 ∧ soPort (.sym 0x63) = 0x63 ∧
    soPort .endFrame = 0x400000 ∧ soPort .abort = 0x600000 := by decide
/-- V37: IllegalCommand comes before BadSequence, and the machine goes on. -/
theorem test_step_illegal : after (step ((State.resetFor 8).withFetchWord 64 0x3200000000000001)) (fun t => (t.rsps, t.err, t.inp)) =
    some ([0x0400000032000000], 0x10, []) := by decide
/-- R230: a reset pulse in the middle of a session. -/
theorem test_step_reset : after (step { readyTwo with inp := [.reset, .command 0], out := [.bo (.bit true)] })
    (fun t => (t.phase, t.out, t.inp, t.kMax)) = some (.collect, [], [.command 0], 8) := by decide
/-- From reset, whatever the capacity, the word put on the port is executed by the very next step. -/
theorem test_step_from_reset : after (step (State.reset.withFetchWord 64 0x0000000000000000)) (fun t => (t.rsps, t.inp)) =
    some ([0], []) := by decide

end Sys2Proof.Tests
end

