-- ==== Sys2Proof/Tests/Witnesses.lean ====
section
/-! SUPPORT. For every statement with hypotheses, a concrete state and operands that meet them all together; for a
statement of several clauses, one for each clause, at a boundary of its range. -/

namespace Sys2Proof.Tests

open Sys2Proof Sys2Proof.Machine

/-! ## States that meet the invariant: the session of the text `ab` (K = 2) and of the text `aaaa` (K = 1) -/

theorem mapInv_two (s : State) (hm : s.kMax = 8) (hk : s.k = 2) (hf : s.fm = mapTwo.fm) (ht : s.total = 2) : MapInv s where
  legal := by rw [hm]; decide
  room := by rw [hm, hk]; decide
  keys := by rw [hf, hk]; decide
  distinct := by rw [hf]; decide
  counted := by
    intro i e h
    rw [hf] at h
    have := Table.mem_of_read h
    simp only [mapTwo, mapState, List.mem_cons, Prod.mk.injEq, List.not_mem_nil, or_false] at this
    rcases this with ⟨_, rfl⟩ | ⟨_, rfl⟩ <;> decide
  total := by rw [hf, ht]; decide

theorem mapInv_one (s : State) (hm : s.kMax = 8) (hk : s.k = 1) (hf : s.fm = mapOne.fm) (ht : s.total = 4) : MapInv s where
  legal := by rw [hm]; decide
  room := by rw [hm, hk]; decide
  keys := by rw [hf, hk]; decide
  distinct := by rw [hf]; decide
  counted := by
    intro i e h
    rw [hf] at h
    have := Table.mem_of_read h
    simp only [mapOne, mapState, List.mem_cons, Prod.mk.injEq, List.not_mem_nil, or_false] at this
    rcases this with ⟨_, rfl⟩
    decide
  total := by rw [hf, ht]; decide

/-- In the tree of `ab`, node 2 is the only node with children, and they are 0 and 1. -/
theorem isChild_two {m i : Nat} : isChild builtTwo.nm m i ↔ m = 2 ∧ (i = 0 ∨ i = 1) := by
  constructor
  · rintro ⟨f, l, r, h, hi⟩
    have := Table.mem_of_read h
    simp only [builtTwo, List.mem_cons, Prod.mk.injEq, reduceCtorEq, and_false, Node.internal.injEq, List.not_mem_nil,
      or_false, false_or] at this
    obtain ⟨rfl, -, rfl, rfl⟩ := this
    exact ⟨rfl, hi.imp Eq.symm Eq.symm⟩
  · rintro ⟨rfl, hi⟩
    exact ⟨2, 0, 1, by decide, hi.imp Eq.symm Eq.symm⟩

theorem treeInv_two (s : State) (hk : s.k = 2) (hf : s.fm = mapTwo.fm) (ht : s.total = 2) (hn : s.nn = 3) (hr : s.root = 2)
    (hnm : s.nm = builtTwo.nm) : TreeInv s where
  nonempty := by rw [hk]; decide
  size := by rw [hk, hn]; decide
  keys := by rw [hnm, hn]; decide
  root := by rw [hn, hr]; decide
  leaves := by
    intro i hi
    rw [hk] at hi
    rw [hf, hnm]
    have hi : i < 2 := hi
    interval_cases i
    · exact ⟨⟨0x61, 1⟩, by decide, by decide⟩
    · exact ⟨⟨0x62, 1⟩, by decide, by decide⟩
  internals := by
    intro m h1 h2
    rw [hk] at h1
    rw [hn] at h2
    rw [hnm]
    have h1 : 2 ≤ m := h1
    have h2 : m < 3 := h2
    interval_cases m
    exact ⟨2, 0, 1, .leaf 1 0x61, .leaf 1 0x62, by decide, by decide, by decide, by decide, by decide, by decide, by decide⟩
  owned := by
    intro i hi hne
    rw [hn] at hi
    rw [hr] at hne
    rw [hnm]
    have hi : i < 3 := hi
    have hne : i ≠ 2 := hne
    refine ⟨2, isChild_two.mpr ⟨rfl, by omega⟩, fun m' h => (isChild_two.mp h).1⟩
  rootFree := by
    intro m h
    rw [hnm, hr] at h
    have := (isChild_two.mp h).2
    revert this
    decide
  total := by rw [hnm, hr, ht]; exact ⟨.internal 2 0 1, by decide, rfl⟩
  least := by
    intro m f l r h
    rw [hnm] at h ⊢
    have := Table.mem_of_read h
    simp only [builtTwo, List.mem_cons, Prod.mk.injEq, reduceCtorEq, and_false, Node.internal.injEq, List.not_mem_nil,
      or_false, false_or] at this
    obtain ⟨rfl, -, rfl, rfl⟩ := this
    have hc : ∀ m' < 2, ∀ i, ¬isChild builtTwo.nm m' i := fun m' hm' i h => by have := (isChild_two.mp h).1; omega
    refine ⟨⟨by decide, fun m' hm' => hc m' hm' _⟩, ⟨by decide, fun m' hm' => hc m' hm' _⟩, by decide, ?_, ?_⟩
    · rintro j ⟨hj, -⟩ hne
      have hne : j ≠ 0 := hne
      obtain rfl : j = 1 := by omega
      exact ⟨.leaf 1 0x61, .leaf 1 0x62, by decide, by decide, .inr ⟨rfl, by decide⟩⟩
    · rintro j ⟨hj, -⟩ hne hne'
      have hne : j ≠ 0 := hne
      have hne' : j ≠ 1 := hne'
      omega

theorem treeInv_one (s : State) (hk : s.k = 1) (hf : s.fm = mapOne.fm) (ht : s.total = 4) (hn : s.nn = 1) (hr : s.root = 0)
    (hnm : s.nm = builtOne.nm) : TreeInv s := by
  have hchild : ∀ m i, ¬isChild builtOne.nm m i := by
    rintro m i ⟨f, l, r, h, -⟩
    have := Table.mem_of_read h
    simp [builtOne] at this
  refine ⟨by rw [hk]; decide, by rw [hk, hn]; decide, by rw [hnm, hn]; decide, by rw [hn, hr]; decide, ?_, ?_, ?_, ?_, ?_, ?_⟩
  · intro i hi
    rw [hk] at hi
    rw [hf, hnm]
    have hi : i < 1 := hi
    interval_cases i
    exact ⟨⟨0x61, 4⟩, by decide, by decide⟩
  · intro m h1 h2
    rw [hk] at h1
    rw [hn] at h2
    have h1 : 1 ≤ m := h1
    have h2 : m < 1 := h2
    omega
  · intro i hi hne
    rw [hn] at hi
    rw [hr] at hne
    have hi : i < 1 := hi
    have hne : i ≠ 0 := hne
    omega
  · intro m; rw [hnm]; exact hchild _ _
  · rw [hnm, hr, ht]; exact ⟨.leaf 4 0x61, by decide, rfl⟩
  · intro m f l r h
    rw [hnm] at h
    exact absurd ⟨f, l, r, h, .inl rfl⟩ (hchild m l.toNat)

/-- The frames and errors of a state with no frame open, no fault recorded and nothing put out. -/
theorem quiet_frames (s : State) (he : s.encAct = false) (hd : s.decAct = false) (hl : s.encLen = 0) (hc : s.encCnt = 0)
    (hb : s.decBits = 0) (hn : s.decCnt = 0) : FrameInv s where
  encReady := by simp [he]
  decBuilt := by simp [hd]
  encCount := by simp [hl, hc]
  decCount := by simp [hb, hn]
  curValid := by simp [hd]
  curSingle := by simp [hd]
  curWalk := by simp [hd]

theorem quiet_errors (s : State) (h1 : s.err = 0) (h2 : s.eLast = 0) (h3 : s.eInfo = 0) : ErrorInv s where
  mask := by simp [h1]
  last := by simp [h2]
  clear := by simp [h1, h3]
  sticky := by simp [h2]

theorem quiet_streams (s : State) (ho : s.out = []) (hl : s.encLen = 0) (hn : s.decCnt = 0) : StreamInv s where
  encOpen := by simp [State.bo, ho, openBits, hl]
  encClosed := by simp [State.bo, ho, openBits]
  decOpen := by simp [State.so, ho, openSyms, hn]
  decClosed := by simp [State.so, ho, openSyms]

theorem inv_mapTwo : Inv mapTwo where
  map := mapInv_two _ rfl rfl rfl rfl
  phase := ⟨fun _ => ⟨rfl, rfl, rfl⟩, fun h => absurd rfl h, fun _ => rfl, fun h => (by cases h)⟩
  frames := quiet_frames _ rfl rfl rfl rfl rfl rfl
  errors := quiet_errors _ rfl rfl rfl
  streams := quiet_streams _ rfl rfl rfl

theorem inv_builtTwo : Inv builtTwo where
  map := mapInv_two _ rfl rfl rfl rfl
  phase := ⟨fun h => (by cases h), fun _ => treeInv_two _ rfl rfl rfl rfl rfl rfl, fun _ => rfl, fun h => (by cases h)⟩
  frames := quiet_frames _ rfl rfl rfl rfl rfl rfl
  errors := quiet_errors _ rfl rfl rfl
  streams := quiet_streams _ rfl rfl rfl

theorem codeInv_two (s : State) (hk : s.k = 2) (hf : s.fm = mapTwo.fm) (hr : s.root = 2) (hnm : s.nm = builtTwo.nm)
    (hct : s.ct = readyTwo.ct) : CodeInv s where
  keys := by rw [hct, hk]; decide
  codes := by
    intro i hi
    rw [hk] at hi
    have hi : i < 2 := hi
    unfold isCodeOf
    rw [hf, hct, hk, hnm, hr]
    interval_cases i
    · exact ⟨⟨0x61, 1⟩, ⟨0x61, [false]⟩, by decide, by decide, rfl, by decide⟩
    · exact ⟨⟨0x62, 1⟩, ⟨0x62, [true]⟩, by decide, by decide, rfl, by decide⟩

theorem inv_readyTwo : Inv readyTwo where
  map := mapInv_two _ rfl rfl rfl rfl
  phase := ⟨fun h => (by cases h), fun _ => treeInv_two _ rfl rfl rfl rfl rfl rfl, fun h => absurd rfl h,
    fun _ => codeInv_two _ rfl rfl rfl rfl rfl⟩
  frames := quiet_frames _ rfl rfl rfl rfl rfl rfl
  errors := quiet_errors _ rfl rfl rfl
  streams := quiet_streams _ rfl rfl rfl

/-- READY with both frames just opened. -/
def openTwo : State := { readyTwo with encAct := true, decAct := true, cur := 2 }

theorem inv_openTwo : Inv openTwo where
  map := mapInv_two _ rfl rfl rfl rfl
  phase := ⟨fun h => (by cases h), fun _ => treeInv_two _ rfl rfl rfl rfl rfl rfl, fun h => absurd rfl h,
    fun _ => codeInv_two _ rfl rfl rfl rfl rfl⟩
  frames := ⟨fun _ => rfl, fun _ h => (by cases h), by decide, by decide, by decide, fun _ h => absurd h (by decide),
    fun _ _ => ⟨by decide, by decide⟩⟩
  errors := quiet_errors _ rfl rfl rfl
  streams := quiet_streams _ rfl rfl rfl

theorem inv_readyOne : Inv readyOne where
  map := mapInv_one _ rfl rfl rfl rfl
  phase := ⟨fun h => (by cases h), fun _ => treeInv_one _ rfl rfl rfl rfl rfl rfl, fun h => absurd rfl h,
    fun _ => ⟨by decide, fun i hi => ⟨⟨0x61, 4⟩, ⟨0x61, [false]⟩, by
      have hi : i < 1 := hi
      interval_cases i
      exact ⟨by decide, by decide, rfl, by unfold isCodeOf; decide⟩⟩⟩⟩
  frames := quiet_frames _ rfl rfl rfl rfl rfl rfl
  errors := quiet_errors _ rfl rfl rfl
  streams := quiet_streams _ rfl rfl rfl

/-! ## The witnesses, named after the statements -/

theorem test_witness_EncodeOfDecode : decode 0x4100000000000001 = .ok (.dbit true) := by decide

theorem test_witness_DecoderFollowsTheTable : decode 0x5000000000000010 = .ok (.rdr 16) ∧
    ∀ i, decode 0x5000000100000010 ≠ .ok i := by
  have h : decode 0x5000000100000010 = .mbzNonzero 0x50 := by decide
  exact ⟨by decide, fun i hi => by rw [h] at hi; cases hi⟩

theorem test_witness_ResetState : ∃ s t u, t = hardwareReset s ∧ exec .rst s = .next u ∧ s.encAct = true :=
  ⟨openTwo, _, _, rfl, rfl, rfl⟩

theorem test_witness_StepRunsTheDecodedCommand : ∃ (s : State) (w : CmdWord) (rest : List Input) (i : Instr),
    s.inp = .command w :: rest ∧ decode w = .ok i :=
  ⟨{ readyTwo with inp := [.command 0x4000000000000000, .reset] }, _, _, .dbeg, rfl, by decide⟩

theorem test_witness_IllegalWordIsRefused : ∃ (s : State) (w : CmdWord) (rest : List Input),
    s.inp = .command w :: rest ∧ ∀ i, decode w ≠ .ok i := by
  have h : decode 0xFFFFFFFFFFFFFFFF = .unknownOpcode 0xFF := by decide
  exact ⟨{ readyTwo with inp := [.command 0xFFFFFFFFFFFFFFFF] }, _, _, rfl, fun i hi => by rw [h] at hi; cases hi⟩

theorem test_witness_IdleAndHardwareReset :
    (∃ s : State, s.inp = []) ∧ ∃ (s : State) (rest : List Input), s.inp = .reset :: rest :=
  ⟨⟨openTwo, rfl⟩, ⟨{ openTwo with inp := [.reset] }, _, rfl⟩⟩

theorem test_witness_EveryCommandAnswersOneResponse : ∃ (s t : State) (w : CmdWord) (rest : List Input),
    s.inp = .command w :: rest ∧ step s = .next t :=
  ⟨{ openTwo with inp := [.command 0] }, _, _, _, rfl, rfl⟩

theorem test_witness_RefusedCommandsChangeOnlyTheErrorRegisters :
    ∃ (s t : State) (w : CmdWord) (rest : List Input) (r : RspWord),
      s.inp = .command w :: rest ∧ step s = .next t ∧ t.rsps = s.rsps ++ [r] ∧ 4 ≤ rspStatus r :=
  ⟨{ openTwo with inp := [.command 0x3000000000000000] }, _, _, _, 0x0500000030000000, rfl, rfl, by decide, by decide⟩

theorem test_witness_FaultBitsAreSticky : ∃ (i : Instr) (s t : State),
    exec i s = .next t ∧ i ≠ .rst ∧ i ≠ .eclr ∧ s.err.getLsbD 5 = true :=
  ⟨.ebeg, { openTwo with err := 0x20, eLast := 5 }, _, rfl, by decide, by decide, by decide⟩

theorem test_witness_PhaseCheckDecidesBadSequence :
    (Inv openTwo ∧ openTwo.encAct = true ∧ openTwo.decAct = true) ∧ ¬phaseCondition .ebeg openTwo ∧
    ∃ t r, phaseCondition .eend openTwo ∧ exec .eend openTwo = .next t ∧ t.rsps = openTwo.rsps ++ [r] :=
  ⟨⟨inv_openTwo, rfl, rfl⟩, fun h => Bool.noConfusion h.2, _, 0, rfl, rfl, by decide⟩

/-- A full map of two symbols: the clauses of FADD and FSYM at their boundaries. -/
def fullMap : State := { mapTwo with kMax := 2 }

theorem test_witness_FaddCounts :
    builtTwo.phase ≠ .collect ∧ (mapTwo.phase = .collect ∧ (0 : Word32) = 0) ∧
    (fullMap.phase = .collect ∧ (1 : Word32) ≠ 0 ∧ Table.lookup FmEntry.sym fullMap.fm 0x63 = none ∧
      fullMap.kMax ≤ fullMap.k.toNat) ∧
    (mapTwo.phase = .collect ∧ (0xFFFFFFFE : Word32) ≠ 0 ∧ maxWord32 < mapTwo.total.toNat + (0xFFFFFFFE : Word32).toNat) ∧
    ((0xFFFFFFFD : Word32) ≠ 0 ∧ mapTwo.total.toNat + (0xFFFFFFFD : Word32).toNat ≤ maxWord32 ∧
      Table.lookup FmEntry.sym mapTwo.fm 0x63 = none ∧ mapTwo.k.toNat < mapTwo.kMax) ∧
    (Table.lookup FmEntry.sym fullMap.fm 0x62 = some (1, ⟨0x62, 1⟩) ∧
      fullMap.total.toNat + (0xFFFFFFFD : Word32).toNat ≤ maxWord32) := by decide

theorem test_witness_FsymCountsOne :
    builtTwo.phase ≠ .collect ∧ (1 : Word32) ≠ 0 ∧
    (Table.lookup FmEntry.sym fullMap.fm 0x63 = none ∧ fullMap.kMax ≤ fullMap.k.toNat) ∧
    maxWord32 < (mapState [(0, ⟨0x61, 0xFFFFFFFF⟩)] 1 0xFFFFFFFF).total.toNat + (1 : Word32).toNat ∧
    ((mapState [(0, ⟨0x61, 0xFFFFFFFE⟩)] 1 0xFFFFFFFE).total.toNat + (1 : Word32).toNat ≤ maxWord32 ∧
      Table.lookup FmEntry.sym (mapState [(0, ⟨0x61, 0xFFFFFFFE⟩)] 1 0xFFFFFFFE).fm 0x61 = some (0, ⟨0x61, 0xFFFFFFFE⟩)) ∧
    (Table.lookup FmEntry.sym mapTwo.fm 0x63 = none ∧ mapTwo.k.toNat < mapTwo.kMax) := by decide

theorem test_witness_CountingATextGivesItsCounts :
    ([0x61, 0x62, 0x61] : List Symbol).eraseDups.length ≤ 2 ∧ ([0x61, 0x62, 0x61] : List Symbol).length ≤ maxWord32 := by
  decide

theorem test_witness_BuildRefusals :
    ((State.resetFor 8).phase = .collect ∧ (State.resetFor 8).k = 0) ∧ readyTwo.phase ≠ .collect := by decide

theorem test_witness_BuildMakesTheTree : Inv mapTwo ∧ mapTwo.phase = .collect ∧ mapTwo.k ≠ 0 :=
  ⟨inv_mapTwo, rfl, by decide⟩

theorem test_witness_TheMapDeterminesTheTree :
    TreeInv builtTwo ∧ TreeInv openTwo ∧ builtTwo.k = openTwo.k ∧ builtTwo.fm = openTwo.fm :=
  ⟨treeInv_two _ rfl rfl rfl rfl rfl rfl, treeInv_two _ rfl rfl rfl rfl rfl rfl, rfl, rfl⟩

theorem test_witness_GentabWritesThePaths : Inv builtTwo ∧ builtTwo.phase = .built := ⟨inv_builtTwo, rfl⟩

theorem test_witness_CodesArePrefixFree : Inv readyTwo ∧ readyTwo.phase = .ready ∧ 0 ≠ 1 ∧
    Table.read readyTwo.ct 0 = some ⟨0x61, [false]⟩ ∧ Table.read readyTwo.ct 1 = some ⟨0x62, [true]⟩ :=
  ⟨inv_readyTwo, rfl, by decide, by decide, by decide⟩

theorem test_witness_CodeLengthsAreBounded :
    (Inv readyTwo ∧ readyTwo.phase = .ready ∧ Table.read readyTwo.ct 1 = some ⟨0x62, [true]⟩) ∧
    (Inv readyOne ∧ readyOne.phase = .ready ∧ Table.read readyOne.ct 0 = some ⟨0x61, [false]⟩) :=
  ⟨⟨inv_readyTwo, rfl, by decide⟩, ⟨inv_readyOne, rfl, by decide⟩⟩

theorem test_witness_CodeIsComplete : Inv readyTwo ∧ readyTwo.phase = .ready ∧ 2 ≤ readyTwo.k.toNat :=
  ⟨inv_readyTwo, rfl, by decide⟩

theorem test_witness_EbegOpensAFrame :
    (readyTwo.phase = .ready ∧ readyTwo.encAct = false) ∧ ¬(openTwo.phase = .ready ∧ openTwo.encAct = false) ∧
    ¬(builtTwo.phase = .ready ∧ builtTwo.encAct = false) := by decide

theorem test_witness_EsymEncodesASymbol :
    readyTwo.encAct = false ∧ (openTwo.encAct = true ∧ Table.lookup CtEntry.sym openTwo.ct 0x7A = none) ∧
    (Table.lookup CtEntry.sym openTwo.ct 0x62 = some (1, ⟨0x62, [true]⟩) ∧
      maxWord32 < (0xFFFFFFFF : Word32).toNat + [true].length ∧ (0xFFFFFFFE : Word32).toNat + [true].length ≤ maxWord32) := by
  decide

theorem test_witness_EendClosesTheFrame : openTwo.encAct = true ∧ readyTwo.encAct = false := by decide

/-- The text `ab` under the session of `ab`. -/
theorem text_hasCode : ∀ a ∈ ([0x61, 0x62] : List Symbol), hasCode readyTwo a := by
  intro a ha
  simp only [List.mem_cons, List.not_mem_nil, or_false] at ha
  rcases ha with rfl | rfl <;> (unfold hasCode; decide)

theorem test_witness_EncodeFrameHoldsTheCodes :
    Inv readyTwo ∧ readyTwo.phase = .ready ∧ readyTwo.encAct = false ∧
    (∀ a ∈ ([0x61, 0x62] : List Symbol), hasCode readyTwo a) ∧ (codeOfText readyTwo [0x61, 0x62]).length ≤ maxWord32 :=
  ⟨inv_readyTwo, rfl, rfl, text_hasCode, by decide⟩

theorem test_witness_DbegOpensAFrame :
    (builtTwo.phase ≠ .collect ∧ builtTwo.decAct = false) ∧ ¬(mapTwo.phase ≠ .collect ∧ mapTwo.decAct = false) ∧
    ¬(openTwo.phase ≠ .collect ∧ openTwo.decAct = false) := by decide

theorem test_witness_DbitWalksTheTree :
    readyTwo.decAct = false ∧ (openTwo.decAct = true ∧ (0xFFFFFFFF : Word32).toNat = maxWord32) ∧
    (0xFFFFFFFE : Word32).toNat < maxWord32 ∧ Table.read readyOne.nm readyOne.root.toNat = some (.leaf 4 0x61) ∧
    Table.read openTwo.nm openTwo.root.toNat = some (.internal 2 0 1) ∧ Table.read openTwo.nm 1 = some (.leaf 1 0x62) ∧
    Table.read openTwo.nm openTwo.cur.toNat = some (.internal 2 0 1) := by decide

theorem test_witness_DendEndsTheFrame :
    readyTwo.decAct = false ∧ openTwo.decAct = true ∧ Table.read readyOne.nm readyOne.root.toNat = some (.leaf 4 0x61) ∧
    Table.read openTwo.nm openTwo.root.toNat = some (.internal 2 0 1) ∧ Table.read openTwo.nm 0 = some (.leaf 1 0x61) ∧
    Table.read openTwo.nm openTwo.cur.toNat = some (.internal 2 0 1) := by decide

theorem test_witness_DecodeFrameEndsExactlyOnCodes :
    Inv readyTwo ∧ readyTwo.phase = .ready ∧ readyTwo.decAct = false ∧ 2 ≤ readyTwo.k.toNat ∧ [true, false].length ≤ maxWord32 :=
  ⟨inv_readyTwo, rfl, rfl, by decide, by decide⟩

theorem test_witness_SingleSymbolFrameDecodes :
    Inv readyOne ∧ readyOne.phase ≠ .collect ∧ readyOne.decAct = false ∧ readyOne.k = 1 ∧ [true, false].length ≤ maxWord32 :=
  ⟨inv_readyOne, by decide, rfl, rfl, by decide⟩

theorem test_witness_EmptyTextFrames :
    (Inv readyTwo ∧ readyTwo.phase = .ready ∧ readyTwo.encAct = false ∧ readyTwo.decAct = false ∧ 2 ≤ readyTwo.k.toNat) ∧
    (Inv readyOne ∧ readyOne.phase ≠ .collect ∧ readyOne.decAct = false ∧ readyOne.k = 1) :=
  ⟨⟨inv_readyTwo, rfl, rfl, rfl, by decide⟩, ⟨inv_readyOne, by decide, rfl, rfl⟩⟩

theorem test_witness_RdrReadsTheRegisterMap : 16 ≤ (16 : Word32).toNat := by decide

theorem test_witness_StatusWordFields : mapTwo.phase = .collect ∧ builtTwo.phase = .built ∧ readyTwo.phase = .ready ∧ 6 ≤ 6 := by
  decide

theorem test_witness_RdfReadsTheMap :
    ((1 : Index24).toNat < mapTwo.kMax ∧ Table.read mapTwo.fm (1 : Index24).toNat = some ⟨0x62, 1⟩) ∧
    ((7 : Index24).toNat < mapTwo.kMax ∧ Table.read mapTwo.fm (7 : Index24).toNat = none) ∧
    mapTwo.kMax ≤ (8 : Index24).toNat ∧ 3 ≤ (3 : Word32).toNat ∧
    (Table.read mapTwo.fm (2 : Index24).toNat = none ∧ (1 : Word32) ≠ 0) := by decide

theorem test_witness_RdnReadsTheTree :
    ((0 : Index24).toNat < 2 * builtTwo.kMax - 1 ∧ Table.read builtTwo.nm (0 : Index24).toNat = some (.leaf 1 0x61)) ∧
    ((2 : Index24).toNat < 2 * builtTwo.kMax - 1 ∧ Table.read builtTwo.nm (2 : Index24).toNat = some (.internal 2 0 1)) ∧
    ((14 : Index24).toNat < 2 * builtTwo.kMax - 1 ∧ Table.read builtTwo.nm (14 : Index24).toNat = none) ∧
    2 * builtTwo.kMax - 1 ≤ (15 : Index24).toNat ∧ 5 ≤ (5 : Word32).toNat ∧
    (Table.read builtTwo.nm (3 : Index24).toNat = none ∧ (1 : Word32) ≠ 0) := by decide

theorem test_witness_RdcReadsTheTable :
    ((1 : Index24).toNat < readyTwo.kMax ∧ Table.read readyTwo.ct (1 : Index24).toNat = some ⟨0x62, [true]⟩) ∧
    (3 ≤ (3 : Word32).toNat ∧ (3 : Word32).toNat - 3 < ([true].length + 31) / 32) ∧
    (3 ≤ (4 : Word32).toNat ∧ ([true].length + 31) / 32 ≤ (4 : Word32).toNat - 3) ∧
    ((7 : Index24).toNat < readyTwo.kMax ∧ Table.read readyTwo.ct (7 : Index24).toNat = none) ∧
    readyTwo.kMax ≤ (8 : Index24).toNat ∧ (Table.read readyTwo.ct (2 : Index24).toNat = none ∧ (2 : Word32) ≠ 0) := by decide

theorem test_witness_PackLayout : 15 < 8 * (pack (List.replicate 9 true)).length := by decide

theorem test_witness_ReadsAreIdempotent :
    (∃ t, exec (.rdr 1) readyTwo = .next t) ∧ (∃ t, exec (.rdf 0 2) readyTwo = .next t) ∧
    (∃ t, exec (.rdn 2 2) readyTwo = .next t) ∧ ∃ t, exec (.rdc 1 3) readyTwo = .next t :=
  ⟨⟨_, rfl⟩, ⟨_, rfl⟩, ⟨_, rfl⟩, ⟨_, rfl⟩⟩

theorem test_witness_ResetMeetsTheInvariant : Config.kMaxLegal 1 ∧ Config.kMaxLegal 2097152 := by decide

theorem test_witness_StepKeepsTheInvariant : ∃ t, Inv openTwo ∧ step openTwo = .next t := ⟨_, inv_openTwo, rfl⟩

theorem test_witness_StepNeverStops : Inv openTwo := inv_openTwo

theorem test_witness_TablesStayCanonical : ∃ s t, Memory.wf s ∧ step s = .next t ∧ s.inp ≠ [] :=
  ⟨{ mapTwo with inp := [.command 0x1000006300000000] }, _, by decide, rfl, by decide⟩

theorem test_witness_OnlyTheBuildersWriteTheTables : ∃ (i : Instr) (s t : State),
    exec i s = .next t ∧ i ≠ .rst ∧ i ≠ .build ∧ i ≠ .gentab ∧ (∀ a, i ≠ .fsym a) ∧ ∀ a c, i ≠ .fadd a c :=
  ⟨.ebeg, readyTwo, _, rfl, by decide, by decide, by decide, by simp, by simp⟩

theorem test_witness_OnlyTheBuildersWriteTheTables_frozen : ∃ t, exec (.fsym 0x61) builtTwo = .next t ∧
    builtTwo.phase ≠ .collect := ⟨_, rfl, by decide⟩

theorem test_witness_PhaseMovesForwardOnly :
    (∃ t, exec .build mapTwo = .next t) ∧ ∃ t, exec .gentab builtTwo = .next t := ⟨⟨_, rfl⟩, ⟨_, rfl⟩⟩

theorem test_witness_FrameFlagsFollowTheirCommands :
    (∃ t, exec .ebeg readyTwo = .next t ∧ readyTwo.encAct = false ∧ t.encAct = true) ∧
    (∃ t, exec (.esym 0x7A) openTwo = .next t ∧ openTwo.encAct = true ∧ t.encAct = false) ∧
    (∃ t, exec .dbeg readyTwo = .next t ∧ readyTwo.decAct = false ∧ t.decAct = true) ∧
    ∃ t, exec .dend openTwo = .next t ∧ openTwo.decAct = true ∧ t.decAct = false :=
  ⟨⟨_, rfl, rfl, rfl⟩, ⟨_, rfl, rfl, rfl⟩, ⟨_, rfl, rfl, rfl⟩, ⟨_, rfl, rfl, rfl⟩⟩

theorem test_witness_EncoderAndDecoderAreIndependent :
    (∃ t, exec (.esym 0x61) openTwo = .next t) ∧ ∃ t, exec (.dbit true) openTwo = .next t := ⟨⟨_, rfl⟩, ⟨_, rfl⟩⟩

theorem test_witness_CommandsSeeNeitherOutputsNorInputs :
    (∃ t, exec (.esym 0x61) openTwo = .next t) ∧
    exec .dend { openTwo with nm := [] } = .fault .invalidEntry := ⟨⟨_, rfl⟩, rfl⟩

theorem test_witness_RoundTripOfAFrame :
    Inv readyTwo ∧ readyTwo.phase = .ready ∧ readyTwo.encAct = false ∧ readyTwo.decAct = false ∧
    ([0x61, 0x62] : List Symbol) ≠ [] ∧ (∀ a ∈ ([0x61, 0x62] : List Symbol), hasCode readyTwo a) ∧
    (codeOfText readyTwo [0x61, 0x62]).length ≤ maxWord32 :=
  ⟨inv_readyTwo, rfl, rfl, rfl, by decide, text_hasCode, by decide⟩

theorem test_witness_RoundTripOfACountedText : Config.kMaxLegal 2 ∧ ([0x61, 0x62] : List Symbol) ≠ [] ∧
    ([0x61, 0x62] : List Symbol).eraseDups.length ≤ 2 ∧ ([0x61, 0x62] : List Symbol).length ≤ maxWord32 := by decide

theorem test_witness_EncodedLengthIsTheCost :
    Inv readyTwo ∧ readyTwo.phase = .ready ∧ readyTwo.encAct = false ∧
    (∀ a ∈ ([0x61, 0x62] : List Symbol), hasCode readyTwo a) ∧
    (∀ i e, Table.read readyTwo.fm i = some e → ([0x61, 0x62] : List Symbol).count e.sym = e.cnt.toNat) ∧
    cost readyTwo ≤ maxWord32 ∧ 2 ≤ readyTwo.k.toNat := by
  refine ⟨inv_readyTwo, rfl, rfl, text_hasCode, fun i e h => ?_, by decide, by decide⟩
  have := Table.mem_of_read h
  simp only [readyTwo, builtTwo, mapTwo, mapState, List.mem_cons, Prod.mk.injEq, List.not_mem_nil, or_false] at this
  rcases this with ⟨_, rfl⟩ | ⟨_, rfl⟩ <;> decide

theorem test_witness_EncodedLengthIsTheCost_single : Inv readyOne ∧ readyOne.phase = .ready ∧ readyOne.encAct = false ∧
    readyOne.k = 1 ∧ cost readyOne ≤ maxWord32 ∧ ([0x61, 0x61, 0x61, 0x61] : List Symbol).count 0x61 = 4 :=
  ⟨inv_readyOne, rfl, rfl, rfl, by decide, by decide⟩

theorem test_witness_CostIsTheSumOfInternalFrequencies :
    Inv readyTwo ∧ readyTwo.phase = .ready ∧ 2 ≤ readyTwo.k.toNat := ⟨inv_readyTwo, rfl, by decide⟩

/-- A prefix-free assignment of non-empty codes to two slots. -/
def otherCode (i : Nat) : List Bool := if i = 0 then [true] else [false, true]

theorem test_witness_CodeTableIsOptimal :
    Inv readyTwo ∧ readyTwo.phase = .ready ∧ 2 ≤ readyTwo.k.toNat ∧ (∀ i < readyTwo.k.toNat, otherCode i ≠ []) ∧
    (∀ i < readyTwo.k.toNat, ∀ j < readyTwo.k.toNat, i ≠ j → ¬otherCode i <+: otherCode j) := by
  refine ⟨inv_readyTwo, rfl, by decide, by decide, by decide⟩

end Sys2Proof.Tests
end

