-- ==== Sys2Proof/Proofs/Forest.lean ====
section
/-! The tree builder (R110 to R116): the forest invariant of the merge loop, and the tree it ends in. -/

namespace Sys2Proof.Machine

/-! What the terms of the tree depend on -/

theorem isChild_congr {nm nm' : Table Node} {m : Nat} (h : Table.read nm' m = Table.read nm m) (i : Nat) :
    isChild nm' m i ↔ isChild nm m i := by
  simp only [isChild, h]

theorem isCandidate_congr {nm nm' : Table Node} {m : Nat} (h : ∀ j < m, Table.read nm' j = Table.read nm j) (i : Nat) :
    isCandidate nm' m i ↔ isCandidate nm m i :=
  and_congr_right fun _ => forall₂_congr fun m' hm' => not_congr (isChild_congr (h m' hm') i)

theorem nodeBefore_congr {nm nm' : Table Node} {x y : Nat} (hx : Table.read nm' x = Table.read nm x)
    (hy : Table.read nm' y = Table.read nm y) : nodeBefore nm' x y ↔ nodeBefore nm x y := by
  simp only [nodeBefore, hx, hy]

/-- What a merge took depends on the nodes older than the merged one only. -/
theorem mergesLeast_congr {nm nm' : Table Node} {m : Nat} {l r : Word32}
    (h : ∀ j < m, Table.read nm' j = Table.read nm j) (hm : mergesLeast nm m l r) : mergesLeast nm' m l r := by
  obtain ⟨hl, hr, hne, hleast, hnext⟩ := hm
  have hcand := isCandidate_congr h
  refine ⟨(hcand _).mpr hl, (hcand _).mpr hr, hne, fun j hj hjl => ?_, fun j hj hjl hjr => ?_⟩
  · exact (nodeBefore_congr (h _ hl.1) (h _ hj.1)).mpr (hleast j ((hcand j).mp hj) hjl)
  · exact (nodeBefore_congr (h _ hr.1) (h _ hj.1)).mpr (hnext j ((hcand j).mp hj) hjl hjr)

/-- A new internal node adds its two children to the child relation. -/
theorem isChild_write_internal {nm : Table Node} {n : Nat} (hn : Table.read nm n = none) (f l r : Word32) (m i : Nat) :
    isChild (Table.write nm n (.internal f l r)) m i ↔ isChild nm m i ∨ m = n ∧ (l.toNat = i ∨ r.toNat = i) := by
  by_cases hm : m = n
  · subst hm
    simp [isChild, hn]
  · simp [isChild_congr (Table.read_write_other nm _ hm) i, hm]

/-- Making node `n` of two roots takes them out of the roots of the forest and puts `n` in. -/
theorem isCandidate_write_internal {nm : Table Node} {n : Nat} (hn : Table.read nm n = none)
    (hlt : ∀ m i, isChild nm m i → i < m ∧ m < n) (f : Word32) {l r : Word32} (hl : l.toNat < n) (hr : r.toNat < n)
    (i : Nat) : isCandidate (Table.write nm n (.internal f l r)) (n + 1) i ↔
      i = n ∨ isCandidate nm n i ∧ i ≠ l.toNat ∧ i ≠ r.toNat := by
  simp only [isCandidate, isChild_write_internal hn]
  constructor
  · rintro ⟨hi, hno⟩
    by_cases hin : i = n
    · exact .inl hin
    · refine .inr ⟨⟨by omega, fun m hm hc => hno m (by omega) (.inl hc)⟩, fun h => ?_, fun h => ?_⟩
      · exact hno n (by omega) (.inr ⟨rfl, .inl h.symm⟩)
      · exact hno n (by omega) (.inr ⟨rfl, .inr h.symm⟩)
  · rintro (rfl | ⟨⟨hi, hno⟩, hil, hir⟩)
    · refine ⟨by omega, fun m _ h => ?_⟩
      rcases h with h | ⟨-, h | h⟩
      · have := hlt m i h; omega
      · omega
      · omega
    · refine ⟨by omega, fun m _ h => ?_⟩
      rcases h with h | ⟨-, h | h⟩
      · exact hno m (hlt m i h).2 h
      · exact hil h.symm
      · exact hir h.symm

/-! The forest -/

/-- The state of the merge loop (R110): the node memory `nm` with nodes 0 to `nn - 1`, and the collection `pq` of the
roots of its forest, over the leaves of the map `fm` with `k` entries whose counts sum to `total`. -/
structure ForestInv (fm : Table FmEntry) (k total : Nat) (pq : List ForestRoot) (nn : Nat) (nm : Table Node) :
    Prop where
  /-- Every merge takes two roots and makes one. -/
  size : nn + pq.length = 2 * k
  /-- All leaves exist already. -/
  old : k ≤ nn
  /-- The valid entries are exactly indices 0 to `nn - 1` (R39). -/
  keys : nm.map Prod.fst = List.range nn
  /-- The leaves are the map's entries (R111). -/
  leaves : ∀ i < k, ∃ e, Table.read fm i = some e ∧ Table.read nm i = some (.leaf e.cnt e.sym)
  /-- The other nodes are the merges made (R113, R114). -/
  internals : ∀ m, k ≤ m → m < nn → ∃ f l r a b,
    Table.read nm m = some (.internal f l r) ∧ l.toNat < m ∧ r.toNat < m ∧ l ≠ r ∧
    Table.read nm l.toNat = some a ∧ Table.read nm r.toNat = some b ∧
    f.toNat = a.freq.toNat + b.freq.toNat
  /-- No node has two parents. -/
  single : ∀ i m m', isChild nm m i → isChild nm m' i → m = m'
  /-- The collection holds no root twice. -/
  distinct : (pq.map ForestRoot.idx).Nodup
  /-- The collection holds exactly the roots. -/
  roots : ∀ i, i ∈ pq.map ForestRoot.idx ↔ isCandidate nm nn i
  /-- With their frequencies. -/
  freqs : ∀ x ∈ pq, ∃ n, Table.read nm x.idx = some n ∧ n.freq = x.freq
  /-- The frequencies of the roots sum to `total`. -/
  total : (pq.map (fun x => x.freq.toNat)).sum = total
  /-- Every merge took the two least roots (R112). -/
  least : ∀ m f l r, Table.read nm m = some (.internal f l r) → mergesLeast nm m l r

namespace ForestInv

variable {fm : Table FmEntry} {k total nn : Nat} {pq : List ForestRoot} {nm : Table Node}

/-- The order of the collection does not matter. -/
theorem perm {qs : List ForestRoot} (h : ForestInv fm k total pq nn nm) (hp : qs.Perm pq) :
    ForestInv fm k total qs nn nm where
  size := by rw [hp.length_eq]; exact h.size
  old := h.old
  keys := h.keys
  leaves := h.leaves
  internals := h.internals
  single := h.single
  distinct := (hp.map _).nodup_iff.mpr h.distinct
  roots i := (hp.map _).mem_iff.trans (h.roots i)
  freqs x hx := h.freqs x (hp.mem_iff.mp hx)
  total := (hp.map _).sum_eq.trans h.total
  least := h.least

/-- A node with children is internal, and its children are older. -/
theorem child_lt (h : ForestInv fm k total pq nn nm) {m i : Nat} (hc : isChild nm m i) : i < m ∧ m < nn := by
  obtain ⟨f, l, r, hm, hi⟩ := hc
  have hmn : m < nn := (Table.read_isSome_of_keys h.keys m).mp (by simp [hm])
  rcases Nat.lt_or_ge m k with hk | hk
  · obtain ⟨e, -, he⟩ := h.leaves m hk
    rw [hm] at he; cases he
  · obtain ⟨f', l', r', a, b, hm', hl, hr, -⟩ := h.internals m hk hmn
    rw [hm] at hm'; cases hm'
    rcases hi with rfl | rfl
    · exact ⟨hl, hmn⟩
    · exact ⟨hr, hmn⟩

/-- An element of the collection is a node. -/
theorem idx_lt (h : ForestInv fm k total pq nn nm) {x : ForestRoot} (hx : x ∈ pq) : x.idx < nn :=
  ((h.roots x.idx).mp (List.mem_map_of_mem hx)).1

/-- `<<` on the collection is `<<` on the node memory (R8). -/
theorem nodeBefore_of_rootBefore (h : ForestInv fm k total pq nn nm) {x y : ForestRoot} (hx : x ∈ pq) (hy : y ∈ pq)
    (hxy : rootBefore x y = true) : nodeBefore nm x.idx y.idx := by
  obtain ⟨a, ha, hax⟩ := h.freqs x hx
  obtain ⟨b, hb, hby⟩ := h.freqs y hy
  exact ⟨a, b, ha, hb, by rw [hax, hby]; exact (rootBefore_iff x y).mp hxy⟩

section Merge

variable {x y : ForestRoot} {others : List ForestRoot} {l r : Word32}

/-- The least and the next-least element of the collection are the children R112 asks for. -/
theorem mergesLeast (h : ForestInv fm k total (x :: y :: others) nn nm) (hl : l.toNat = x.idx) (hr : r.toNat = y.idx)
    (hx : ∀ z ∈ y :: others, rootBefore x z = true) (hy : ∀ z ∈ others, rootBefore y z = true) :
    mergesLeast nm nn l r := by
  have hd := h.distinct
  simp only [List.map_cons, List.nodup_cons, List.mem_cons, not_or] at hd
  refine ⟨(h.roots _).mp (by simp [hl]), (h.roots _).mp (by simp [hr]), fun heq => hd.1.1 ?_, ?_, ?_⟩
  · rw [← hl, ← hr, heq]
  · intro j hj hjl
    obtain ⟨z, hz, rfl⟩ := List.mem_map.mp ((h.roots j).mpr hj)
    rcases List.mem_cons.mp hz with rfl | hz'
    · exact absurd hl.symm hjl
    · rw [hl]; exact h.nodeBefore_of_rootBefore List.mem_cons_self hz (hx z hz')
  · intro j hj hjl hjr
    obtain ⟨z, hz, rfl⟩ := List.mem_map.mp ((h.roots j).mpr hj)
    rcases List.mem_cons.mp hz with rfl | hz'
    · exact absurd hl.symm hjl
    · rcases List.mem_cons.mp hz' with rfl | hz''
      · exact absurd hr.symm hjr
      · rw [hr]; exact h.nodeBefore_of_rootBefore (by simp) hz (hy z hz'')

/-- One merge (R112 to R114) keeps the forest invariant; the sum of the two frequencies does not wrap around, for it is
at most `total`. -/
theorem merge (h : ForestInv fm k total (x :: y :: others) nn nm) (ht : total < 2 ^ 32)
    (hl : l.toNat = x.idx) (hr : r.toNat = y.idx)
    (hx : ∀ z ∈ y :: others, rootBefore x z = true) (hy : ∀ z ∈ others, rootBefore y z = true) :
    ForestInv fm k total (⟨x.freq + y.freq, nn⟩ :: others) (nn + 1)
      (Table.write nm nn (.internal (x.freq + y.freq) l r)) := by
  have hsum := h.total
  have hd := h.distinct
  simp only [List.map_cons, List.sum_cons] at hsum
  simp only [List.map_cons, List.nodup_cons, List.mem_cons, not_or] at hd
  have hfreq : (x.freq + y.freq).toNat = x.freq.toNat + y.freq.toNat := by rw [BitVec.toNat_add]; omega
  have hxn : x.idx < nn := h.idx_lt (by simp)
  have hyn : y.idx < nn := h.idx_lt (by simp)
  have hnone : Table.read nm nn = none := Table.none_of_keys h.keys le_rfl
  have hkeep : ∀ j < nn, Table.read (Table.write nm nn (.internal (x.freq + y.freq) l r)) j = Table.read nm j :=
    fun j hj => Table.read_write_other nm _ (by omega)
  have hbelow : ∀ z ∈ others, z.idx < nn := fun z hz => h.idx_lt (by simp [hz])
  have hml := h.mergesLeast hl hr hx hy
  obtain ⟨⟨-, hlfree⟩, ⟨-, hrfree⟩, hne, -, -⟩ := h.mergesLeast hl hr hx hy
  refine
    { size := by have := h.size; simp only [List.length_cons] at this ⊢; omega
      old := by have := h.old; omega
      keys := (Table.write_next h.keys _).2
      leaves := fun i hi => ?leaves
      internals := fun m hk hm => ?internals
      single := fun i m m' hm hm' => ?single
      distinct := ?distinct
      roots := fun i => ?roots
      freqs := fun z hz => ?freqs
      total := by simpa only [List.map_cons, List.sum_cons, hfreq, Nat.add_assoc] using hsum
      least := fun m f l' r' hm => ?least }
  case leaves =>
    obtain ⟨e, he, hn⟩ := h.leaves i hi
    exact ⟨e, he, by rw [hkeep i (by have := h.old; omega), hn]⟩
  case internals =>
    rcases Nat.lt_or_ge m nn with hmn | hmn
    · obtain ⟨f, l', r', a, b, hm, hl', hr', hne, ha, hb, hf⟩ := h.internals m hk hmn
      exact ⟨f, l', r', a, b, by rw [hkeep m hmn, hm], hl', hr', hne, by rw [hkeep _ (by omega), ha],
        by rw [hkeep _ (by omega), hb], hf⟩
    · obtain rfl : m = nn := by omega
      obtain ⟨a, ha, hax⟩ := h.freqs x (by simp)
      obtain ⟨b, hb, hby⟩ := h.freqs y (by simp)
      exact ⟨_, l, r, a, b, Table.read_write_same _ _ _, by omega, by omega, hne,
        by rw [hkeep _ (by omega), hl, ha], by rw [hkeep _ (by omega), hr, hb], by rw [hfreq, hax, hby]⟩
  case single =>
    rw [isChild_write_internal hnone] at hm hm'
    have hfree : ∀ n, isChild nm n i → ¬(l.toNat = i ∨ r.toNat = i) := by
      rintro n hc (rfl | rfl)
      · exact hlfree n (h.child_lt hc).2 hc
      · exact hrfree n (h.child_lt hc).2 hc
    rcases hm with hm | ⟨rfl, hi⟩ <;> rcases hm' with hm' | ⟨rfl, hi'⟩
    · exact h.single i m m' hm hm'
    · exact absurd hi' (hfree m hm)
    · exact absurd hi (hfree m' hm')
    · rfl
  case distinct =>
    refine List.nodup_cons.mpr ⟨fun hmem => ?_, hd.2.2⟩
    obtain ⟨z, hz, hzn⟩ := List.mem_map.mp hmem
    exact absurd hzn (hbelow z hz).ne
  case roots =>
    rw [isCandidate_write_internal hnone (fun _ _ => h.child_lt) _ (by omega) (by omega), ← h.roots i, hl, hr]
    simp only [List.map_cons, List.mem_cons]
    constructor
    · rintro (rfl | hi)
      · exact .inl rfl
      · exact .inr ⟨.inr (.inr hi), fun heq => hd.1.2 (heq ▸ hi), fun heq => hd.2.1 (heq ▸ hi)⟩
    · rintro (rfl | ⟨rfl | rfl | hi, hix, hiy⟩)
      · exact .inl rfl
      · exact absurd rfl hix
      · exact absurd rfl hiy
      · exact .inr hi
  case freqs =>
    rcases List.mem_cons.mp hz with rfl | hz
    · exact ⟨_, Table.read_write_same _ _ _, rfl⟩
    · obtain ⟨n, hn, hf⟩ := h.freqs z (by simp [hz])
      exact ⟨n, by rw [hkeep _ (hbelow z hz), hn], hf⟩
  case least =>
    by_cases hmn : m = nn
    · subst hmn
      rw [Table.read_write_same] at hm
      cases hm
      exact mergesLeast_congr hkeep hml
    · rw [Table.read_write_other nm _ hmn] at hm
      have hlast : m < nn := (Table.read_isSome_of_keys h.keys m).mp (by simp [hm])
      exact mergesLeast_congr (fun j hj => hkeep j (by omega)) (h.least m f l' r' hm)

end Merge

/-- The merge loop ends with a single root (R110). -/
theorem mergeLoop {fuel : Nat} {x : ForestRoot} (h : ForestInv fm k total (x :: pq) nn nm) (hk : 2 * k < 2 ^ 32)
    (ht : total < 2 ^ 32) (hf : pq.length = fuel) :
    ∃ f, ForestInv fm k total [⟨f, (mergeLoop fuel x pq nn nm).root⟩] (mergeLoop fuel x pq nn nm).nn
      (mergeLoop fuel x pq nn nm).nm := by
  induction fuel generalizing x pq nn nm with
  | zero =>
    obtain rfl := List.length_eq_zero_iff.mp hf
    exact ⟨x.freq, h⟩
  | succ fuel ih =>
    have hp := takeLeast_perm x pq
    have hlen := takeLeast_length x pq
    have hleast := takeLeast_least x pq h.distinct
    rcases ht1 : takeLeast x pq with ⟨least, rest⟩
    rw [ht1] at hp hlen hleast
    cases rest with
    | nil => simp only [List.length_nil] at hlen; omega
    | cons y0 ys =>
      have h1 := h.perm hp
      have hp2 := takeLeast_perm y0 ys
      have hnext := takeLeast_least y0 ys (List.nodup_cons.mp h1.distinct).2
      have hlen2 := takeLeast_length y0 ys
      rcases ht2 : takeLeast y0 ys with ⟨next, others⟩
      rw [ht2] at hp2 hnext hlen2
      have h2 := h1.perm (hp2.cons least)
      have hword : ∀ z ∈ least :: next :: others, (BitVec.ofNat 32 z.idx).toNat = z.idx := fun z hz => by
        have := h2.idx_lt hz
        have := h2.size
        rw [BitVec.toNat_ofNat]; omega
      have hmerge := h2.merge ht (hword least (by simp)) (hword next (by simp))
        (fun z hz => hleast z (hp2.mem_iff.mp hz)) hnext
      have hstep : Machine.mergeLoop (fuel + 1) x pq nn nm = Machine.mergeLoop fuel ⟨least.freq + next.freq, nn⟩ others
          (nn + 1) (Table.write nm nn
            (.internal (least.freq + next.freq) (BitVec.ofNat 32 least.idx) (BitVec.ofNat 32 next.idx))) := by
        simp only [Machine.mergeLoop, ht1, ht2]
      rw [hstep]
      simp only [List.length_cons] at hlen hlen2
      exact ih hmerge (by omega)

/-- A forest of one root is the tree of R40. -/
theorem treeInv {t : State} {f : Word32}
    (h : ForestInv t.fm t.k.toNat t.total.toNat [⟨f, t.root.toNat⟩] t.nn.toNat t.nm) : TreeInv t := by
  have hsize := h.size
  have hold := h.old
  simp only [List.length_cons, List.length_nil] at hsize
  have hroots : ∀ i, isCandidate t.nm t.nn.toNat i ↔ i = t.root.toNat := fun i => by
    simpa using (h.roots i).symm
  have hroot : t.root.toNat = t.nn.toNat - 1 := by
    refine ((hroots _).mp ⟨by omega, fun m hm hc => ?_⟩).symm
    have := h.child_lt hc
    omega
  refine ⟨by omega, by omega, h.keys, hroot, h.leaves, h.internals, fun i hi hne => ?_, fun m hc => ?_, ?_, h.least⟩
  · have hnot : ¬isCandidate t.nm t.nn.toNat i := fun hc => hne ((hroots i).mp hc)
    simp only [isCandidate, not_and, not_forall, not_not] at hnot
    obtain ⟨m, -, hc⟩ := hnot hi
    exact ⟨m, hc, fun m' hc' => h.single i m' m hc' hc⟩
  · exact ((hroots _).mpr rfl).2 m (h.child_lt hc).2 hc
  · obtain ⟨n, hn, hf⟩ := h.freqs _ List.mem_cons_self
    have htot := h.total
    simp only [List.map_cons, List.map_nil, List.sum_cons, List.sum_nil, Nat.add_zero] at htot
    exact ⟨n, hn, BitVec.eq_of_toNat_eq (by rw [hf, htot])⟩

end ForestInv

/-! The leaves -/

/-- The slots of a map whose valid entries are those below `k`, in order. -/
theorem readSlots_of_keys {fm : Table FmEntry} {k : Nat} (h : fm.map Prod.fst = List.range k) :
    readSlots fm 0 k = some (fm.map Prod.snd) := by
  obtain ⟨es, hes⟩ := readSlots_isSome (fm := fm) (i := 0) (n := k)
    (fun j _ hj => Table.exists_of_keys h (by omega))
  obtain ⟨hlen, hread⟩ := readSlots_some hes
  have hk : fm.length = k := by simpa using congrArg List.length h
  rw [hes, Option.some_inj]
  refine List.ext_getElem (by simp [hlen, hk]) fun j hj hj' => ?_
  rw [List.length_map] at hj'
  have hkey : fm[j].1 = j := by
    have : (fm.map Prod.fst)[j]'(by simpa using hj') = (List.range k)[j]'(by simpa [← hk] using hj') :=
      List.getElem_of_eq h _
    simpa using this
  have hmem : (j, fm[j].2) ∈ fm := by
    have : fm[j] ∈ fm := List.getElem_mem hj'
    rwa [show fm[j] = (j, fm[j].2) from Prod.ext hkey rfl] at this
  have := hread j hj
  rw [Nat.zero_add, Table.read_of_mem (Table.wf_of_keys h) hmem] at this
  simpa using (Option.some_inj.mp this).symm

theorem leafRoots_idx (i : Nat) (es : List FmEntry) :
    (leafRoots i es).map ForestRoot.idx = List.range' i es.length := by
  induction es generalizing i with
  | nil => rfl
  | cons e es ih => simp [leafRoots, ih, List.range'_succ]

theorem leafRoots_freq (i : Nat) (es : List FmEntry) :
    (leafRoots i es).map (fun x => x.freq.toNat) = es.map (fun e => e.cnt.toNat) := by
  induction es generalizing i with
  | nil => rfl
  | cons e es ih => simp [leafRoots, ih]

/-- An element of the initial collection is one of the leaves. -/
theorem mem_leafRoots {es : List FmEntry} {i : Nat} {x : ForestRoot} (h : x ∈ leafRoots i es) :
    ∃ j, ∃ hj : j < es.length, x = ⟨es[j].cnt, i + j⟩ := by
  induction es generalizing i with
  | nil => cases h
  | cons e es ih =>
    rcases List.mem_cons.mp h with rfl | h
    · exact ⟨0, by simp, rfl⟩
    · obtain ⟨j, hj, rfl⟩ := ih h
      exact ⟨j + 1, by simpa using hj, by simp [Nat.add_assoc, Nat.add_comm 1]⟩

/-- Before the first merge every leaf is a root of the forest (R111). -/
theorem forestInv_leaves {fm : Table FmEntry} {k : Nat} (h : fm.map Prod.fst = List.range k) :
    ForestInv fm k (fm.map (fun e => e.2.cnt.toNat)).sum (leafRoots 0 (fm.map Prod.snd)) k
      (writeLeaves [] 0 (fm.map Prod.snd)) := by
  obtain ⟨hlen, hslot⟩ := readSlots_some (readSlots_of_keys h)
  have hleaf := writeLeaves_read [] 0 (fm.map Prod.snd)
  have hkeys := writeLeaves_keys (nm := []) (i := 0) rfl (fm.map Prod.snd)
  simp only [Nat.zero_add] at hslot hleaf hkeys
  have hnot : ∀ m i, ¬isChild (writeLeaves [] 0 (fm.map Prod.snd)) m i := by
    rintro m i ⟨f, l, r, hm, -⟩
    rcases Nat.lt_or_ge m (fm.map Prod.snd).length with hj | hj
    · rw [hleaf m hj] at hm; cases hm
    · rw [Table.none_of_keys hkeys hj] at hm; cases hm
  have hroots : (leafRoots 0 (fm.map Prod.snd)).length = k := by
    simpa [← hlen] using congrArg List.length (leafRoots_idx 0 (fm.map Prod.snd))
  refine
    { size := by omega
      old := le_rfl
      keys := hlen ▸ hkeys
      leaves := fun i hi => ⟨_, hslot i (hlen ▸ hi), hleaf i (hlen ▸ hi)⟩
      internals := fun m hk hm => absurd hk (by omega)
      single := fun i m m' hc => absurd hc (hnot m i)
      distinct := by rw [leafRoots_idx]; exact List.nodup_range'
      roots := fun i => by
        rw [leafRoots_idx, hlen, List.mem_range'_1]
        exact ⟨fun hi => ⟨by omega, fun m _ => hnot m i⟩, fun hi => ⟨by omega, by have := hi.1; omega⟩⟩
      freqs := fun x hx => ?_
      total := by rw [leafRoots_freq, List.map_map]; rfl
      least := fun m f l r hm => absurd ⟨f, l, r, hm, .inl rfl⟩ (hnot m l.toNat) }
  obtain ⟨j, hj, rfl⟩ := mem_leafRoots hx
  exact ⟨_, by rw [Nat.zero_add]; exact hleaf j hj, rfl⟩

/-- BUILD makes the tree of the spec (R110 to R116). -/
theorem treeInv_buildTree {s : State} (hm : MapInv s) (hnm : s.nm = []) {e : FmEntry} {es : List FmEntry}
    (hr : readSlots s.fm 0 s.k.toNat = some (e :: es)) : TreeInv (installTree (buildTree s.nm e es) s) := by
  have hkmax := hm.legal.2
  have hroom := hm.room
  have hes : s.fm.map Prod.snd = e :: es := Option.some_inj.mp ((readSlots_of_keys hm.keys).symm.trans hr)
  have h0 := forestInv_leaves hm.keys
  have hlen := (readSlots_some hr).1
  rw [hes, ← hm.total] at h0
  obtain ⟨f, hf⟩ := ForestInv.mergeLoop (pq := leafRoots 1 es) (x := ⟨e.cnt, 0⟩) (fuel := es.length) h0 (by omega)
    s.total.isLt (by simpa using congrArg List.length (leafRoots_idx 1 es))
  have hbuild : buildTree s.nm e es =
      mergeLoop es.length ⟨e.cnt, 0⟩ (leafRoots 1 es) s.k.toNat (writeLeaves [] 0 (e :: es)) := by
    rw [buildTree, hnm, ← hlen, List.length_cons]
  rw [← hbuild] at hf
  have hsize := hf.size
  have hlt := hf.idx_lt List.mem_cons_self
  simp only [List.length_cons, List.length_nil] at hsize hlt
  have hnn : (installTree (buildTree s.nm e es) s).nn.toNat = (buildTree s.nm e es).nn := by
    rw [installTree_nn, BitVec.toNat_ofNat]; omega
  have hroot : (installTree (buildTree s.nm e es) s).root.toNat = (buildTree s.nm e es).root := by
    rw [installTree_root, BitVec.toNat_ofNat]; omega
  exact ForestInv.treeInv (f := f) (by rw [hnn, hroot]; exact hf)

end Sys2Proof.Machine
end

