-- ==== Sys2Proof/Proofs/Codes.lean ====
section
/-! Paths in the tree and the codes GENTAB writes (R130 to R134). -/

namespace Sys2Proof.Machine

/-! The nodes of the tree -/

namespace TreeInv

variable {s : State}

/-- The leaves are the nodes below K (R40). -/
theorem leaf_lt (h : TreeInv s) {i : Nat} {f : Word32} {a : Symbol} (hi : Table.read s.nm i = some (.leaf f a)) :
    i < s.k.toNat := by
  by_contra hk
  have hn : i < s.nn.toNat := (Table.read_isSome_of_keys h.keys i).mp (by simp [hi])
  obtain ⟨g, l, r, a, b, hint, -⟩ := h.internals i (by omega) hn
  rw [hi] at hint; cases hint

/-- The internal nodes are those from K on. -/
theorem internal_ge (h : TreeInv s) {i : Nat} {f l r : Word32} (hi : Table.read s.nm i = some (.internal f l r)) :
    s.k.toNat ≤ i := by
  by_contra hk
  obtain ⟨e, -, hl⟩ := h.leaves i (by omega)
  rw [hi] at hl; cases hl

/-- A child is older than its parent, and its parent is a node (R40 (b)). -/
theorem child_lt (h : TreeInv s) {m i : Nat} (hc : isChild s.nm m i) : i < m ∧ m < s.nn.toNat := by
  obtain ⟨f, l, r, hm, hi⟩ := hc
  have hmn : m < s.nn.toNat := (Table.read_isSome_of_keys h.keys m).mp (by simp [hm])
  obtain ⟨f', l', r', a, b, hm', hl, hr, -⟩ := h.internals m (h.internal_ge hm) hmn
  rw [hm] at hm'; cases hm'
  rcases hi with rfl | rfl
  · exact ⟨hl, hmn⟩
  · exact ⟨hr, hmn⟩

/-- The child a bit selects is a node, and it is not the root. -/
theorem bit_child (h : TreeInv s) {m : Nat} {f l r : Word32} (hm : Table.read s.nm m = some (.internal f l r))
    (bit : Bool) : (if bit then r else l).toNat < s.nn.toNat ∧ (if bit then r else l) ≠ s.root := by
  have hc : isChild s.nm m (if bit then r else l).toNat := ⟨f, l, r, hm, by cases bit <;> simp⟩
  exact ⟨(h.child_lt hc).1.trans (h.child_lt hc).2, fun heq => h.rootFree m (heq ▸ hc)⟩

/-- With one leaf the root is that leaf (R117). -/
theorem root_leaf (h : TreeInv s) (hk : s.k.toNat = 1) : ∃ f a, Table.read s.nm s.root.toNat = some (.leaf f a) := by
  have hsize := h.size
  have hroot := h.root
  obtain ⟨e, -, hl⟩ := h.leaves s.root.toNat (by omega)
  exact ⟨_, _, hl⟩

/-- With two leaves or more the root is internal. -/
theorem root_internal (h : TreeInv s) (hk : 2 ≤ s.k.toNat) :
    ∃ f l r, Table.read s.nm s.root.toNat = some (.internal f l r) := by
  have hsize := h.size
  have hroot := h.root
  obtain ⟨f, l, r, a, b, hm, -⟩ := h.internals s.root.toNat (by omega) (by omega)
  exact ⟨f, l, r, hm⟩

/-- An internal root: there are two leaves or more. -/
theorem two_le_of_root_internal (h : TreeInv s) {f l r : Word32}
    (hr : Table.read s.nm s.root.toNat = some (.internal f l r)) : 2 ≤ s.k.toNat := by
  have := h.internal_ge hr
  have := h.root
  have := h.size
  have := h.nonempty
  omega

/-- Every node has a path from the root (R40 (d)): climb to its parent, which is younger, until the root. -/
theorem exists_path (h : TreeInv s) {i : Nat} (hi : i < s.nn.toNat) : ∃ p, followPath s.nm s.root.toNat p = some i := by
  by_cases hroot : i = s.root.toNat
  · exact ⟨[], by rw [hroot]; rfl⟩
  · obtain ⟨m, hc, -⟩ := h.owned i hi hroot
    have hlt := h.child_lt hc
    obtain ⟨p, hp⟩ := h.exists_path hlt.2
    obtain ⟨f, l, r, hm, rfl | rfl⟩ := hc
    · exact ⟨p ++ [false], by simp [followPath_append hp, followPath, hm]⟩
    · exact ⟨p ++ [true], by simp [followPath_append hp, followPath, hm]⟩
termination_by s.nn.toNat - i

/-- A leaf's path from the root of a tree with two leaves or more has a bit. -/
theorem path_ne_nil (h : TreeInv s) (hk : 2 ≤ s.k.toNat) {i : Nat} (hi : i < s.k.toNat) {p : List Bool}
    (hp : followPath s.nm s.root.toNat p = some i) : p ≠ [] := by
  rintro rfl
  obtain ⟨f, l, r, hm⟩ := h.root_internal hk
  have : s.root.toNat = i := Option.some_inj.mp hp
  have := h.internal_ge hm
  omega

end TreeInv

/-! The walk of GENTAB -/

/-- Where the walk stands for leaf `i` after walking node `n`: its entry is `path` and a path from `n` to it, or there
is no such path and its entry is the old one. -/
def walkedTo (nm : Table Node) (n : Nat) (path : List Bool) (ct ct' : Table CtEntry) (i : Nat) : Prop :=
  (∃ q f a, followPath nm n q = some i ∧ Table.read nm i = some (.leaf f a) ∧
    Table.read ct' i = some ⟨a, path ++ q⟩) ∨
  ((∀ q f a, followPath nm n q = some i → Table.read nm i ≠ some (.leaf f a)) ∧ Table.read ct' i = Table.read ct i)

/-- What the walk of a node writes (R130, R131). -/
theorem walk_walkedTo {nm : Table Node} {fuel n : Nat} {path : List Bool} {ct ct' : Table CtEntry}
    (h : walk nm fuel n path ct = .ok ct') (i : Nat) : walkedTo nm n path ct ct' i := by
  induction fuel generalizing n path ct ct' with
  | zero => cases h
  | succ fuel ih =>
    rw [walk] at h
    split at h
    · cases h
    · next f a hn =>
      cases h
      by_cases hi : i = n
      · subst hi
        exact .inl ⟨[], f, a, rfl, hn, by simp⟩
      · refine .inr ⟨fun q g b hq => ?_, Table.read_write_other _ _ hi⟩
        rw [followPath_leaf hn hq] at hq
        exact absurd (Option.some_inj.mp hq).symm hi
    · next f l r hn =>
      split at h
      · cases h
      · next ct₁ hleft =>
        have hstep : ∀ b q, followPath nm n (b :: q) = followPath nm (if b then r else l).toNat q :=
          fun b q => by simp [followPath, hn]
        rcases ih h with ⟨q, g, a, hq, hi, hr⟩ | ⟨hno, hr⟩
        · exact .inl ⟨true :: q, g, a, by rw [hstep]; exact hq, hi, by simpa using hr⟩
        · rcases ih hleft with ⟨q, g, a, hq, hi, hr'⟩ | ⟨hno', hr'⟩
          · exact .inl ⟨false :: q, g, a, by rw [hstep]; exact hq, hi, by simpa [hr] using hr'⟩
          · refine .inr ⟨fun q g a hq => ?_, hr.trans hr'⟩
            match q with
            | [] => obtain rfl := Option.some_inj.mp hq; simp [hn]
            | false :: q => exact hno' q g a (by rw [hstep] at hq; exact hq)
            | true :: q => exact hno q g a (by rw [hstep] at hq; exact hq)

/-- The walk keeps the code table in canonical form. -/
theorem walk_wf {nm : Table Node} {fuel n : Nat} {path : List Bool} {ct ct' : Table CtEntry}
    (h : walk nm fuel n path ct = .ok ct') (hw : Table.wf ct) : Table.wf ct' := by
  induction fuel generalizing n path ct ct' with
  | zero => cases h
  | succ fuel ih =>
    rw [walk] at h
    split at h
    · cases h
    · cases h; exact Table.wf_write hw _ _
    · split at h
      · cases h
      · next hleft => exact ih h (ih hleft hw)

/-- A table in canonical form is known by which indices read an entry. -/
theorem Table.keys_eq_range {α : Type} {t : Table α} (hw : Table.wf t) {n : Nat}
    (h : ∀ i, (Table.read t i).isSome = true ↔ i < n) : t.map Prod.fst = List.range n :=
  List.Pairwise.eq_of_mem_iff hw List.pairwise_lt_range fun i => by
    rw [← Table.read_isSome_iff, h, List.mem_range]

/-- The code table GENTAB makes from an empty one holds, for each leaf and no other index, its symbol and its code. -/
theorem codeTable_spec {s : State} {ct : Table CtEntry} (h : TreeInv s) (hct : s.ct = []) (hc : codeTable s = .ok ct) :
    Table.wf ct ∧ (∀ i < s.k.toNat, ∃ f c, Table.read s.nm i = some (.leaf f c.sym) ∧ Table.read ct i = some c ∧
      isCodeOf s i c.bits) ∧ ∀ i, s.k.toNat ≤ i → Table.read ct i = none := by
  have hwf : Table.wf ([] : Table CtEntry) := by simp [Table.wf]
  rw [codeTable, hct] at hc
  split at hc
  · next f a hr =>
    cases hc
    have hlt := h.leaf_lt hr
    have hroot := h.root
    have hsize := h.size
    refine ⟨Table.wf_write hwf _ _, fun i hi => ?_, fun i hi => Table.read_write_other _ _ (by omega)⟩
    obtain rfl : i = s.root.toNat := by omega
    exact ⟨f, ⟨a, [false]⟩, hr, by simp, by rw [isCodeOf, if_pos (by omega)]⟩
  · next hno =>
    have hk : s.k.toNat ≠ 1 := fun hk => by
      obtain ⟨f, a, hr⟩ := h.root_leaf hk
      exact hno f a hr
    refine ⟨walk_wf hc hwf, fun i hi => ?_, fun i hi => ?_⟩
    · obtain ⟨e, -, hleaf⟩ := h.leaves i hi
      have hsize := h.size
      obtain ⟨p, hp⟩ := h.exists_path (i := i) (by omega)
      rcases walk_walkedTo hc i with ⟨q, f, a, hq, hl, hr⟩ | ⟨hnone, -⟩
      · exact ⟨f, _, hl, hr, by rw [isCodeOf, if_neg hk]; exact hq⟩
      · exact absurd hleaf (hnone p _ _ hp)
    · rcases walk_walkedTo hc i with ⟨q, f, a, hq, hl, hr⟩ | ⟨-, hr⟩
      · exact absurd (h.leaf_lt hl) (by omega)
      · exact hr

/-- GENTAB leaves the code table of R41. -/
theorem codeInv_gentab {s : State} {ct : Table CtEntry} (h : TreeInv s) (hct : s.ct = []) (hc : codeTable s = .ok ct) :
    CodeInv { s with ct := ct, phase := .ready } := by
  obtain ⟨hwf, hleaf, hnone⟩ := codeTable_spec h hct hc
  refine ⟨Table.keys_eq_range hwf fun i => ?_, fun i hi => ?_⟩
  · rcases Nat.lt_or_ge i s.k.toNat with hi | hi
    · obtain ⟨f, c, -, hr, -⟩ := hleaf i hi
      simp [hr, hi]
    · simp [hnone i hi, hi]
  · obtain ⟨f, c, hl, hr, hcode⟩ := hleaf i hi
    obtain ⟨e, he, hl'⟩ := h.leaves i hi
    rw [hl] at hl'
    exact ⟨e, c, he, hr, (Node.leaf.inj (Option.some_inj.mp hl')).2, hcode⟩

/-! The codes of a state in READY -/

/-- A valid entry of the code table is at a slot of the map, with the code of its leaf (R41). -/
theorem CodeInv.read_code {s : State} (h : CodeInv s) {i : Nat} {c : CtEntry} (hc : Table.read s.ct i = some c) :
    i < s.k.toNat ∧ isCodeOf s i c.bits := by
  have hi : i < s.k.toNat := (Table.read_isSome_of_keys h.keys i).mp (by simp [hc])
  obtain ⟨e, c', -, hr, -, hcode⟩ := h.codes i hi
  obtain rfl : c = c' := Option.some_inj.mp (hc.symm.trans hr)
  exact ⟨hi, hcode⟩

/-- Every code has a bit (R135). -/
theorem code_ne_nil {s : State} (ht : TreeInv s) (hc : CodeInv s) {i : Nat} {c : CtEntry}
    (h : Table.read s.ct i = some c) : c.bits ≠ [] := by
  obtain ⟨hi, hcode⟩ := hc.read_code h
  by_cases hk : s.k.toNat = 1
  · rw [isCodeOf, if_pos hk] at hcode; simp [hcode]
  · rw [isCodeOf, if_neg hk] at hcode
    exact ht.path_ne_nil (by have := ht.nonempty; omega) hi hcode

end Sys2Proof.Machine
end

