-- ==== Sys2Proof/Proofs/Effects.lean ====
section
/-! What a command can do, said once: the next states `exec` can answer, with the conditions under which it does. -/

namespace Sys2Proof.Machine

/-- The phase check of the model is the table of R88. -/
theorem accepts_iff_phaseCondition (i : Instr) (s : State) : accepts i s = true ↔ phaseCondition i s := by
  cases i <;> simp [accepts, phaseCondition]

/-- `Effect i s t`: command `i` may take state `s` to state `t`. One constructor for each way a command ends, the
refusals in one and the commands that only answer a value in one. -/
inductive Effect : Instr → State → State → Prop where
  /-- A fault that changes the error registers only (R203, R118). -/
  | fault {i s} (x : FaultKind) (info : Word32) : Effect i s (raiseFault x info s)
  /-- OK with no other change: NOP, the readbacks, FADD with a count of 0. -/
  | answer {i s} (d : Word32) : Effect i s (respondOk d s)
  /-- RST (R176). -/
  | rst {s} : Effect .rst s (respondOk 0 (softReset s))
  /-- ECLR (R177). -/
  | eclr {s} : Effect .eclr s (respondOk 0 (clearFaults s))
  /-- FSYM and FADD of a new symbol (R101, R102). -/
  | countNew {i s} (sym : Symbol) (cnt : Word32) (hi : i = .fsym sym ∨ i = .fadd sym cnt) (hp : s.phase = .collect)
      (hc : cnt ≠ 0) (hl : Table.lookup FmEntry.sym s.fm sym = none) (hk : s.k.toNat < s.kMax)
      (hf : fitsCounter s.total cnt.toNat = true) :
      Effect i s (respondOk 0
        { s with fm := Table.write s.fm s.k.toNat ⟨sym, cnt⟩, k := s.k + 1, total := s.total + cnt })
  /-- FSYM and FADD of a symbol of the map (R101). -/
  | countMore {i s} (sym : Symbol) (cnt : Word32) (slot : Nat) (e : FmEntry) (hi : i = .fsym sym ∨ i = .fadd sym cnt)
      (hp : s.phase = .collect) (hl : Table.lookup FmEntry.sym s.fm sym = some (slot, e))
      (hf : fitsCounter s.total cnt.toNat = true) :
      Effect i s (respondOk 0
        { s with fm := Table.write s.fm slot ⟨e.sym, e.cnt + cnt⟩, total := s.total + cnt })
  /-- BUILD (R110). -/
  | build {s} (e : FmEntry) (es : List FmEntry) (hp : s.phase = .collect)
      (hr : readSlots s.fm 0 s.k.toNat = some (e :: es)) :
      Effect .build s (respondOk 0 (installTree (buildTree s.nm e es) s))
  /-- GENTAB (R130). -/
  | gentab {s} (ct : Table CtEntry) (hp : s.phase = .built) (hc : codeTable s = .ok ct) :
      Effect .gentab s (respondOk 0 { s with ct := ct, phase := .ready })
  /-- EBEG (R140). -/
  | ebeg {s} (hp : s.phase = .ready) (ha : s.encAct = false) :
      Effect .ebeg s (respondOk 0 { s with encAct := true, encLen := 0, encCnt := 0 })
  /-- ESYM of a symbol with no code (R143). -/
  | esymUnknown {s} (sym : Symbol) (ha : s.encAct = true) :
      Effect (.esym sym) s (raiseFault .unknownSymbol (sym.setWidth 32) (abortEncode s))
  /-- ESYM of a symbol with a code (R141). -/
  | esym {s} (sym : Symbol) (slot : Nat) (e : CtEntry) (ha : s.encAct = true)
      (hl : Table.lookup CtEntry.sym s.ct sym = some (slot, e)) (hf : fitsCounter s.encLen e.bits.length = true) :
      Effect (.esym sym) s (respondOk 0 (appendCode e.bits s))
  /-- EEND (R142). -/
  | eend {s} (ha : s.encAct = true) :
      Effect .eend s (respondOk 0 (emit [.bo .endFrame] { s with encAct := false }))
  /-- DBEG (R155). -/
  | dbeg {s} (hp : s.phase ≠ .collect) (ha : s.decAct = false) :
      Effect .dbeg s (respondOk 0 { s with decAct := true, cur := s.root, decBits := 0, decCnt := 0 })
  /-- DBIT on a single-symbol tree (R163). -/
  | dbitSingle {s} (bit : Bool) (f : Word32) (sym : Symbol) (ha : s.decAct = true)
      (hf : fitsCounter s.decBits 1 = true) (hr : Table.read s.nm s.root.toNat = some (.leaf f sym)) :
      Effect (.dbit bit) s (respondOk 0 { emitSymbol sym s with decBits := s.decBits + 1 })
  /-- DBIT at a leaf (R156, R160). -/
  | dbitLeaf {s} (bit : Bool) (f l r g : Word32) (sym : Symbol) (ha : s.decAct = true)
      (hf : fitsCounter s.decBits 1 = true) (hr : Table.read s.nm s.root.toNat = some (.internal f l r))
      (hc : Table.read s.nm s.cur.toNat = some (.leaf g sym)) :
      Effect (.dbit bit) s (respondOk 0 { descend bit l r (emitSymbol sym s) with decBits := s.decBits + 1 })
  /-- DBIT at an internal node (R156, R160). -/
  | dbitInternal {s} (bit : Bool) (f l r g l' r' : Word32) (ha : s.decAct = true)
      (hf : fitsCounter s.decBits 1 = true) (hr : Table.read s.nm s.root.toNat = some (.internal f l r))
      (hc : Table.read s.nm s.cur.toNat = some (.internal g l' r')) :
      Effect (.dbit bit) s (respondOk 0 { descend bit l' r' s with decBits := s.decBits + 1 })
  /-- DEND on a single-symbol tree (R163). -/
  | dendSingle {s} (ha : s.decAct = true) :
      Effect .dend s (respondOk 0 (emit [.so .endFrame] { s with decAct := false }))
  /-- DEND at a leaf (R161). -/
  | dendLeaf {s} (f l r g : Word32) (sym : Symbol) (ha : s.decAct = true)
      (hr : Table.read s.nm s.root.toNat = some (.internal f l r))
      (hc : Table.read s.nm s.cur.toNat = some (.leaf g sym)) :
      Effect .dend s (respondOk 0 (emit [.so .endFrame] { emitSymbol sym s with decAct := false }))
  /-- DEND at an internal node (R162). -/
  | dendTruncated {s} (ha : s.decAct = true) :
      Effect .dend s (raiseFault .truncatedInput s.cur (abortDecode s))

theorem Effect.of_readback {i : Instr} {v : Option Word32} {s t : State} (h : readback i v s = .next t) :
    Effect i s t := by
  rcases readback_cases h with ⟨d, -, rfl⟩ | ⟨-, rfl⟩
  · exact .answer d
  · exact .fault _ _

theorem Effect.of_countSymbol {i : Instr} {sym : Symbol} {cnt : Word32} {s t : State}
    (hi : i = .fsym sym ∨ i = .fadd sym cnt) (h : countSymbol i sym cnt s = .next t) : Effect i s t := by
  have hp : accepts i s = true → s.phase = .collect := fun ha => by
    rcases hi with rfl | rfl <;> exact (accepts_iff_phaseCondition _ s).mp ha
  rcases countSymbol_cases h with ⟨-, ⟨⟩⟩ | ⟨-, -, ⟨⟩⟩ | ⟨-, -, -, ⟨⟩⟩ | ⟨ha, hc, hl, hk, hf, ⟨⟩⟩ |
    ⟨slot, e, ha, -, hl, hf, ⟨⟩⟩
  · exact .fault _ _
  · exact .answer _
  · exact .fault _ _
  · exact .countNew sym cnt hi (hp ha) hc hl hk hf
  · exact .countMore sym cnt slot e hi (hp ha) hl hf

theorem Effect.of_execBuild {s t : State} (h : execBuild s = .next t) : Effect .build s t := by
  rcases execBuild_cases h with ⟨-, ⟨⟩⟩ | ⟨-, -, ⟨⟩⟩ | ⟨e, es, ha, -, hr, ⟨⟩⟩ | ⟨-, -, -, ⟨⟩⟩
  · exact .fault _ _
  · exact .fault _ _
  · exact .build e es ((accepts_iff_phaseCondition _ s).mp ha) hr

theorem Effect.of_execGentab {s t : State} (h : execGentab s = .next t) : Effect .gentab s t := by
  rcases execGentab_cases h with ⟨-, ⟨⟩⟩ | ⟨ct, ha, hc, ⟨⟩⟩ | ⟨f, -, -, ⟨⟩⟩
  · exact .fault _ _
  · exact .gentab ct ((accepts_iff_phaseCondition _ s).mp ha) hc

theorem Effect.of_execEbeg {s t : State} (h : execEbeg s = .next t) : Effect .ebeg s t := by
  rcases checked_cases h with ⟨ha, ⟨⟩⟩ | ⟨-, ⟨⟩⟩
  · obtain ⟨hp, he⟩ := (accepts_iff_phaseCondition .ebeg s).mp ha
    exact .ebeg hp he
  · exact .fault _ _

theorem Effect.of_execEsym {sym : Symbol} {s t : State} (h : execEsym sym s = .next t) : Effect (.esym sym) s t := by
  rcases execEsym_cases h with ⟨-, ⟨⟩⟩ | ⟨ha, -, ⟨⟩⟩ | ⟨_, _, -, -, -, ⟨⟩⟩ | ⟨slot, e, ha, hl, hf, ⟨⟩⟩
  · exact .fault _ _
  · exact .esymUnknown sym ha
  · exact .fault _ _
  · exact .esym sym slot e ha hl hf

theorem Effect.of_execEend {s t : State} (h : execEend s = .next t) : Effect .eend s t := by
  rcases checked_cases h with ⟨ha, ⟨⟩⟩ | ⟨-, ⟨⟩⟩
  · exact .eend ha
  · exact .fault _ _

theorem Effect.of_execDbeg {s t : State} (h : execDbeg s = .next t) : Effect .dbeg s t := by
  rcases checked_cases h with ⟨ha, ⟨⟩⟩ | ⟨-, ⟨⟩⟩
  · obtain ⟨hp, hd⟩ := (accepts_iff_phaseCondition .dbeg s).mp ha
    exact .dbeg (by rcases hp with hp | hp <;> simp [hp]) hd
  · exact .fault _ _

theorem Effect.of_execDbit {bit : Bool} {s t : State} (h : execDbit bit s = .next t) : Effect (.dbit bit) s t := by
  rcases execDbit_cases h with ⟨-, ⟨⟩⟩ | ⟨-, -, ⟨⟩⟩ | ⟨f, sym, ha, hf, hr, ⟨⟩⟩ |
    ⟨f, l, r, g, sym, ha, hf, hr, hc, ⟨⟩⟩ | ⟨f, l, r, g, l', r', ha, hf, hr, hc, ⟨⟩⟩ | ⟨-, -, -, ⟨⟩⟩
  · exact .fault _ _
  · exact .fault _ _
  · exact .dbitSingle bit f sym ha hf hr
  · exact .dbitLeaf bit f l r g sym ha hf hr hc
  · exact .dbitInternal bit f l r g l' r' ha hf hr hc

theorem Effect.of_execDend {s t : State} (h : execDend s = .next t) : Effect .dend s t := by
  rcases execDend_cases h with ⟨-, ⟨⟩⟩ | ⟨_, _, ha, -, ⟨⟩⟩ | ⟨f, l, r, g, sym, ha, hr, hc, ⟨⟩⟩ |
    ⟨_, _, _, _, _, _, ha, -, -, ⟨⟩⟩ | ⟨-, -, ⟨⟩⟩
  · exact .fault _ _
  · exact .dendSingle ha
  · exact .dendLeaf f l r g sym ha hr hc
  · exact .dendTruncated ha

/-- All a command can do that answers a next state. -/
theorem exec_effect {i : Instr} {s t : State} (h : exec i s = .next t) : Effect i s t := by
  cases i with
  | nop => cases h; exact .answer 0
  | rst => cases h; exact .rst
  | eclr => cases h; exact .eclr
  | fsym sym => exact .of_countSymbol (.inl rfl) h
  | fadd sym cnt => exact .of_countSymbol (.inr rfl) h
  | build => exact .of_execBuild h
  | gentab => exact .of_execGentab h
  | ebeg => exact .of_execEbeg h
  | esym sym => exact .of_execEsym h
  | eend => exact .of_execEend h
  | dbeg => exact .of_execDbeg h
  | dbit bit => exact .of_execDbit h
  | dend => exact .of_execDend h
  | rdr regno => exact .of_readback h
  | rdf idx sel => exact .of_readback h
  | rdn idx sel => exact .of_readback h
  | rdc idx sel => exact .of_readback h

end Sys2Proof.Machine
end

