-- ==== Sys2Proof/Proofs/Invariant.lean ====
section
/-! Every step keeps the invariant: each part of `Inv` depends on its own fields only, and each effect of a command
keeps each part. -/

namespace Sys2Proof.Machine

/-! The streams after each output -/

@[simp] theorem emit_bo (items : List OutItem) (s : State) :
    (emit items s).bo = s.bo ++ items.filterMap OutItem.toBo := bo_of_out rfl
@[simp] theorem emit_so (items : List OutItem) (s : State) :
    (emit items s).so = s.so ++ items.filterMap OutItem.toSo := so_of_out rfl
@[simp] theorem respondOk_bo (d : Word32) (s : State) : (respondOk d s).bo = s.bo := by simp [respondOk]
@[simp] theorem respondOk_so (d : Word32) (s : State) : (respondOk d s).so = s.so := by simp [respondOk]
@[simp] theorem raiseFault_bo (x : FaultKind) (info : Word32) (s : State) : (raiseFault x info s).bo = s.bo := by
  simp [raiseFault, State.bo]
@[simp] theorem raiseFault_so (x : FaultKind) (info : Word32) (s : State) : (raiseFault x info s).so = s.so := by
  simp [raiseFault, State.so]
@[simp] theorem abortEncode_bo (s : State) : (abortEncode s).bo = s.bo ++ [.abort] := by simp [State.bo]
@[simp] theorem abortEncode_so (s : State) : (abortEncode s).so = s.so := by simp [State.so]
@[simp] theorem appendCode_bo (bits : List Bool) (s : State) :
    (appendCode bits s).bo = s.bo ++ bits.map BoItem.bit := by
  simp [State.bo]
@[simp] theorem appendCode_so (bits : List Bool) (s : State) : (appendCode bits s).so = s.so := by simp [State.so]
@[simp] theorem emitSymbol_bo (sym : Symbol) (s : State) : (emitSymbol sym s).bo = s.bo := by simp [State.bo]
@[simp] theorem emitSymbol_so (sym : Symbol) (s : State) : (emitSymbol sym s).so = s.so ++ [.sym sym] := by
  simp [State.so]
@[simp] theorem abortDecode_bo (s : State) : (abortDecode s).bo = s.bo := by simp [State.bo]
@[simp] theorem abortDecode_so (s : State) : (abortDecode s).so = s.so ++ [.abort] := by simp [State.so]
@[simp] theorem softReset_bo (s : State) :
    (softReset s).bo = s.bo ++ if s.encAct = true then [.abort] else [] := by
  rw [bo_of_out (softReset_out s), abortItems, List.filterMap_append]
  split_ifs <;> simp
@[simp] theorem softReset_so (s : State) :
    (softReset s).so = s.so ++ if s.decAct = true then [.abort] else [] := by
  rw [so_of_out (softReset_out s), abortItems, List.filterMap_append]
  split_ifs <;> simp

/-- A counter that fits does not wrap around. -/
theorem fitsCounter_iff (c : Word32) (n : Nat) : fitsCounter c n = true ↔ c.toNat + n < 2 ^ 32 := by
  simp only [fitsCounter, maxWord32, decide_eq_true_eq]; omega

theorem toNat_add_one_of_fits {c : Word32} (h : fitsCounter c 1 = true) : (c + 1).toNat = c.toNat + 1 := by
  rw [fitsCounter_iff] at h
  rw [BitVec.toNat_add]
  exact Nat.mod_eq_of_lt h

/-! What each part of the invariant depends on: `t` may differ from `s` in the fields not named -/

section Congr

variable {s t : State}

theorem MapInv.congr (h : MapInv s) (e : t = { t with kMax := s.kMax, k := s.k, total := s.total, fm := s.fm }) :
    MapInv t := by
  rw [e]
  exact ⟨h.legal, h.room, h.keys, h.distinct, h.counted, h.total⟩

theorem TreeInv.congr (h : TreeInv s)
    (e : t = { t with k := s.k, total := s.total, nn := s.nn, root := s.root, fm := s.fm, nm := s.nm }) :
    TreeInv t := by
  rw [e]
  exact ⟨h.nonempty, h.size, h.keys, h.root, h.leaves, h.internals, h.owned, h.rootFree, h.total, h.least⟩

theorem CodeInv.congr (h : CodeInv s)
    (e : t = { t with k := s.k, root := s.root, fm := s.fm, nm := s.nm, ct := s.ct }) : CodeInv t := by
  rw [e]
  exact ⟨h.keys, h.codes⟩

theorem PhaseInv.congr (h : PhaseInv s)
    (e : t = { t with
      k := s.k, total := s.total, nn := s.nn, root := s.root, phase := s.phase, fm := s.fm, nm := s.nm, ct := s.ct }) :
    PhaseInv t := by
  rw [e]
  exact ⟨h.collect, fun hp => (h.tree hp).congr rfl, h.noTable, fun hp => (h.table hp).congr rfl⟩

theorem FrameInv.congr (h : FrameInv s)
    (e : t = { t with
      k := s.k, nn := s.nn, root := s.root, cur := s.cur, phase := s.phase, encAct := s.encAct, decAct := s.decAct,
      encLen := s.encLen, encCnt := s.encCnt, decBits := s.decBits, decCnt := s.decCnt }) :
    FrameInv t := by
  rw [e]
  exact ⟨h.encReady, h.decBuilt, h.encCount, h.decCount, h.curValid, h.curSingle, h.curWalk⟩

theorem ErrorInv.congr (h : ErrorInv s) (e : t = { t with err := s.err, eLast := s.eLast, eInfo := s.eInfo }) :
    ErrorInv t := by
  rw [e]
  exact ⟨h.mask, h.last, h.clear, h.sticky⟩

theorem StreamInv.congr (h : StreamInv s)
    (e : t = { t with encAct := s.encAct, decAct := s.decAct, encLen := s.encLen, decCnt := s.decCnt })
    (hbo : t.bo = s.bo) (hso : t.so = s.so) : StreamInv t := by
  have he : t.encAct = s.encAct := by rw [e]
  have hl : t.encLen = s.encLen := by rw [e]
  have hd : t.decAct = s.decAct := by rw [e]
  have hn : t.decCnt = s.decCnt := by rw [e]
  exact
    { encOpen := by rw [he, hbo, hl]; exact h.encOpen
      encClosed := by rw [he, hbo]; exact h.encClosed
      decOpen := by rw [hd, hso, hn]; exact h.decOpen
      decClosed := by rw [hd, hso]; exact h.decClosed }

end Congr

/-! Faults, answers, resets -/

variable {s : State}

/-- Raising a fault sets its own bit and its own code (R207). -/
theorem ErrorInv.raiseFault (h : ErrorInv s) (x : FaultKind) (info : Word32) : ErrorInv (raiseFault x info s) := by
  have hmask : (1#32 <<< faultCode x) &&& 0xFFFFFF01 = 0 := by cases x <;> decide
  have hbit : (1#32 <<< faultCode x).getLsbD (BitVec.ofNat 32 (faultCode x)).toNat = true := by cases x <;> decide
  have hcode : BitVec.ofNat 32 (faultCode x) ≠ 0 ∧ (BitVec.ofNat 32 (faultCode x)).toNat ≤ 7 := by cases x <;> decide
  refine ⟨?_, hcode.2, fun h0 => absurd h0 hcode.1, fun _ => ?_⟩
  · rw [raiseFault_err]
    ext i hi
    have h1 := congrArg (fun w => w.getLsbD i) h.mask
    have h2 := congrArg (fun w => w.getLsbD i) hmask
    simp only [BitVec.getLsbD_and, BitVec.getElem_and, BitVec.getElem_or] at h1 h2 ⊢
    simp only [BitVec.getLsbD_eq_getElem hi] at h1 h2
    rw [Bool.and_or_distrib_right, h1, h2]
    simp
  · rw [raiseFault_err, raiseFault_eLast, BitVec.getLsbD_or, hbit, Bool.or_true]

theorem Inv.raiseFault (h : Inv s) (x : FaultKind) (info : Word32) : Inv (raiseFault x info s) :=
  ⟨h.map.congr rfl, h.phase.congr rfl, h.frames.congr rfl, h.errors.raiseFault x info,
    h.streams.congr rfl (by simp) (by simp)⟩

theorem Inv.respondOk (h : Inv s) (d : Word32) : Inv (respondOk d s) :=
  ⟨h.map.congr rfl, h.phase.congr rfl, h.frames.congr rfl, h.errors.congr rfl, h.streams.congr rfl (by simp) (by simp)⟩

theorem Inv.withInput (h : Inv s) (inp : List Input) : Inv { s with inp := inp } :=
  ⟨h.map.congr rfl, h.phase.congr rfl, h.frames.congr rfl, h.errors.congr rfl, h.streams.congr rfl rfl rfl⟩

theorem Inv.clearFaults (h : Inv s) : Inv (clearFaults s) :=
  ⟨h.map.congr rfl, h.phase.congr rfl, h.frames.congr rfl,
    ⟨by simp, by simp, by simp, by simp⟩, h.streams.congr rfl rfl rfl⟩

/-- The reset state of a legal capacity meets the invariant (R50, R230). -/
theorem inv_resetFor {n : Nat} (hn : Config.kMaxLegal n) : Inv (State.resetFor n) where
  map := ⟨hn, Nat.zero_le _, rfl, List.nodup_nil, nofun, rfl⟩
  phase := ⟨fun _ => ⟨rfl, rfl, rfl⟩, fun h => absurd rfl h, fun _ => rfl, nofun⟩
  frames := ⟨nofun, nofun, le_rfl, le_rfl, nofun, nofun, nofun⟩
  errors := ⟨by simp [State.resetFor], Nat.zero_le _, fun _ => ⟨rfl, rfl⟩, fun h => absurd rfl h⟩
  streams := ⟨nofun, fun _ => rfl, nofun, fun _ => rfl⟩

theorem Inv.hardwareReset (h : Inv s) : Inv (hardwareReset s) :=
  (inv_resetFor h.map.legal).withInput s.inp

/-- RST closes the open frames with ABORT and resets the rest (R176). -/
theorem Inv.softReset (h : Inv s) : Inv (softReset s) := by
  have h0 := inv_resetFor h.map.legal
  refine ⟨h0.map.congr rfl, h0.phase.congr rfl, h0.frames.congr rfl, h0.errors.congr rfl,
    ⟨by simp, fun _ => ?_, by simp, fun _ => ?_⟩⟩
  · cases he : s.encAct with
    | true => simp [he]
    | false => simpa [he] using h.streams.encClosed he
  · cases hd : s.decAct with
    | true => simp [hd]
    | false => simpa [hd] using h.streams.decClosed hd

/-! The frequency counter -/

/-- Where a listed index is overwritten, a sum over the entries changes by what the entry changes. -/
theorem Table.sum_overwrite {α : Type} {t : Table α} (hw : Table.wf t) {i : Nat} {x : α} (h : Table.read t i = some x)
    (v : α) (f : α → Nat) :
    ((Table.write t i v).map (fun e => f e.2)).sum + f x = (t.map (fun e => f e.2)).sum + f v := by
  induction t with
  | nil => cases h
  | cons e t ih =>
    obtain ⟨j, y⟩ := e
    have ht := List.pairwise_cons.mp hw
    rw [Table.read] at h
    rw [Table.write]
    split at h
    · next hj => cases h; subst hj; simp; omega
    · next hj =>
      have hji : j < i := ht.1 i (List.mem_map.mpr ⟨_, Table.mem_of_read h, rfl⟩)
      have := ih ht.2 h
      rw [if_neg (by omega), if_neg (by omega)]
      simp only [List.map_cons, List.sum_cons]
      omega

/-- Overwriting a listed index with an entry of the same view leaves the list of views as it is. -/
theorem Table.map_overwrite {α β : Type} {t : Table α} (hw : Table.wf t) {i : Nat} {x : α}
    (h : Table.read t i = some x) (v : α) {f : α → β} (hf : f v = f x) :
    (Table.write t i v).map (fun e => f e.2) = t.map (fun e => f e.2) := by
  induction t with
  | nil => cases h
  | cons e t ih =>
    obtain ⟨j, y⟩ := e
    have ht := List.pairwise_cons.mp hw
    rw [Table.read] at h
    rw [Table.write]
    split at h
    · next hj => cases h; subst hj; simp [hf]
    · next hj =>
      have hji : j < i := ht.1 i (List.mem_map.mpr ⟨_, Table.mem_of_read h, rfl⟩)
      rw [if_neg (by omega), if_neg (by omega)]
      simp only [List.map_cons, ih ht.2 h]

/-- A new symbol takes slot K (R102). -/
theorem MapInv.countNew (h : MapInv s) {sym : Symbol} {cnt : Word32} (hc : cnt ≠ 0)
    (hl : Table.lookup FmEntry.sym s.fm sym = none) (hk : s.k.toNat < s.kMax)
    (hf : fitsCounter s.total cnt.toNat = true) :
    MapInv { s with fm := Table.write s.fm s.k.toNat ⟨sym, cnt⟩, k := s.k + 1, total := s.total + cnt } := by
  have hlegal := h.legal
  rw [fitsCounter_iff] at hf
  obtain ⟨hw, hkeys⟩ := Table.write_next h.keys (FmEntry.mk sym cnt)
  have hk1 : (s.k + 1).toNat = s.k.toNat + 1 := by
    have := hlegal.2
    rw [BitVec.toNat_add]
    exact Nat.mod_eq_of_lt (by show s.k.toNat + 1 < _; omega)
  refine ⟨hlegal, by show (s.k + 1).toNat ≤ s.kMax; omega, by rw [hk1]; exact hkeys, ?_, fun i e he => ?_, ?_⟩
  · show ((Table.write s.fm s.k.toNat ⟨sym, cnt⟩).map (fun e => e.2.sym)).Nodup
    rw [hw, List.map_append]
    refine List.nodup_append.mpr ⟨h.distinct, List.nodup_singleton _, fun a ha b hb hab => ?_⟩
    obtain ⟨e, he, rfl⟩ := List.mem_map.mp ha
    obtain rfl := List.mem_singleton.mp hb
    exact Table.lookup_none hl (Table.read_of_mem (Table.wf_of_keys h.keys) (i := e.1) (x := e.2) he) hab
  · by_cases hi : i = s.k.toNat
    · subst hi
      rw [Table.read_write_same] at he
      cases he
      exact Nat.pos_of_ne_zero fun h0 => hc (BitVec.eq_of_toNat_eq h0)
    · rw [Table.read_write_other _ _ hi] at he
      exact h.counted i e he
  · show (s.total + cnt).toNat = ((Table.write s.fm s.k.toNat ⟨sym, cnt⟩).map (fun e => e.2.cnt.toNat)).sum
    rw [hw, List.map_append, List.sum_append, ← h.total, BitVec.toNat_add, Nat.mod_eq_of_lt hf]
    simp

/-- A symbol of the map keeps its slot, its count rising by `cnt`. -/
theorem MapInv.countMore (h : MapInv s) {sym : Symbol} {cnt : Word32} {slot : Nat} {e : FmEntry}
    (hl : Table.lookup FmEntry.sym s.fm sym = some (slot, e)) (hf : fitsCounter s.total cnt.toNat = true) :
    MapInv { s with fm := Table.write s.fm slot ⟨e.sym, e.cnt + cnt⟩, total := s.total + cnt } := by
  rw [fitsCounter_iff] at hf
  have hw := Table.wf_of_keys h.keys
  have hr := (Table.lookup_some hw hl).1
  have hsum := Table.sum_overwrite hw hr ⟨e.sym, e.cnt + cnt⟩ (fun e => e.cnt.toNat)
  dsimp only at hsum
  have hle : e.cnt.toNat ≤ s.total.toNat := by
    rw [h.total]
    exact List.single_le_sum (by simp) _ (List.mem_map.mpr ⟨_, Table.mem_of_read hr, rfl⟩)
  have hcnt : (e.cnt + cnt).toNat = e.cnt.toNat + cnt.toNat := by
    rw [BitVec.toNat_add]
    exact Nat.mod_eq_of_lt (by omega)
  refine ⟨h.legal, h.room, ?_, ?_, fun i e' he => ?_, ?_⟩
  · exact (Table.keys_overwrite hw (List.mem_map.mpr ⟨_, Table.mem_of_read hr, rfl⟩) _).trans h.keys
  · show ((Table.write s.fm slot ⟨e.sym, e.cnt + cnt⟩).map (fun e => e.2.sym)).Nodup
    rw [Table.map_overwrite hw hr ⟨e.sym, e.cnt + cnt⟩ (f := FmEntry.sym) rfl]
    exact h.distinct
  · by_cases hi : i = slot
    · subst hi
      rw [Table.read_write_same] at he
      cases he
      have := h.counted i e hr
      show 1 ≤ (e.cnt + cnt).toNat
      omega
    · rw [Table.read_write_other _ _ hi] at he
      exact h.counted i e' he
  · show (s.total + cnt).toNat = ((Table.write s.fm slot ⟨e.sym, e.cnt + cnt⟩).map (fun e => e.2.cnt.toNat)).sum
    have := h.total
    rw [BitVec.toNat_add, Nat.mod_eq_of_lt hf]
    omega

/-- In COLLECT no frame is open (R88). -/
theorem FrameInv.closed (h : FrameInv s) (hp : s.phase = .collect) : s.encAct = false ∧ s.decAct = false := by
  refine ⟨Bool.eq_false_iff.mpr fun he => ?_, Bool.eq_false_iff.mpr fun hd => h.decBuilt hd hp⟩
  rw [h.encReady he] at hp; cases hp

/-- With both frames closed the frame invariant is about the counters alone. -/
theorem FrameInv.of_closed {t : State} (h : FrameInv s) (he : t.encAct = false) (hd : t.decAct = false)
    (e : t = { t with encLen := s.encLen, encCnt := s.encCnt, decBits := s.decBits, decCnt := s.decCnt }) :
    FrameInv t := by
  refine ⟨by simp [he], by simp [hd], ?_, ?_, by simp [hd], by simp [hd], by simp [hd]⟩
  · rw [e]; exact h.encCount
  · rw [e]; exact h.decCount

/-- In COLLECT the phase invariant does not look at the map. -/
theorem PhaseInv.of_collect {t : State} (h : PhaseInv s) (hp : s.phase = .collect)
    (e : t = { t with phase := s.phase, nn := s.nn, root := s.root, nm := s.nm, ct := s.ct }) : PhaseInv t := by
  have hpt : t.phase = .collect := (congrArg State.phase e).trans hp
  refine ⟨fun _ => ?_, fun hn => absurd hpt hn, fun _ => ?_, fun hr => by rw [hpt] at hr; cases hr⟩
  · rw [e]; exact h.collect hp
  · rw [e]; exact h.noTable (by simp [hp])

/-- A change of the map in COLLECT that keeps the map's invariant keeps the whole. -/
theorem Inv.withMap (h : Inv s) (hp : s.phase = .collect) {fm : Table FmEntry} {k total : Word32}
    (hm : MapInv { s with fm := fm, k := k, total := total }) : Inv { s with fm := fm, k := k, total := total } := by
  obtain ⟨he, hd⟩ := h.frames.closed hp
  exact ⟨hm, h.phase.of_collect hp rfl, h.frames.of_closed he hd rfl, h.errors.congr rfl, h.streams.congr rfl rfl rfl⟩

/-! The builders -/

theorem Inv.build (h : Inv s) (hp : s.phase = .collect) {e : FmEntry} {es : List FmEntry}
    (hr : readSlots s.fm 0 s.k.toNat = some (e :: es)) : Inv (installTree (buildTree s.nm e es) s) := by
  obtain ⟨he, hd⟩ := h.frames.closed hp
  obtain ⟨hnm, -, -⟩ := h.phase.collect hp
  have hct := h.phase.noTable (by simp [hp])
  exact ⟨h.map.congr rfl,
    ⟨nofun, fun _ => treeInv_buildTree h.map hnm hr, fun _ => hct, nofun⟩,
    h.frames.of_closed he hd rfl, h.errors.congr rfl, h.streams.congr rfl rfl rfl⟩

theorem Inv.gentab (h : Inv s) (hp : s.phase = .built) {ct : Table CtEntry} (hc : codeTable s = .ok ct) :
    Inv { s with ct := ct, phase := .ready } := by
  have ht := h.phase.tree (by simp [hp])
  have hcode := codeInv_gentab ht (h.phase.noTable (by simp [hp])) hc
  have hf := h.frames
  exact ⟨h.map.congr rfl,
    ⟨nofun, fun _ => ht.congr rfl, fun hn => absurd rfl hn, fun _ => hcode⟩,
    ⟨fun _ => rfl, nofun, hf.encCount, hf.decCount, hf.curValid, hf.curSingle, hf.curWalk⟩,
    h.errors.congr rfl, h.streams.congr rfl rfl rfl⟩

/-! The encoder -/

/-- A change of the encoder's registers and of BO alone keeps the invariant when it keeps the encoder's part of it. -/
theorem Inv.withEncoder (h : Inv s) {t : State}
    (e : t = { s with encAct := t.encAct, encLen := t.encLen, encCnt := t.encCnt, out := t.out }) (hso : t.so = s.so)
    (hready : t.encAct = true → s.phase = .ready) (hcount : t.encCnt.toNat ≤ t.encLen.toNat)
    (hopen : t.encAct = true → (openBits t.bo).length = t.encLen.toNat)
    (hclosed : t.encAct = false → openBits t.bo = []) : Inv t := by
  have hf := h.frames
  refine ⟨?_, ?_, ?_, ?_, hopen, hclosed, by rw [hso, e]; exact h.streams.decOpen,
    by rw [hso, e]; exact h.streams.decClosed⟩ <;> rw [e]
  · exact h.map.congr rfl
  · exact h.phase.congr rfl
  · exact ⟨hready, hf.decBuilt, hcount, hf.decCount, hf.curValid, hf.curSingle, hf.curWalk⟩
  · exact h.errors.congr rfl

theorem Inv.ebeg (h : Inv s) (hp : s.phase = .ready) (ha : s.encAct = false) :
    Inv { s with encAct := true, encLen := 0, encCnt := 0 } :=
  h.withEncoder rfl rfl (fun _ => hp) le_rfl (fun _ => congrArg List.length (h.streams.encClosed ha))
    nofun

theorem Inv.abortEncode (h : Inv s) : Inv (abortEncode s) :=
  h.withEncoder rfl (by simp) nofun le_rfl nofun (fun _ => by simp)

theorem Inv.eend (h : Inv s) : Inv (emit [.bo .endFrame] { s with encAct := false }) :=
  h.withEncoder rfl (by simp [State.so]) nofun h.frames.encCount nofun
    (fun _ => by simp)

/-- ESYM: a code has at least one bit, so ENC_CNT stays at most ENC_LEN (R30). -/
theorem Inv.appendCode (h : Inv s) (ha : s.encAct = true) {sym : Symbol} {slot : Nat} {e : CtEntry}
    (hl : Table.lookup CtEntry.sym s.ct sym = some (slot, e)) (hf : fitsCounter s.encLen e.bits.length = true) :
    Inv (appendCode e.bits s) := by
  have hp := h.frames.encReady ha
  have hcode := h.phase.table hp
  have hr := (Table.lookup_some (Table.wf_of_keys hcode.keys) hl).1
  have hpos : 0 < e.bits.length :=
    List.length_pos_iff.mpr (code_ne_nil (h.phase.tree (by simp [hp])) hcode hr)
  have hcount := h.frames.encCount
  rw [fitsCounter_iff] at hf
  have hlen : (s.encLen + BitVec.ofNat 32 e.bits.length).toNat = s.encLen.toNat + e.bits.length := by
    rw [BitVec.toNat_add, BitVec.toNat_ofNat]; omega
  have hcnt : (s.encCnt + 1).toNat = s.encCnt.toNat + 1 :=
    toNat_add_one_of_fits ((fitsCounter_iff _ _).mpr (by omega))
  refine h.withEncoder rfl (by simp) (fun _ => hp) ?_ (fun _ => ?_) (fun hc => ?_)
  · rw [appendCode_encCnt, appendCode_encLen, hcnt, hlen]; omega
  · rw [appendCode_bo, openBits_append_bits, List.length_append, h.streams.encOpen ha, appendCode_encLen, hlen]
  · rw [appendCode_encAct, ha] at hc; cases hc

/-! The decoder -/

/-- A change of the decoder's registers and of SO alone keeps the invariant when it keeps the decoder's part of it. -/
theorem Inv.withDecoder (h : Inv s) {t : State}
    (e : t = { s with cur := t.cur, decAct := t.decAct, decBits := t.decBits, decCnt := t.decCnt, out := t.out })
    (hbo : t.bo = s.bo) (hbuilt : t.decAct = true → s.phase ≠ .collect) (hcount : t.decCnt.toNat ≤ t.decBits.toNat)
    (hvalid : t.decAct = true → t.cur.toNat < s.nn.toNat)
    (hsingle : t.decAct = true → s.k.toNat = 1 → t.cur = s.root ∧ t.decCnt = t.decBits)
    (hwalk : t.decAct = true → 2 ≤ s.k.toNat →
      (t.cur = s.root ↔ t.decBits = 0) ∧ (t.decBits ≠ 0 → t.decCnt.toNat < t.decBits.toNat))
    (hopen : t.decAct = true → (openSyms t.so).length = t.decCnt.toNat)
    (hclosed : t.decAct = false → openSyms t.so = []) : Inv t := by
  have hf := h.frames
  refine ⟨?_, ?_, ?_, ?_, by rw [hbo, e]; exact h.streams.encOpen, by rw [hbo, e]; exact h.streams.encClosed,
    hopen, hclosed⟩ <;> rw [e]
  · exact h.map.congr rfl
  · exact h.phase.congr rfl
  · exact ⟨hf.encReady, hbuilt, hf.encCount, hcount, hvalid, hsingle, hwalk⟩
  · exact h.errors.congr rfl

/-- The same where the change closes the decode frame. -/
theorem Inv.withDecoderClosed (h : Inv s) {t : State}
    (e : t = { s with decAct := false, decBits := t.decBits, decCnt := t.decCnt, out := t.out })
    (hbo : t.bo = s.bo) (hcount : t.decCnt.toNat ≤ t.decBits.toNat) (hclosed : openSyms t.so = []) : Inv t := by
  have hd : t.decAct = false := by rw [e]
  have hcur : t.cur = s.cur := by rw [e]
  exact h.withDecoder (by rw [hd, hcur]; exact e) hbo (by simp [hd]) hcount (by simp [hd]) (by simp [hd]) (by simp [hd])
    (by simp [hd]) (fun _ => hclosed)

theorem Inv.dbeg (h : Inv s) (hp : s.phase ≠ .collect) (ha : s.decAct = false) :
    Inv { s with decAct := true, cur := s.root, decBits := 0, decCnt := 0 } := by
  have ht := h.phase.tree hp
  refine h.withDecoder rfl rfl (fun _ => hp) le_rfl (fun _ => ?_) (fun _ _ => ⟨rfl, rfl⟩)
    (fun _ _ => ⟨⟨fun _ => rfl, fun _ => rfl⟩, fun hn => absurd rfl hn⟩)
    (fun _ => congrArg List.length (h.streams.decClosed ha)) nofun
  have := ht.root
  have := ht.size
  have := ht.nonempty
  show s.root.toNat < s.nn.toNat
  omega

theorem Inv.abortDecode (h : Inv s) : Inv (abortDecode s) :=
  h.withDecoderClosed rfl (by simp) le_rfl (by simp)

theorem Inv.dendSingle (h : Inv s) : Inv (emit [.so .endFrame] { s with decAct := false }) :=
  h.withDecoderClosed rfl (by simp [State.bo]) h.frames.decCount (by simp)

/-- Of an open decode frame: what the phase says of the tree. -/
theorem Inv.decodeTree (h : Inv s) (ha : s.decAct = true) : TreeInv s := h.phase.tree (h.frames.decBuilt ha)

/-- At a leaf of a tree with an internal root, a symbol of the frame is still to come (R165). -/
theorem Inv.pending (h : Inv s) (ha : s.decAct = true) {f l r g : Word32} {sym : Symbol}
    (hr : Table.read s.nm s.root.toNat = some (.internal f l r))
    (hc : Table.read s.nm s.cur.toNat = some (.leaf g sym)) : s.decCnt.toNat < s.decBits.toNat := by
  obtain ⟨hroot, hless⟩ := h.frames.curWalk ha ((h.decodeTree ha).two_le_of_root_internal hr)
  refine hless fun h0 => ?_
  rw [hroot.mpr h0, hr] at hc; cases hc

/-- One more symbol of the open decode frame is one more SYM item of SO. -/
theorem Inv.openSyms_emitSymbol (h : Inv s) (ha : s.decAct = true) (hf : fitsCounter s.decCnt 1 = true) (sym : Symbol) :
    (openSyms (emitSymbol sym s).so).length = (s.decCnt + 1).toNat := by
  rw [emitSymbol_so, openSyms_append_sym, List.length_append, h.streams.decOpen ha, toNat_add_one_of_fits hf]
  rfl

/-- DEC_CNT is at most DEC_BITS (R32), so it has room for one more where DEC_BITS has. -/
theorem Inv.decCnt_fits (h : Inv s) (hf : fitsCounter s.decBits 1 = true) : fitsCounter s.decCnt 1 = true := by
  have := h.frames.decCount
  rw [fitsCounter_iff] at *
  omega

theorem Inv.dbitSingle (h : Inv s) (ha : s.decAct = true) (hf : fitsCounter s.decBits 1 = true) {f : Word32}
    {sym : Symbol} (hr : Table.read s.nm s.root.toNat = some (.leaf f sym)) :
    Inv { emitSymbol sym s with decBits := s.decBits + 1 } := by
  have ht := h.decodeTree ha
  have hk : s.k.toNat = 1 := by
    have := ht.leaf_lt hr
    have := ht.root
    have := ht.size
    omega
  obtain ⟨hcur, hcnt⟩ := h.frames.curSingle ha hk
  refine h.withDecoder rfl (emitSymbol_bo sym s) (fun _ => h.frames.decBuilt ha) ?_ (fun _ => h.frames.curValid ha)
    (fun _ _ => ⟨hcur, congrArg (· + 1) hcnt⟩) (fun _ h2 => absurd hk (by omega))
    (fun _ => h.openSyms_emitSymbol ha (h.decCnt_fits hf) sym) (fun hc => absurd (ha.symm.trans hc) (by simp))
  show (s.decCnt + 1).toNat ≤ (s.decBits + 1).toNat
  rw [hcnt]

/-- A bit that descends from an internal node ends at a node other than the root, the symbols so far being fewer than
the bits (R165). -/
theorem Inv.descended (h : Inv s) (ha : s.decAct = true) (hf : fitsCounter s.decBits 1 = true) {t : State}
    (e : t = { s with cur := t.cur, decBits := s.decBits + 1, decCnt := t.decCnt, out := t.out }) (hbo : t.bo = s.bo)
    {f l r : Word32} (hr : Table.read s.nm s.root.toNat = some (.internal f l r))
    (hcur : t.cur.toNat < s.nn.toNat ∧ t.cur ≠ s.root) (hless : t.decCnt.toNat ≤ s.decBits.toNat)
    (hopen : (openSyms t.so).length = t.decCnt.toNat) : Inv t := by
  have hd : t.decAct = true := by rw [e]; exact ha
  have hb : t.decBits = s.decBits + 1 := by rw [e]
  have hk := (h.decodeTree ha).two_le_of_root_internal hr
  have hbits : t.decBits.toNat = s.decBits.toNat + 1 := by rw [hb]; exact toNat_add_one_of_fits hf
  have hne : t.decBits ≠ 0 := fun h0 => by rw [h0] at hbits; cases hbits
  exact h.withDecoder (by rw [hd, hb, ← ha]; exact e) hbo (fun _ => h.frames.decBuilt ha) (by omega)
    (fun _ => hcur.1) (fun _ h1 => absurd hk (by omega))
    (fun _ _ => ⟨iff_of_false hcur.2 hne, fun _ => by omega⟩) (fun _ => hopen)
    (fun hc => absurd (hd.symm.trans hc) (by simp))

theorem Inv.dbitLeaf (h : Inv s) (ha : s.decAct = true) (hf : fitsCounter s.decBits 1 = true) {f l r g : Word32}
    {sym : Symbol} (hr : Table.read s.nm s.root.toNat = some (.internal f l r))
    (hc : Table.read s.nm s.cur.toNat = some (.leaf g sym)) (bit : Bool) :
    Inv { descend bit l r (emitSymbol sym s) with decBits := s.decBits + 1 } := by
  have hcnt := h.decCnt_fits hf
  refine h.descended ha hf rfl (emitSymbol_bo sym s) hr ((h.decodeTree ha).bit_child hr bit) ?_
    (h.openSyms_emitSymbol ha hcnt sym)
  show (s.decCnt + 1).toNat ≤ s.decBits.toNat
  rw [toNat_add_one_of_fits hcnt]
  exact h.pending ha hr hc

theorem Inv.dbitInternal (h : Inv s) (ha : s.decAct = true) (hf : fitsCounter s.decBits 1 = true)
    {f l r g l' r' : Word32} (hr : Table.read s.nm s.root.toNat = some (.internal f l r))
    (hc : Table.read s.nm s.cur.toNat = some (.internal g l' r')) (bit : Bool) :
    Inv { descend bit l' r' s with decBits := s.decBits + 1 } :=
  h.descended ha hf rfl rfl hr ((h.decodeTree ha).bit_child hc bit) h.frames.decCount (h.streams.decOpen ha)

theorem Inv.dendLeaf (h : Inv s) (ha : s.decAct = true) {f l r g : Word32} {sym : Symbol}
    (hr : Table.read s.nm s.root.toNat = some (.internal f l r))
    (hc : Table.read s.nm s.cur.toNat = some (.leaf g sym)) :
    Inv (emit [.so .endFrame] { emitSymbol sym s with decAct := false }) := by
  have hless := h.pending ha hr hc
  have hcnt : fitsCounter s.decCnt 1 = true := (fitsCounter_iff _ _).mpr (by have := s.decBits.isLt; omega)
  refine h.withDecoderClosed rfl (by simp [State.bo]) ?_ (by simp)
  show (s.decCnt + 1).toNat ≤ s.decBits.toNat
  rw [toNat_add_one_of_fits hcnt]
  exact hless

/-! Every command, every step -/

/-- Every effect of a command keeps the invariant. -/
theorem Inv.effect (h : Inv s) {i : Instr} {t : State} (he : Effect i s t) : Inv t := by
  cases he with
  | fault x info => exact h.raiseFault x info
  | answer d => exact h.respondOk d
  | rst => exact h.softReset.respondOk 0
  | eclr => exact h.clearFaults.respondOk 0
  | countNew sym cnt hi hp hc hl hk hf => exact (h.withMap hp (h.map.countNew hc hl hk hf)).respondOk 0
  | countMore sym cnt slot e hi hp hl hf => exact (h.withMap hp (h.map.countMore hl hf)).respondOk 0
  | build e es hp hr => exact (h.build hp hr).respondOk 0
  | gentab ct hp hc => exact (h.gentab hp hc).respondOk 0
  | ebeg hp ha => exact (h.ebeg hp ha).respondOk 0
  | esymUnknown sym ha => exact h.abortEncode.raiseFault _ _
  | esym sym slot e ha hl hf => exact (h.appendCode ha hl hf).respondOk 0
  | eend ha => exact h.eend.respondOk 0
  | dbeg hp ha => exact (h.dbeg hp ha).respondOk 0
  | dbitSingle bit f sym ha hf hr => exact (h.dbitSingle ha hf hr).respondOk 0
  | dbitLeaf bit f l r g sym ha hf hr hc => exact (h.dbitLeaf ha hf hr hc bit).respondOk 0
  | dbitInternal bit f l r g l' r' ha hf hr hc => exact (h.dbitInternal ha hf hr hc bit).respondOk 0
  | dendSingle ha => exact h.dendSingle.respondOk 0
  | dendLeaf f l r g sym ha hr hc => exact (h.dendLeaf ha hr hc).respondOk 0
  | dendTruncated ha => exact h.abortDecode.raiseFault _ _

/-- Every step keeps the invariant. -/
theorem Inv.step (h : Inv s) {t : State} (hs : step s = .next t) : Inv t := by
  rcases step_cases s with ⟨-, hr⟩ | ⟨rest, -, hr⟩ | ⟨w, rest, i, -, -, hr⟩ | ⟨w, rest, -, -, hr⟩
  · cases hr.symm.trans hs; exact h
  · cases hr.symm.trans hs; exact (h.withInput rest).hardwareReset
  · exact (h.withInput rest).effect (exec_effect (hr.symm.trans hs))
  · cases hr.symm.trans hs; exact (h.withInput rest).raiseFault _ _

/-- Settles O46. -/
theorem resetMeetsTheInvariant : Obligations.ResetMeetsTheInvariant :=
  ⟨inv_resetFor Config.kMax_legal, fun _ hn => inv_resetFor hn⟩

/-- Settles O47: every effect of a command, a reset pulse and an illegal word keep each part of the invariant. -/
theorem stepKeepsTheInvariant : Obligations.StepKeepsTheInvariant := fun _ _ h hs => h.step hs

end Sys2Proof.Machine
end

