-- ==== Sys2Proof/Proofs/Independence.lean ====
section
/-! A command depends neither on what was put out nor on what the host will do next (R20, R196). -/

namespace Sys2Proof.Machine

/-- Two answers that differ in the history and the future of the state only: `a` is an answer from `s`, and `b` does the
same from a state with outputs `out` and inputs `inp` in place of those of `s`, appending the same items (R20). -/
def SameButForIO (s : State) (out : List OutItem) (inp : List Input) (a b : Answer) : Prop :=
  match a with
  | .next t => t.inp = s.inp ∧ t.kMax = s.kMax ∧ ∃ new, t.out = s.out ++ new ∧
      b = .next { t with out := out ++ new, inp := inp }
  | .fault f => b = .fault f
  | .refused r => b = .refused r

namespace SameButForIO

variable {s : State} {out : List OutItem} {inp : List Input}

/-- Two next states with the same items appended. -/
theorem next {t u : State} (new : List OutItem) (hinp : t.inp = s.inp) (hk : t.kMax = s.kMax)
    (hout : t.out = s.out ++ new) (hu : u = { t with out := out ++ new, inp := inp }) :
    SameButForIO s out inp (.next t) (.next u) :=
  ⟨hinp, hk, new, hout, congrArg Host.Outcome.next hu⟩

theorem fault (f : Fault) : SameButForIO s out inp (.fault f) (.fault f) := rfl

/-- OK after the items `new`. -/
theorem respondOk (d : Word32) {t u : State} (new : List OutItem) (hinp : t.inp = s.inp) (hk : t.kMax = s.kMax)
    (hout : t.out = s.out ++ new) (hu : u = { t with out := out ++ new, inp := inp }) :
    SameButForIO s out inp (.next (respondOk d t)) (.next (Machine.respondOk d u)) :=
  next (new ++ [.rsp (rspWord 0 d)]) hinp hk (by rw [respondOk_out, hout, List.append_assoc])
    (by rw [hu, ← List.append_assoc]; rfl)

/-- OK and nothing else put out. -/
theorem answer (d : Word32) {t u : State} (hinp : t.inp = s.inp) (hk : t.kMax = s.kMax) (hout : t.out = s.out)
    (hu : u = { t with out := out, inp := inp }) :
    SameButForIO s out inp (.next (Machine.respondOk d t)) (.next (Machine.respondOk d u)) :=
  respondOk d [] hinp hk (by rw [hout, List.append_nil]) (by rw [hu, List.append_nil])

/-- A fault after the items `new`. -/
theorem raiseFault (x : FaultKind) (info : Word32) {t u : State} (new : List OutItem) (hinp : t.inp = s.inp)
    (hk : t.kMax = s.kMax) (hout : t.out = s.out ++ new) (hu : u = { t with out := out ++ new, inp := inp }) :
    SameButForIO s out inp (.next (raiseFault x info t)) (.next (Machine.raiseFault x info u)) :=
  next (new ++ [.rsp (rspWord (BitVec.ofNat 8 (faultCode x)) info)]) hinp hk
    (by rw [raiseFault_out, hout, List.append_assoc]) (by rw [hu, ← List.append_assoc]; rfl)

/-- A fault and nothing else put out. -/
theorem raiseOnly (x : FaultKind) (info : Word32) :
    SameButForIO s out inp (.next (Machine.raiseFault x info s))
      (.next (Machine.raiseFault x info { s with out := out, inp := inp })) :=
  raiseFault x info [] rfl rfl (List.append_nil _).symm (by rw [List.append_nil])

theorem refuse (x : FaultKind) (i : Instr) :
    SameButForIO s out inp (refuse x i s) (Machine.refuse x i { s with out := out, inp := inp }) :=
  raiseOnly x _

theorem ite {p : Prop} [Decidable p] {a a' b b' : Answer} (h : SameButForIO s out inp a b)
    (h' : SameButForIO s out inp a' b') : SameButForIO s out inp (if p then a else a') (if p then b else b') := by
  split_ifs
  · exact h
  · exact h'

/-- The phase check reads neither the outputs nor the inputs. -/
theorem checked (i : Instr) {a b : Answer} (h : SameButForIO s out inp a b) :
    SameButForIO s out inp (checked i s a) (Machine.checked i { s with out := out, inp := inp } b) := by
  have hacc : accepts i { s with out := out, inp := inp } = accepts i s := by cases i <;> rfl
  rw [Machine.checked, Machine.checked, hacc]
  exact ite h (refuse .badSequence i)

theorem readback (i : Instr) (v : Option Word32) :
    SameButForIO s out inp (readback i v s) (Machine.readback i v { s with out := out, inp := inp }) := by
  cases v with
  | none => exact refuse .badOperand i
  | some d => exact answer d rfl rfl rfl rfl

end SameButForIO

section

variable (s : State) (out : List OutItem) (inp : List Input)

theorem countSymbol_sameButForIO (i : Instr) (sym : Symbol) (cnt : Word32) :
    SameButForIO s out inp (countSymbol i sym cnt s) (countSymbol i sym cnt { s with out := out, inp := inp }) := by
  refine .checked i (.ite (.answer 0 rfl rfl rfl rfl) ?_)
  dsimp only
  cases Table.lookup FmEntry.sym s.fm sym with
  | none => exact .ite (.refuse _ _) (.ite (.refuse _ _) (.answer 0 rfl rfl rfl rfl))
  | some p => exact .ite (.refuse _ _) (.answer 0 rfl rfl rfl rfl)

theorem execBuild_sameButForIO :
    SameButForIO s out inp (execBuild s) (execBuild { s with out := out, inp := inp }) := by
  refine .checked .build (.ite (.raiseOnly .emptyInput 0) ?_)
  dsimp only
  match readSlots s.fm 0 s.k.toNat with
  | some (e :: es) => exact .answer 0 rfl rfl rfl rfl
  | some [] => exact .fault _
  | none => exact .fault _

theorem execGentab_sameButForIO :
    SameButForIO s out inp (execGentab s) (execGentab { s with out := out, inp := inp }) := by
  refine .checked .gentab ?_
  rw [show codeTable { s with out := out, inp := inp } = codeTable s from rfl]
  cases codeTable s with
  | error f => exact .fault f
  | ok ct => exact .answer 0 rfl rfl rfl rfl

theorem execEsym_sameButForIO (sym : Symbol) :
    SameButForIO s out inp (execEsym sym s) (execEsym sym { s with out := out, inp := inp }) := by
  refine .checked (.esym sym) ?_
  dsimp only
  cases Table.lookup CtEntry.sym s.ct sym with
  | none => exact .raiseFault _ _ [.bo .abort] rfl rfl rfl rfl
  | some p => exact .ite (.refuse _ _) (.respondOk 0 (bitItems p.2.bits) rfl rfl rfl rfl)

theorem execDbit_sameButForIO (bit : Bool) :
    SameButForIO s out inp (execDbit bit s) (execDbit bit { s with out := out, inp := inp }) := by
  refine .checked (.dbit bit) (.ite (.refuse _ _) ?_)
  dsimp only [walkBit]
  match Table.read s.nm s.root.toNat, Table.read s.nm s.cur.toNat with
  | none, _ => exact .fault _
  | some (.leaf f sym), _ => exact .respondOk 0 [.so (.sym sym)] rfl rfl rfl rfl
  | some (.internal f l r), none => exact .fault _
  | some (.internal f l r), some (.leaf g sym) => exact .respondOk 0 [.so (.sym sym)] rfl rfl rfl rfl
  | some (.internal f l r), some (.internal g l' r') => exact .answer 0 rfl rfl rfl rfl

theorem execDend_sameButForIO :
    SameButForIO s out inp (execDend s) (execDend { s with out := out, inp := inp }) := by
  refine .checked .dend ?_
  dsimp only
  match Table.read s.nm s.root.toNat, Table.read s.nm s.cur.toNat with
  | none, _ => exact .fault _
  | some (.leaf f sym), _ => exact .respondOk 0 [.so .endFrame] rfl rfl rfl rfl
  | some (.internal f l r), none => exact .fault _
  | some (.internal f l r), some (.leaf g sym) =>
    exact .respondOk 0 [.so (.sym sym), .so .endFrame] rfl rfl (List.append_assoc _ _ _)
      (by simp [emit, emitSymbol])
  | some (.internal f l r), some (.internal g l' r') => exact .raiseFault _ _ [.so .abort] rfl rfl rfl rfl

/-- A command reads neither the outputs nor the inputs. -/
theorem exec_sameButForIO (i : Instr) :
    SameButForIO s out inp (exec i s) (exec i { s with out := out, inp := inp }) := by
  cases i with
  | nop => exact .answer 0 rfl rfl rfl rfl
  | rst => exact .respondOk 0 (abortItems s) rfl rfl rfl rfl
  | eclr => exact .answer 0 rfl rfl rfl rfl
  | fsym sym => exact countSymbol_sameButForIO s out inp (.fsym sym) sym 1
  | fadd sym cnt => exact countSymbol_sameButForIO s out inp (.fadd sym cnt) sym cnt
  | build => exact execBuild_sameButForIO s out inp
  | gentab => exact execGentab_sameButForIO s out inp
  | ebeg => exact .checked _ (.answer 0 rfl rfl rfl rfl)
  | esym sym => exact execEsym_sameButForIO s out inp sym
  | eend => exact .checked _ (.respondOk 0 [.bo .endFrame] rfl rfl rfl rfl)
  | dbeg => exact .checked _ (.answer 0 rfl rfl rfl rfl)
  | dbit bit => exact execDbit_sameButForIO s out inp bit
  | dend => exact execDend_sameButForIO s out inp
  | rdr regno =>
    have hreg : readReg { s with out := out, inp := inp } regno.toNat = readReg s regno.toNat := by
      unfold readReg
      rfl
    rw [exec, exec, execRdr, execRdr, hreg]
    exact .readback _ _
  | rdf idx sel => exact .readback _ _
  | rdn idx sel => exact .readback _ _
  | rdc idx sel => exact .readback _ _

end

/-- Settles O54. -/
theorem commandsSeeNeitherOutputsNorInputs : Obligations.CommandsSeeNeitherOutputsNorInputs := by
  intro i s out inp
  have h := exec_sameButForIO s out inp i
  refine ⟨fun t ht => ?_, fun f hf => ?_⟩
  · rw [ht] at h; exact h
  · rw [hf] at h; exact h

end Sys2Proof.Machine
end

