-- ==== Sys2Proof/Proofs/StateClaims.lean ====
section
/-! The claims of 10_state.md about single commands: what each leaves unchanged, the reset values, STATUS, the codes. -/

namespace Sys2Proof.Machine

/-- A fault leaves every bit of ERR set that was (R33). -/
theorem raiseFault_err_sticky (x : FaultKind) (info : Word32) (s : State) {n : Nat} (h : s.err.getLsbD n = true) :
    (raiseFault x info s).err.getLsbD n = true := by
  rw [raiseFault_err, BitVec.getLsbD_or, h, Bool.true_or]

/-- Settles O13: a command either raises a fault, which only sets a bit of ERR, or leaves ERR alone. -/
theorem faultBitsAreSticky : Obligations.FaultBitsAreSticky := by
  intro i s t h hrst heclr n hn
  cases exec_effect h with
  | rst => exact absurd rfl hrst
  | eclr => exact absurd rfl heclr
  | fault x info => exact raiseFault_err_sticky x info s hn
  | esymUnknown sym ha => exact raiseFault_err_sticky .unknownSymbol _ (abortEncode s) hn
  | dendTruncated ha => exact raiseFault_err_sticky .truncatedInput _ (abortDecode s) hn
  | _ => exact hn

/-- Two different leaves are not on one path, so the code of one does not begin the code of another (R42). -/
theorem leaf_of_path_append {nm : Table Node} {n i j : Nat} {p q : List Bool} {f : Word32} {a : Symbol}
    (hi : Table.read nm i = some (.leaf f a)) (hp : followPath nm n p = some i)
    (hq : followPath nm n (p ++ q) = some j) :
    i = j := by
  rw [followPath_append hp] at hq
  obtain rfl := followPath_leaf hi hq
  exact Option.some_inj.mp hq

/-- Settles O25: each code is the path of its leaf, and a path ends at the first leaf it meets. -/
theorem codesArePrefixFree : Obligations.CodesArePrefixFree := by
  rintro s h hp i j c d hij hc hd ⟨q, hq⟩
  have ht := h.phase.tree (by simp [hp])
  have hcode := h.phase.table hp
  obtain ⟨hi, hpi⟩ := hcode.read_code hc
  obtain ⟨hj, hpj⟩ := hcode.read_code hd
  have hk : s.k.toNat ≠ 1 := by omega
  rw [isCodeOf, if_neg hk] at hpi hpj
  obtain ⟨e, -, hleaf⟩ := ht.leaves i hi
  exact hij (leaf_of_path_append hleaf hpi (hq ▸ hpj))

/-! What each command leaves unchanged -/

/-- ROOTLEAF as R37 defines it. -/
theorem rootLeaf_iff (s : State) :
    rootLeaf s = true ↔ s.phase ≠ .collect ∧ ∃ f a, Table.read s.nm s.root.toNat = some (.leaf f a) := by
  rw [rootLeaf, Bool.and_eq_true, bne_iff_ne]
  refine and_congr_right fun _ => ?_
  cases Table.read s.nm s.root.toNat with
  | none => simp
  | some n => cases n <;> simp [Node.isLeaf]

/-- Settles O51: BUILD, GENTAB and RST are the effects that write PHASE; GENTAB keeps the tree, so ROOTLEAF too. -/
theorem phaseMovesForwardOnly : Obligations.PhaseMovesForwardOnly := by
  intro i s t h
  cases exec_effect h with
  | rst => exact ⟨.inr (.inr (.inr ⟨rfl, rfl⟩)), fun _ hn => absurd rfl hn⟩
  | build e es hp hr => exact ⟨.inr (.inl ⟨rfl, hp, rfl⟩), fun hn => absurd rfl hn⟩
  | gentab ct hp hc =>
    refine ⟨.inr (.inr (.inl ⟨rfl, hp, rfl⟩)), fun _ _ => ?_⟩
    rw [Bool.eq_iff_iff, rootLeaf_iff, rootLeaf_iff]
    simp [hp]
  | _ => exact ⟨.inl rfl, fun _ _ => rfl⟩

/-- Settles O52: the effects that write a frame flag are those of its own commands, of UnknownSymbol and of RST. -/
theorem frameFlagsFollowTheirCommands : Obligations.FrameFlagsFollowTheirCommands := by
  intro i s t h
  cases exec_effect h with
  | rst => simp
  | ebeg hp ha => simp [ha]
  | esymUnknown sym ha => simp [ha, faultCode]
  | eend ha => simp
  | dbeg hp ha => simp [ha]
  | dendSingle ha => simp
  | dendLeaf f l r g sym ha hr hc => simp
  | dendTruncated ha => simp
  | _ => simp +contextual

/-- Settles O53: an effect of the encoder's commands writes none of the decoder's registers and puts nothing on SO, and
the other way round. -/
theorem encoderAndDecoderAreIndependent : Obligations.EncoderAndDecoderAreIndependent := by
  intro i s t h
  cases exec_effect h with
  | fault x info => simp
  | answer d => simp
  | countNew sym cnt hi => rcases hi with rfl | rfl <;> simp
  | countMore sym cnt slot e hi => rcases hi with rfl | rfl <;> simp
  | _ => simp [State.bo, State.so]

/-! Reset and STATUS -/

/-- Settles O6: both resets give the reset state but for the outputs and the inputs. -/
theorem resetState : Obligations.ResetState := by
  intro s t ht
  have hrst : exec .rst s = .next t → t = respondOk 0 (softReset s) := fun h => by cases h; rfl
  have hreset : t = { State.resetFor s.kMax with out := t.out, inp := s.inp } := by
    rcases ht with rfl | h
    · rfl
    · rw [hrst h]; rfl
  refine ⟨?_, fun i => ?_, ?_, ?_, ?_, fun h => ?_⟩
  · rw [hreset]; exact ⟨rfl, rfl, rfl, rfl, rfl, rfl, rfl, rfl, rfl, rfl, rfl, rfl, rfl, rfl, rfl⟩
  · rw [hreset]; exact ⟨rfl, rfl, rfl⟩
  · rw [hreset]; simp [statusWord, faultPin, rootLeaf, phaseCode, State.resetFor]
  · rw [hreset]; simp [encBytes, State.resetFor]
  · rintro rfl; exact ⟨rfl, rfl⟩
  · rw [hrst h, respondOk_bo, respondOk_so, softReset_bo, softReset_so]
    cases s.encAct <;> cases s.decAct <;> simp

/-- The FAULT pin as R37 and R212 define it. -/
theorem faultPin_iff (s : State) : faultPin s = true ↔ s.err ≠ 0 := bne_iff_ne

/-- The fields of STATUS, from bit 0 on (R43). -/
theorem statusWord_getLsbD (s : State) (n : Nat) :
    (statusWord s).getLsbD n = if n < 2 then (phaseCode s.phase).getLsbD n
      else ([s.encAct, s.decAct, rootLeaf s, faultPin s].getD (n - 2) false) := by
  simp only [statusWord, BitVec.getLsbD_append, BitVec.getLsbD_ofBool]
  by_cases h2 : n < 2
  · simp [h2]
  · match h : n - 2 with
    | 0 | 1 | 2 | 3 => simp [h2]
    | m + 4 => simp [h2]

/-- Bits 1:0 of STATUS. -/
theorem statusWord_phase (s : State) : (statusWord s).extractLsb' 0 2 = phaseCode s.phase := by
  ext i hi
  simp [statusWord_getLsbD, hi]

/-- Settles O39. -/
theorem statusWordFields : Obligations.StatusWordFields := by
  intro s
  have hbit := statusWord_getLsbD s
  refine ⟨?_, hbit 2, hbit 3, ?_, ?_, faultPin_iff s, fun n hn => ?_⟩
  · rw [statusWord_phase]
    exact ⟨fun h => by rw [h]; rfl, fun h => by rw [h]; rfl, fun h => by rw [h]; rfl⟩
  · rw [hbit 4]; exact rootLeaf_iff s
  · rw [hbit 5]; exact faultPin_iff s
  · rw [hbit n, if_neg (by omega)]
    exact List.getD_eq_default _ _ (by simp; omega)

end Sys2Proof.Machine
end

