-- ==== Sys2Proof/Proofs/Memory.lean ====
section
/-! The claims about the tables and the words they are read in: a bit sequence cut into words (R63, R64), the canonical
form of the tables (R66), who writes them (R74, R103), and readback (R68). -/

namespace Sys2Proof.Machine

/-! Bit sequences in words -/

/-- `n` binary digits are a number below 2^n. -/
theorem msbFirst_lt (n : Nat) (bits : List Bool) : msbFirst n bits < 2 ^ n := by
  induction n generalizing bits with
  | zero => simp [msbFirst]
  | succ n ih =>
    have hrest := ih bits.tail
    rw [msbFirst, Nat.pow_succ]
    cases bits.headD false <;> simp <;> omega

/-- Digit `j` from the top is element `j` of the sequence, 0 where there is none. -/
theorem msbFirst_testBit {n j : Nat} (bits : List Bool) (hj : j < n) :
    (msbFirst n bits).testBit (n - 1 - j) = bits.getD j false := by
  induction n generalizing bits j with
  | zero => exact absurd hj (Nat.not_lt_zero _)
  | succ n ih =>
    rw [msbFirst, Nat.mul_comm, Nat.testBit_two_pow_mul_add _ (msbFirst_lt n bits.tail)]
    cases j with
    | zero => cases bits with
      | nil => simp
      | cons b bits => cases b <;> simp
    | succ j =>
      rw [if_pos (by omega), show n + 1 - 1 - (j + 1) = n - 1 - j by omega, ih bits.tail (by omega)]
      cases bits <;> simp

/-- A sequence cut into words of `w` bits: element `j` is bit `w - 1 - (j mod w)` of word `j div w`, 0 where there is
none. -/
theorem getLsbD_msbFirst_drop {w : Nat} (hw : 0 < w) (bits : List Bool) (j : Nat) :
    (BitVec.ofNat w (msbFirst w (bits.drop (w * (j / w))))).getLsbD (w - 1 - j % w) = bits.getD j false := by
  rw [BitVec.getLsbD_ofNat, msbFirst_testBit _ (Nat.mod_lt j hw), decide_eq_true (by omega), Bool.true_and,
    List.getD_eq_getElem?_getD, List.getElem?_drop, Nat.div_add_mod, List.getD_eq_getElem?_getD]

/-- Settles O43: a code is read in words of 32 bits. -/
theorem codeWordLayout : Obligations.CodeWordLayout := fun bits j => getLsbD_msbFirst_drop (by decide) bits j

theorem pack_length (bits : List Bool) : (pack bits).length = (bits.length + 7) / 8 := by simp [pack]

/-- Byte `m` of a frame. -/
theorem pack_getD {bits : List Bool} {m : Nat} (hm : m < (pack bits).length) :
    (pack bits).getD m 0 = BitVec.ofNat 8 (msbFirst 8 (bits.drop (8 * m))) := by
  rw [List.getD_eq_getElem _ _ hm]
  simp [pack]

/-- Settles O44: PACK cuts a frame into words of 8 bits. -/
theorem packLayout : Obligations.PackLayout := by
  refine fun bits => ⟨pack_length bits, fun i hi => ?_⟩
  rw [pack_getD (by omega)]
  exact getLsbD_msbFirst_drop (by decide) bits i

/-! The canonical form -/

theorem writeLeaves_wf {nm : Table Node} (h : Table.wf nm) (i : Nat) (es : List FmEntry) :
    Table.wf (writeLeaves nm i es) := by
  induction es generalizing nm i with
  | nil => exact h
  | cons e es ih => exact ih (Table.wf_write h _ _) (i + 1)

theorem mergeLoop_wf {nm : Table Node} (h : Table.wf nm) (fuel : Nat) (r : ForestRoot) (pq : List ForestRoot) (nn : Nat) :
    Table.wf (mergeLoop fuel r pq nn nm).nm := by
  induction fuel generalizing nm r pq nn with
  | zero => exact h
  | succ fuel ih =>
    rw [mergeLoop]
    split
    · exact h
    · exact ih (Table.wf_write h _ _) _ _ _

theorem buildTree_wf {nm : Table Node} (h : Table.wf nm) (e : FmEntry) (es : List FmEntry) :
    Table.wf (buildTree nm e es).nm :=
  mergeLoop_wf (writeLeaves_wf h 0 (e :: es)) _ _ _ _

theorem codeTable_wf {s : State} {ct : Table CtEntry} (h : Table.wf s.ct) (hc : codeTable s = .ok ct) : Table.wf ct := by
  rw [codeTable] at hc
  split at hc
  · cases hc; exact Table.wf_write h _ _
  · exact walk_wf hc h

/-- Every effect of a command keeps the canonical form: the writes of the map, the tree and the code table do, and
the other effects write no table or empty all three. -/
theorem Effect.memory_wf {i : Instr} {s t : State} (he : Effect i s t) (h : Memory.wf s) : Memory.wf t := by
  have hall := h
  obtain ⟨hfm, hnm, hct⟩ := h
  cases he with
  | rst => exact resetFor_wf s.kMax
  | countNew sym cnt => exact ⟨Table.wf_write hfm _ _, hnm, hct⟩
  | countMore sym cnt slot e => exact ⟨Table.wf_write hfm _ _, hnm, hct⟩
  | build e es hp hr => exact ⟨hfm, buildTree_wf hnm e es, hct⟩
  | gentab ct hp hc => exact ⟨hfm, hnm, codeTable_wf hct hc⟩
  | _ => exact hall

/-- Settles O49: a step is an effect of a command, a reset, an illegal word or no change. -/
theorem tablesStayCanonical : Obligations.TablesStayCanonical := by
  intro s t h hs
  rcases step_cases s with ⟨-, hr⟩ | ⟨rest, -, hr⟩ | ⟨w, rest, i, -, -, hr⟩ | ⟨w, rest, -, -, hr⟩
  · cases hr.symm.trans hs; exact h
  · cases hr.symm.trans hs; exact resetFor_wf s.kMax
  · exact (exec_effect (hr.symm.trans hs)).memory_wf h
  · cases hr.symm.trans hs; exact h

/-! Who writes the tables -/

/-- FSYM or FADD in COLLECT is none of the commands and phases in which the map is frozen. -/
theorem counts_in_collect {i : Instr} {sym : Symbol} {cnt : Word32} {s : State} (hi : i = .fsym sym ∨ i = .fadd sym cnt)
    (hp : s.phase = .collect) : ¬(((∀ a, i ≠ .fsym a) ∧ (∀ a c, i ≠ .fadd a c)) ∨ s.phase ≠ .collect) := by
  rintro (⟨hfsym, hfadd⟩ | hne)
  · exact hi.elim (hfsym sym) (hfadd sym cnt)
  · exact hne hp

/-- Settles O50: the effects that write a table are those of its own builder, and counting needs COLLECT. -/
theorem onlyTheBuildersWriteTheTables : Obligations.OnlyTheBuildersWriteTheTables := by
  intro i s t h hrst
  cases exec_effect h with
  | rst => exact absurd rfl hrst
  | countNew sym cnt hi hp =>
    exact ⟨fun _ => ⟨rfl, rfl, rfl⟩, fun _ => rfl, fun hno => absurd hno (counts_in_collect hi hp)⟩
  | countMore sym cnt slot e hi hp =>
    exact ⟨fun _ => ⟨rfl, rfl, rfl⟩, fun _ => rfl, fun hno => absurd hno (counts_in_collect hi hp)⟩
  | build e es hp hr => exact ⟨fun hn => absurd rfl hn, fun _ => rfl, fun _ => ⟨rfl, rfl, rfl⟩⟩
  | gentab ct hp hc => exact ⟨fun _ => ⟨rfl, rfl, rfl⟩, fun hn => absurd rfl hn, fun _ => ⟨rfl, rfl, rfl⟩⟩
  | _ => exact ⟨fun _ => ⟨rfl, rfl, rfl⟩, fun _ => rfl, fun _ => ⟨rfl, rfl, rfl⟩⟩

/-! Readback -/

/-- The registers are those numbered below 16 (R43). -/
theorem readReg_eq_none_iff (s : State) (n : Nat) : readReg s n = none ↔ 16 ≤ n := by
  rcases Nat.lt_or_ge n 16 with hn | hn
  · interval_cases n <;> simp [readReg]
  · obtain ⟨m, rfl⟩ := Nat.exists_eq_add_of_le' hn
    simp [readReg]

/-- A response word is laid out as a command word is (R81, R90), so its status field is the status it is made of. -/
theorem rspStatus_rspWord (status : BitVec 8) (data : Word32) : rspStatus (rspWord status data) = status.toNat :=
  congrArg BitVec.toNat (cmdOp_cmdWord status 0 data)

/-- Command `i`, executed in `s` with next state `t`, answers one response and would answer it again; on OK it changes
nothing but the outputs, else the error registers too (R68). -/
def ReadsWithoutEffect (i : Instr) (s t : State) : Prop :=
  ∃ r u, t.out = s.out ++ [.rsp r] ∧ exec i t = .next u ∧ u.out = t.out ++ [.rsp r] ∧
    (rspStatus r = 0 → t = { s with out := t.out }) ∧
    t = { s with err := t.err, eLast := t.eLast, eInfo := t.eInfo, out := t.out }

/-- A command that reads back a value which the outputs do not change, and which the error registers do not bring into
being, reads without effect. -/
theorem readsWithoutEffect_of_readback {i : Instr} {val : State → Option Word32}
    (hexec : ∀ s, exec i s = readback i (val s) s) (hok : ∀ d s, val (respondOk d s) = val s)
    (hfault : ∀ x info s, val s = none → val (raiseFault x info s) = none) {s t : State} (h : exec i s = .next t) :
    ReadsWithoutEffect i s t := by
  rw [hexec] at h
  rcases readback_cases h with ⟨d, hv, rfl⟩ | ⟨hv, rfl⟩
  · have hagain : exec i (respondOk d s) = .next (respondOk d (respondOk d s)) := by rw [hexec, hok, hv]; rfl
    exact ⟨_, _, rfl, hagain, rfl, fun _ => rfl, rfl⟩
  · refine ⟨_, _, rfl, by rw [hexec, hfault _ _ _ hv]; rfl, rfl, fun hstatus => ?_, rfl⟩
    rw [rspStatus_rspWord] at hstatus
    exact absurd hstatus (by decide)

/-- Settles O45: each of the four commands reads back a value of its own. -/
theorem readsAreIdempotent : Obligations.ReadsAreIdempotent := by
  intro i s t hi h
  rcases hi with ⟨n, rfl⟩ | ⟨x, n, rfl | rfl | rfl⟩
  · exact readsWithoutEffect_of_readback (val := fun s => readReg s n.toNat) (fun _ => rfl)
      (fun d s => by unfold readReg; rfl) (fun _ _ _ hv => by rwa [readReg_eq_none_iff] at hv ⊢) h
  · exact readsWithoutEffect_of_readback (val := fun s => readFm s x.toNat n.toNat) (fun _ => rfl) (fun _ _ => rfl)
      (fun _ _ _ hv => hv) h
  · exact readsWithoutEffect_of_readback (val := fun s => readNm s x.toNat n.toNat) (fun _ => rfl) (fun _ _ => rfl)
      (fun _ _ _ hv => hv) h
  · exact readsWithoutEffect_of_readback (val := fun s => readCt s x.toNat n.toNat) (fun _ => rfl) (fun _ _ => rfl)
      (fun _ _ _ hv => hv) h

/-! The step -/

/-- Settles O7: of all a step can be, an input that decodes leaves the execution of its command. -/
theorem stepRunsTheDecodedCommand : Obligations.StepRunsTheDecodedCommand := by
  intro s w rest i hinp hdec
  rcases step_cases s with ⟨h, -⟩ | ⟨_, h, -⟩ | ⟨w', rest', i', h, hdec', hstep⟩ | ⟨w', _, h, hno, -⟩
  · cases hinp.symm.trans h
  · cases hinp.symm.trans h
  · cases hinp.symm.trans h
    cases hdec.symm.trans hdec'
    exact hstep
  · cases hinp.symm.trans h
    exact absurd hdec (hno i)

end Sys2Proof.Machine
end

