-- ==== Sys2Proof/Proofs/Encoding.lean ====
section
/-! Encoding and decoding are inverse, format by format (R82 to R86): what a format's decoder accepts, and what a row of
the opcode table matches, are the words made of an opcode and the operands of the format. -/

namespace Sys2Proof

/-! Operands (R83) -/

@[simp] theorem symOperand_low (sym : Symbol) : (symOperand sym).extractLsb' 0 21 = sym := by
  ext i hi
  have hi24 : i < 24 := by omega
  simp [symOperand, hi, hi24]

@[simp] theorem symOperand_high (sym : Symbol) : (symOperand sym).extractLsb' 21 3 = 0 := by
  ext i hi
  simp [symOperand]

/-- Operand A with bits 23:21 all 0 is a symbol, widened with zeros. -/
theorem symOperand_of_high {a : BitVec 24} (h : a.extractLsb' 21 3 = 0) : symOperand (a.extractLsb' 0 21) = a := by
  have hhigh := congrArg BitVec.toNat h
  apply BitVec.eq_of_toNat_eq
  simp [symOperand, Nat.shiftRight_eq_div_pow] at hhigh ⊢
  omega

/-- The mask of the MBZ bits 23:21 of operand A. -/
theorem high_eq_zero_of_and {a : BitVec 24} (h : a &&& 0xE00000#24 = 0) : a.extractLsb' 21 3 = 0 := by
  have hmask : (a &&& 0xE00000#24).extractLsb' 21 3 = a.extractLsb' 21 3 := by
    rw [BitVec.extractLsb'_and]
    exact BitVec.and_allOnes
  rw [← hmask, h]
  rfl

@[simp] theorem bitOperand_bit (bit : Bool) : (bitOperand bit)[0] = bit := by cases bit <;> rfl

@[simp] theorem bitOperand_high (bit : Bool) : (bitOperand bit).extractLsb' 1 31 = 0 := by cases bit <;> rfl

/-- Operand B with bits 31:1 all 0 is its bit 0. -/
theorem bitOperand_of_high {b : BitVec 32} (h : b.extractLsb' 1 31 = 0) : bitOperand (b.getLsbD 0) = b := by
  have hhigh := congrArg BitVec.toNat h
  simp [Nat.shiftRight_eq_div_pow] at hhigh
  have hb : b = 0 ∨ b = 1 := by
    have : b.toNat = 0 ∨ b.toNat = 1 := by omega
    exact this.imp BitVec.eq_of_toNat_eq BitVec.eq_of_toNat_eq
  rcases hb with rfl | rfl <;> rfl

theorem bit_high_eq_zero_of_and {b : BitVec 32} (h : b &&& 0xFFFFFFFE#32 = 0) : b.extractLsb' 1 31 = 0 := by
  have hmask : (b &&& 0xFFFFFFFE#32).extractLsb' 1 31 = b.extractLsb' 1 31 := by
    rw [BitVec.extractLsb'_and]
    exact BitVec.and_allOnes
  rw [← hmask, h]
  rfl

/-! What each format's decoder makes of a word of the format (R82) -/

section

variable (op : BitVec 8) (a : BitVec 24) (b : BitVec 32)

theorem decodeN_cmdWord (i : Instr) : decodeN (cmdWord op 0#24 0#32) i = .ok i := by
  simp [decodeN]

theorem decodeS_cmdWord (f : Symbol → Instr) (sym : Symbol) :
    decodeS (cmdWord op (symOperand sym) 0#32) f = .ok (f sym) := by
  simp [decodeS]

theorem decodeSC_cmdWord (f : Symbol → Word32 → Instr) (sym : Symbol) :
    decodeSC (cmdWord op (symOperand sym) b) f = .ok (f sym b) := by
  simp [decodeSC]

theorem decodeB_cmdWord (f : Bool → Instr) (bit : Bool) :
    decodeB (cmdWord op 0#24 (bitOperand bit)) f = .ok (f bit) := by
  simp [decodeB]

theorem decodeR_cmdWord (f : Word32 → Instr) : decodeR (cmdWord op 0#24 b) f = .ok (f b) := by
  simp [decodeR]

theorem decodeX_cmdWord (f : Index24 → Word32 → Instr) : decodeX (cmdWord op a b) f = .ok (f a b) := by
  simp [decodeX]

end

/-- Decoding the word of a command: the opcode picks the decoder of the command's format. -/
theorem decode_encode (i : Instr) : decode (encode i) = .ok i := by
  cases i with
  | nop | rst | eclr | build | gentab | ebeg | eend | dbeg | dend => simp [encode, decode, decodeN_cmdWord]
  | fsym | esym => simp [encode, decode, decodeS_cmdWord]
  | fadd => simp [encode, decode, decodeSC_cmdWord]
  | dbit => simp [encode, decode, decodeB_cmdWord]
  | rdr => simp [encode, decode, decodeR_cmdWord]
  | rdf | rdn | rdc => simp [encode, decode, decodeX_cmdWord]

/-- The word of a command matches the row of its mnemonic and no other (R84, R85). -/
theorem matchingRows_encode (i : Instr) : matchingRows (encode i) = [i.mnemonic] := by
  cases i with
  | nop => exact Laws.TableRow.nop
  | rst => exact Laws.TableRow.rst
  | eclr => exact Laws.TableRow.eclr
  | fsym sym => exact Laws.TableRow.fsym sym
  | fadd sym cnt => exact Laws.TableRow.fadd sym cnt
  | build => exact Laws.TableRow.build
  | gentab => exact Laws.TableRow.gentab
  | ebeg => exact Laws.TableRow.ebeg
  | esym sym => exact Laws.TableRow.esym sym
  | eend => exact Laws.TableRow.eend
  | dbeg => exact Laws.TableRow.dbeg
  | dbit bit => exact Laws.TableRow.dbit bit
  | dend => exact Laws.TableRow.dend
  | rdr regno => exact Laws.TableRow.rdr regno
  | rdf idx sel => exact Laws.TableRow.rdf idx sel
  | rdn idx sel => exact Laws.TableRow.rdn idx sel
  | rdc idx sel => exact Laws.TableRow.rdc idx sel

/-- Settles O1: each command's word is legal by its row of the table, and its format's decoder reads the operands
back. -/
theorem decodeOfEncode : Obligations.DecodeOfEncode := by
  refine fun i => ⟨?_, decode_encode i⟩
  rw [Instr.wellFormed, wellFormedWord, matchingRows_encode]
  rfl

/-! The word of a format's command from its fields (R81, R82) -/

/-- A command word with the given fields. -/
theorem cmdWord_eq {w : CmdWord} {op : BitVec 8} {a : BitVec 24} {b : BitVec 32} (hop : cmdOp w = op)
    (ha : cmdA w = a) (hb : cmdB w = b) : cmdWord op a b = w := by
  rw [← hop, ← ha, ← hb, cmdWord_fields]

section

variable {w : CmdWord} {op : BitVec 8} {i : Instr}

theorem encode_of_decodeN {j : Instr} (henc : encode j = cmdWord op 0 0) (hop : (cmdOp w).toNat = op.toNat)
    (h : decodeN w j = .ok i) : encode i = w := by
  unfold decodeN at h
  split at h
  next hmbz =>
    cases h
    exact henc.trans (cmdWord_eq (BitVec.eq_of_toNat_eq hop) hmbz.1 hmbz.2)
  next => cases h

theorem encode_of_decodeS {f : Symbol → Instr} (henc : ∀ sym, encode (f sym) = cmdWord op (symOperand sym) 0)
    (hop : (cmdOp w).toNat = op.toNat) (h : decodeS w f = .ok i) : encode i = w := by
  unfold decodeS at h
  split at h
  next hmbz =>
    cases h
    exact (henc _).trans (cmdWord_eq (BitVec.eq_of_toNat_eq hop) (symOperand_of_high hmbz.1).symm hmbz.2)
  next => cases h

theorem encode_of_decodeSC {f : Symbol → Word32 → Instr}
    (henc : ∀ sym cnt, encode (f sym cnt) = cmdWord op (symOperand sym) cnt) (hop : (cmdOp w).toNat = op.toNat)
    (h : decodeSC w f = .ok i) : encode i = w := by
  unfold decodeSC at h
  split at h
  next hmbz =>
    cases h
    exact (henc _ _).trans (cmdWord_eq (BitVec.eq_of_toNat_eq hop) (symOperand_of_high hmbz).symm rfl)
  next => cases h

theorem encode_of_decodeB {f : Bool → Instr} (henc : ∀ bit, encode (f bit) = cmdWord op 0 (bitOperand bit))
    (hop : (cmdOp w).toNat = op.toNat) (h : decodeB w f = .ok i) : encode i = w := by
  unfold decodeB at h
  split at h
  next hmbz =>
    cases h
    exact (henc _).trans (cmdWord_eq (BitVec.eq_of_toNat_eq hop) hmbz.1 (bitOperand_of_high hmbz.2).symm)
  next => cases h

theorem encode_of_decodeR {f : Word32 → Instr} (henc : ∀ regno, encode (f regno) = cmdWord op 0 regno)
    (hop : (cmdOp w).toNat = op.toNat) (h : decodeR w f = .ok i) : encode i = w := by
  unfold decodeR at h
  split at h
  next hmbz =>
    cases h
    exact (henc _).trans (cmdWord_eq (BitVec.eq_of_toNat_eq hop) hmbz rfl)
  next => cases h

theorem encode_of_decodeX {f : Index24 → Word32 → Instr} (henc : ∀ idx sel, encode (f idx sel) = cmdWord op idx sel)
    (hop : (cmdOp w).toNat = op.toNat) (h : decodeX w f = .ok i) : encode i = w := by
  cases h
  exact (henc _ _).trans (cmdWord_eq (BitVec.eq_of_toNat_eq hop) rfl rfl)

end

/-- Settles O2: each opcode's decoder accepts only words of its format, with the operands it answers. -/
theorem encodeOfDecode : Obligations.EncodeOfDecode := by
  intro w i h
  unfold decode at h
  split at h
  next hop => exact encode_of_decodeN (op := 0x00) rfl hop h
  next hop => exact encode_of_decodeN (op := 0x01) rfl hop h
  next hop => exact encode_of_decodeN (op := 0x02) rfl hop h
  next hop => exact encode_of_decodeS (op := 0x10) (fun _ => rfl) hop h
  next hop => exact encode_of_decodeSC (op := 0x11) (fun _ _ => rfl) hop h
  next hop => exact encode_of_decodeN (op := 0x20) rfl hop h
  next hop => exact encode_of_decodeN (op := 0x21) rfl hop h
  next hop => exact encode_of_decodeN (op := 0x30) rfl hop h
  next hop => exact encode_of_decodeS (op := 0x31) (fun _ => rfl) hop h
  next hop => exact encode_of_decodeN (op := 0x32) rfl hop h
  next hop => exact encode_of_decodeN (op := 0x40) rfl hop h
  next hop => exact encode_of_decodeB (op := 0x41) (fun _ => rfl) hop h
  next hop => exact encode_of_decodeN (op := 0x42) rfl hop h
  next hop => exact encode_of_decodeR (op := 0x50) (fun _ => rfl) hop h
  next hop => exact encode_of_decodeX (op := 0x51) (fun _ _ => rfl) hop h
  next hop => exact encode_of_decodeX (op := 0x52) (fun _ _ => rfl) hop h
  next hop => exact encode_of_decodeX (op := 0x53) (fun _ _ => rfl) hop h
  next => cases h

/-! The rows of the opcode table (R84) -/

/-- A word that matches a row has the opcode of the row, whatever the format. -/
theorem OpRow.cmdOp_of_matchesWord {row : OpRow} {w : CmdWord} (h : row.matchesWord w = true) :
    cmdOp w = cmdOp row.pattern := by
  rw [← eq_of_beq h, Format.mask_eq, ← cmdWord_fields w, cmdWord_and, cmdOp_cmdWord, cmdOp_cmdWord]
  exact BitVec.and_allOnes.symm

/-- Settles O4: the opcodes of the rows are pairwise different. -/
theorem opcodeRowsAreDisjoint : Obligations.OpcodeRowsAreDisjoint := by
  have hops : opcodeTable.Pairwise (fun a b => cmdOp a.pattern ≠ cmdOp b.pattern) := by decide
  refine hops.imp fun hne w hboth => hne ?_
  exact (OpRow.cmdOp_of_matchesWord hboth.1).symm.trans (OpRow.cmdOp_of_matchesWord hboth.2)

/-- The opcode and the MBZ bits of a word that matches a row. -/
theorem fields_of_matchesWord {name : String} {f : Format} {op : BitVec 8} {w : CmdWord}
    (h : OpRow.matchesWord ⟨name, f, cmdWord op 0#24 0#32⟩ w = true) :
    cmdOp w = op ∧ cmdA w &&& f.maskA = 0 ∧ cmdB w &&& f.maskB = 0 := by
  rw [← cmdWord_fields w, matchesWord_cmdWord] at h
  simpa using h

section

variable {w : CmdWord} {op : BitVec 8} {name : String}

theorem exists_encode_of_rowN {i : Instr} (henc : encode i = cmdWord op 0 0)
    (h : OpRow.matchesWord ⟨name, .n, cmdWord op 0 0⟩ w = true) : ∃ i, encode i = w := by
  obtain ⟨hop, ha, hb⟩ := fields_of_matchesWord h
  exact ⟨i, henc.trans (cmdWord_eq hop (BitVec.and_allOnes.symm.trans ha) (BitVec.and_allOnes.symm.trans hb))⟩

theorem exists_encode_of_rowS {f : Symbol → Instr} (henc : ∀ sym, encode (f sym) = cmdWord op (symOperand sym) 0)
    (h : OpRow.matchesWord ⟨name, .s, cmdWord op 0 0⟩ w = true) : ∃ i, encode i = w := by
  obtain ⟨hop, ha, hb⟩ := fields_of_matchesWord h
  have hsym := symOperand_of_high (high_eq_zero_of_and ha)
  exact ⟨_, (henc _).trans (cmdWord_eq hop hsym.symm (BitVec.and_allOnes.symm.trans hb))⟩

theorem exists_encode_of_rowSC {f : Symbol → Word32 → Instr}
    (henc : ∀ sym cnt, encode (f sym cnt) = cmdWord op (symOperand sym) cnt)
    (h : OpRow.matchesWord ⟨name, .sc, cmdWord op 0 0⟩ w = true) : ∃ i, encode i = w := by
  obtain ⟨hop, ha, -⟩ := fields_of_matchesWord h
  have hsym := symOperand_of_high (high_eq_zero_of_and ha)
  exact ⟨_, (henc _ _).trans (cmdWord_eq hop hsym.symm rfl)⟩

theorem exists_encode_of_rowB {f : Bool → Instr} (henc : ∀ bit, encode (f bit) = cmdWord op 0 (bitOperand bit))
    (h : OpRow.matchesWord ⟨name, .b, cmdWord op 0 0⟩ w = true) : ∃ i, encode i = w := by
  obtain ⟨hop, ha, hb⟩ := fields_of_matchesWord h
  have hbit := bitOperand_of_high (bit_high_eq_zero_of_and hb)
  exact ⟨_, (henc _).trans (cmdWord_eq hop (BitVec.and_allOnes.symm.trans ha) hbit.symm)⟩

theorem exists_encode_of_rowR {f : Word32 → Instr} (henc : ∀ regno, encode (f regno) = cmdWord op 0 regno)
    (h : OpRow.matchesWord ⟨name, .r, cmdWord op 0 0⟩ w = true) : ∃ i, encode i = w := by
  obtain ⟨hop, ha, -⟩ := fields_of_matchesWord h
  exact ⟨_, (henc _).trans (cmdWord_eq hop (BitVec.and_allOnes.symm.trans ha) rfl)⟩

theorem exists_encode_of_rowX {f : Index24 → Word32 → Instr}
    (henc : ∀ idx sel, encode (f idx sel) = cmdWord op idx sel)
    (h : OpRow.matchesWord ⟨name, .x, cmdWord op 0 0⟩ w = true) : ∃ i, encode i = w := by
  obtain ⟨hop, -, -⟩ := fields_of_matchesWord h
  exact ⟨_, (henc _ _).trans (cmdWord_eq hop rfl rfl)⟩

end

/-- A word that matches a row of the opcode table is the word of a command. -/
theorem exists_encode_of_matchesWord {w : CmdWord} :
    ∀ row ∈ opcodeTable, row.matchesWord w = true → ∃ i, encode i = w := by
  rw [opcodeTable_eq]
  simp only [List.forall_mem_cons, List.not_mem_nil, false_imp_iff, implies_true, and_true]
  exact ⟨exists_encode_of_rowN (i := .nop) rfl, exists_encode_of_rowN (i := .rst) rfl,
    exists_encode_of_rowN (i := .eclr) rfl, exists_encode_of_rowS (f := .fsym) fun _ => rfl,
    exists_encode_of_rowSC (f := .fadd) fun _ _ => rfl, exists_encode_of_rowN (i := .build) rfl,
    exists_encode_of_rowN (i := .gentab) rfl, exists_encode_of_rowN (i := .ebeg) rfl,
    exists_encode_of_rowS (f := .esym) fun _ => rfl, exists_encode_of_rowN (i := .eend) rfl,
    exists_encode_of_rowN (i := .dbeg) rfl, exists_encode_of_rowB (f := .dbit) fun _ => rfl,
    exists_encode_of_rowN (i := .dend) rfl, exists_encode_of_rowR (f := .rdr) fun _ => rfl,
    exists_encode_of_rowX (f := .rdf) fun _ _ => rfl, exists_encode_of_rowX (f := .rdn) fun _ _ => rfl,
    exists_encode_of_rowX (f := .rdc) fun _ _ => rfl⟩

/-- Settles O3: an accepted word is the word of its command, which matches the command's row only; a word that matches
a row is the word of a command, which is accepted. -/
theorem decoderFollowsTheTable : Obligations.DecoderFollowsTheTable := by
  refine fun w => ⟨fun i h => ?_, fun hno => ?_⟩
  · rw [← encodeOfDecode w i h]
    exact matchingRows_encode i
  · rw [matchingRows, List.map_eq_nil_iff, List.filter_eq_nil_iff]
    intro row hrow hmatch
    obtain ⟨i, rfl⟩ := exists_encode_of_matchesWord row hrow hmatch
    exact hno i (decode_encode i)

/-- Settles O5: each word is closed, so the decoder computes its answer. -/
theorem writtenOutWordsDecode : Obligations.WrittenOutWordsDecode := by
  unfold Obligations.WrittenOutWordsDecode
  decide

end Sys2Proof
end

