-- ==== Sys2Proof/Proofs/Responses.lean ====
section
/-! The response of every command word (R86, R88, R90): the outputs a command adds are stream items and one response,
which is OK with the command's data, or a fault's code with the fault's information word. -/

namespace Sys2Proof.Machine

/-- `Responds i s t`: command `i`, executed in `s`, ends in `t` with one response after its stream items: OK with the
data of R90, or a fault, which is BadSequence only where the phase check refused the command (R88). The state `u` is the
one just before the response. -/
inductive Responds (i : Instr) (s : State) : State → Prop where
  | ok (items : List OutItem) (u : State) (hitems : items.filterMap OutItem.toRsp = []) (hout : u.out = s.out ++ items) :
      Responds i s (respondOk (okData i s) u)
  | fault (items : List OutItem) (x : FaultKind) (info : Word32) (u : State) (hx : x = .badSequence → accepts i s = false)
      (hitems : items.filterMap OutItem.toRsp = []) (hout : u.out = s.out ++ items) : Responds i s (raiseFault x info u)

namespace Responds

variable {i : Instr} {s t : State}

/-- OK, nothing put out before it. -/
theorem okOnly (u : State) (hout : u.out = s.out) : Responds i s (respondOk (okData i s) u) :=
  .ok [] u rfl (by rw [hout, List.append_nil])

/-- A fault, nothing put out before it. -/
theorem faultOnly (x : FaultKind) (info : Word32) (hx : x = .badSequence → accepts i s = false) :
    Responds i s (raiseFault x info s) :=
  .fault [] x info s hx rfl (List.append_nil _).symm

theorem refused (info : Word32) (h : accepts i s = false) : Responds i s (raiseFault .badSequence info s) :=
  faultOnly _ info fun _ => h

theorem of_readback {v : Option Word32} (hv : okData i s = v.getD 0) (h : readback i v s = .next t) :
    Responds i s t := by
  rcases readback_cases h with ⟨d, rfl, rfl⟩ | ⟨-, rfl⟩
  · have hd : okData i s = d := hv
    exact hd ▸ okOnly s rfl
  · exact faultOnly .badOperand _ nofun

theorem of_countSymbol {sym : Symbol} {cnt : Word32} (hd : okData i s = 0) (h : countSymbol i sym cnt s = .next t) :
    Responds i s t := by
  rcases countSymbol_cases h with ⟨ha, ⟨⟩⟩ | ⟨-, -, ⟨⟩⟩ | ⟨-, -, -, ⟨⟩⟩ | ⟨-, -, -, -, -, ⟨⟩⟩ | ⟨_, _, -, -, -, -, ⟨⟩⟩
  · exact refused _ ha
  · exact hd ▸ okOnly s rfl
  · exact faultOnly .capacityExceeded _ nofun
  · exact hd ▸ okOnly _ rfl
  · exact hd ▸ okOnly _ rfl

theorem of_execBuild (h : execBuild s = .next t) : Responds .build s t := by
  rcases execBuild_cases h with ⟨ha, ⟨⟩⟩ | ⟨-, -, ⟨⟩⟩ | ⟨_, _, -, -, -, ⟨⟩⟩ | ⟨-, -, -, ⟨⟩⟩
  · exact refused _ ha
  · exact faultOnly .emptyInput _ nofun
  · exact okOnly _ rfl

theorem of_execGentab (h : execGentab s = .next t) : Responds .gentab s t := by
  rcases execGentab_cases h with ⟨ha, ⟨⟩⟩ | ⟨_, -, -, ⟨⟩⟩ | ⟨_, -, -, ⟨⟩⟩
  · exact refused _ ha
  · exact okOnly _ rfl

theorem of_execEbeg (h : execEbeg s = .next t) : Responds .ebeg s t := by
  rcases checked_cases h with ⟨-, ⟨⟩⟩ | ⟨ha, ⟨⟩⟩
  · exact okOnly _ rfl
  · exact refused _ ha

theorem of_execEsym {sym : Symbol} (h : execEsym sym s = .next t) : Responds (.esym sym) s t := by
  rcases execEsym_cases h with ⟨ha, ⟨⟩⟩ | ⟨-, -, ⟨⟩⟩ | ⟨_, _, -, -, -, ⟨⟩⟩ | ⟨_, e, -, -, -, ⟨⟩⟩
  · exact refused _ ha
  · exact .fault [.bo .abort] .unknownSymbol _ (abortEncode s) nofun rfl rfl
  · exact faultOnly .capacityExceeded _ nofun
  · exact .ok (bitItems e.bits) _ (bitItems_toRsp _) rfl

theorem of_execEend (h : execEend s = .next t) : Responds .eend s t := by
  rcases checked_cases h with ⟨-, ⟨⟩⟩ | ⟨ha, ⟨⟩⟩
  · exact .ok [.bo .endFrame] _ rfl rfl
  · exact refused _ ha

theorem of_execDbeg (h : execDbeg s = .next t) : Responds .dbeg s t := by
  rcases checked_cases h with ⟨-, ⟨⟩⟩ | ⟨ha, ⟨⟩⟩
  · exact okOnly _ rfl
  · exact refused _ ha

theorem of_execDbit {bit : Bool} (h : execDbit bit s = .next t) : Responds (.dbit bit) s t := by
  rcases execDbit_cases h with ⟨ha, ⟨⟩⟩ | ⟨-, -, ⟨⟩⟩ | ⟨_, sym, -, -, -, ⟨⟩⟩ | ⟨_, _, _, _, sym, -, -, -, -, ⟨⟩⟩ |
    ⟨_, _, _, _, _, _, -, -, -, -, ⟨⟩⟩ | ⟨-, -, -, ⟨⟩⟩
  · exact refused _ ha
  · exact faultOnly .capacityExceeded _ nofun
  · exact .ok [.so (.sym sym)] _ rfl rfl
  · exact .ok [.so (.sym sym)] _ rfl rfl
  · exact okOnly _ rfl

theorem of_execDend (h : execDend s = .next t) : Responds .dend s t := by
  rcases execDend_cases h with ⟨ha, ⟨⟩⟩ | ⟨_, _, -, -, ⟨⟩⟩ | ⟨_, _, _, _, sym, -, -, -, ⟨⟩⟩ |
    ⟨_, _, _, _, _, _, -, -, -, ⟨⟩⟩ | ⟨-, -, ⟨⟩⟩
  · exact refused _ ha
  · exact .ok [.so .endFrame] _ rfl rfl
  · exact .ok [.so (.sym sym), .so .endFrame] _ rfl (List.append_assoc _ _ _)
  · exact .fault [.so .abort] .truncatedInput _ (abortDecode s) nofun rfl rfl

end Responds

/-- Every command that answers a next state answers one response. -/
theorem exec_responds {i : Instr} {s t : State} (h : exec i s = .next t) : Responds i s t := by
  cases i with
  | nop => cases h; exact .okOnly s rfl
  | rst =>
    cases h
    exact .ok (abortItems s) _ (by cases he : s.encAct <;> cases hd : s.decAct <;> simp [abortItems, he, hd]) rfl
  | eclr => cases h; exact .okOnly _ rfl
  | fsym sym => exact .of_countSymbol rfl h
  | fadd sym cnt => exact .of_countSymbol rfl h
  | build => exact .of_execBuild h
  | gentab => exact .of_execGentab h
  | ebeg => exact .of_execEbeg h
  | esym sym => exact .of_execEsym h
  | eend => exact .of_execEend h
  | dbeg => exact .of_execDbeg h
  | dbit bit => exact .of_execDbit h
  | dend => exact .of_execDend h
  | rdr regno => exact .of_readback rfl h
  | rdf idx sel => exact .of_readback rfl h
  | rdn idx sel => exact .of_readback rfl h
  | rdc idx sel => exact .of_readback rfl h

/-! The fields of a response word (R90, R200) -/

/-- A response word is laid out as a command word is, so its data field is the data it is made of. -/
theorem rspWord_data (status : BitVec 8) (data : Word32) : (rspWord status data).extractLsb' 0 32 = data :=
  cmdB_cmdWord status 0 data

theorem rspWord_zeros (status : BitVec 8) (data : Word32) : (rspWord status data).extractLsb' 32 24 = 0 :=
  cmdA_cmdWord status 0 data

/-- The fault codes are 1 to 7 (R200). -/
theorem faultCode_range (x : FaultKind) : 1 ≤ faultCode x ∧ faultCode x ≤ 7 := by
  cases x <;> decide

theorem faultCode_eq_five {x : FaultKind} (h : faultCode x = 5) : x = .badSequence := by
  cases x with
  | badSequence => rfl
  | _ => cases h

theorem rspStatus_fault (x : FaultKind) (info : Word32) :
    rspStatus (rspWord (BitVec.ofNat 8 (faultCode x)) info) = faultCode x := by
  rw [rspStatus_rspWord]
  cases x <;> rfl

/-- What R90 says of the response `r` to command word `w`, executed in `s` with next state `t`. -/
def IsResponse (w : CmdWord) (s t : State) (r : RspWord) : Prop :=
  rspStatus r ≤ 7 ∧ r.extractLsb' 32 24 = 0 ∧
    (rspStatus r ≠ 0 → t.eLast.toNat = rspStatus r ∧ r.extractLsb' 0 32 = t.eInfo) ∧
    (rspStatus r = 0 → ∃ i, decode w = .ok i ∧ r.extractLsb' 0 32 = okData i s)

theorem isResponse_ok {w : CmdWord} {i : Instr} (hdec : decode w = .ok i) (s t : State) :
    IsResponse w s t (rspWord 0 (okData i s)) := by
  have hstatus : rspStatus (rspWord 0 (okData i s)) = 0 := rspStatus_rspWord 0 _
  exact ⟨by omega, rspWord_zeros _ _, fun hne => absurd hstatus hne, fun _ => ⟨i, hdec, rspWord_data _ _⟩⟩

theorem isResponse_fault (w : CmdWord) (x : FaultKind) (info : Word32) (s u : State) :
    IsResponse w s (raiseFault x info u) (rspWord (BitVec.ofNat 8 (faultCode x)) info) := by
  have hstatus := rspStatus_fault x info
  obtain ⟨hlow, hhigh⟩ := faultCode_range x
  refine ⟨by omega, rspWord_zeros _ _, fun _ => ⟨?_, rspWord_data _ _⟩, fun h0 => by omega⟩
  rw [hstatus, raiseFault_eLast, BitVec.toNat_ofNat, Nat.mod_eq_of_lt (by omega)]

/-- The data of an OK response does not depend on what the host will do next. -/
theorem okData_inp (i : Instr) (s : State) (inp : List Input) : okData i { s with inp := inp } = okData i s := by
  cases i with
  | rdr regno => simp only [okData]; unfold readReg; rfl
  | _ => rfl

/-! Every command word -/

/-- Settles O8: of all a step can be, an input that decodes to no command leaves the refusal. -/
theorem illegalWordIsRefused : Obligations.IllegalWordIsRefused := by
  intro s w rest hinp hno
  rcases step_cases s with ⟨h, -⟩ | ⟨_, h, -⟩ | ⟨w', _, i, h, hdec, -⟩ | ⟨w', rest', h, -, hstep⟩
  · cases hinp.symm.trans h
  · cases hinp.symm.trans h
  · cases hinp.symm.trans h
    exact absurd hdec (hno i)
  · cases hinp.symm.trans h
    exact hstep

/-- Settles O11: a word that is a command answers as its command does, and any other word raises IllegalCommand. -/
theorem everyCommandAnswersOneResponse : Obligations.EveryCommandAnswersOneResponse := by
  intro s t w rest hinp hs
  by_cases hdec : ∃ i, decode w = .ok i
  · obtain ⟨i, hdec⟩ := hdec
    rw [stepRunsTheDecodedCommand s w rest i hinp hdec] at hs
    cases exec_responds hs with
    | ok items u hitems hout =>
      rw [okData_inp]
      exact ⟨items, _, by rw [respondOk_out, hout], List.filterMap_eq_nil_iff.mp hitems, isResponse_ok hdec s _⟩
    | fault items x info u hx hitems hout =>
      exact ⟨items, _, by rw [raiseFault_out, hout], List.filterMap_eq_nil_iff.mp hitems, isResponse_fault w x info s u⟩
  · rw [illegalWordIsRefused s w rest hinp (not_exists.mp hdec)] at hs
    cases hs
    exact ⟨[], _, by rw [raiseFault_out, List.append_nil], nofun, isResponse_fault w _ _ s _⟩

/-! The phase check (R88) -/

/-- A command that the phase check does not accept is refused, whichever it is. -/
theorem exec_refused {i : Instr} {s : State} (h : accepts i s = false) :
    exec i s = .next (raiseFault .badSequence (upperHalf (encode i)) s) := by
  cases i with
  | nop | rst | eclr | rdr | rdf | rdn | rdc => cases h
  | _ => exact checked_refused h _

/-- The response that a state's outputs add after stream items is the one its responses add. -/
theorem response_eq {s t : State} {items : List OutItem} {w r : RspWord} (hitems : items.filterMap OutItem.toRsp = [])
    (hout : t.out = s.out ++ items ++ [.rsp w]) (hr : t.rsps = s.rsps ++ [r]) : w = r := by
  rw [List.append_assoc] at hout
  rw [rsps_of_out hout, List.filterMap_append, hitems] at hr
  exact List.head_eq_of_cons_eq (List.append_cancel_left hr)

/-- The response a command adds reports BadSequence only where the phase check refused it. -/
theorem Responds.refused_of_status {i : Instr} {s t : State} {r : RspWord} (h : Responds i s t)
    (hr : t.rsps = s.rsps ++ [r]) (hstatus : rspStatus r = 5) : accepts i s = false := by
  cases h with
  | ok items u hitems hout =>
    rw [← response_eq hitems (by rw [respondOk_out, hout]) hr, rspStatus_rspWord] at hstatus
    exact absurd hstatus (by decide)
  | fault items x info u hx hitems hout =>
    rw [← response_eq hitems (by rw [raiseFault_out, hout]) hr, rspStatus_fault] at hstatus
    exact hx (faultCode_eq_five hstatus)

/-- Settles O14: the phase check is the table of R88, and no other check raises BadSequence. -/
theorem phaseCheckDecidesBadSequence : Obligations.PhaseCheckDecidesBadSequence := by
  refine fun i s => ⟨fun h => ⟨h.frames.encReady, h.frames.decBuilt⟩, fun hn => exec_refused ?_, fun hc t r h hr hst => ?_⟩
  · rw [← accepts_iff_phaseCondition, Bool.not_eq_true] at hn
    exact hn
  · have hrefused := (exec_responds h).refused_of_status hr hst
    rw [(accepts_iff_phaseCondition i s).mpr hc] at hrefused
    cases hrefused

end Sys2Proof.Machine
end

