-- ==== Sys2Proof/Proofs/Counting.lean ====
section
/-! The frequency counter (R100 to R102): the cases of FSYM and FADD, and the map that a counted text leaves. -/

namespace Sys2Proof.Machine

/-- A counter takes a number exactly when their sum is at most 2^32 - 1 (R101). -/
theorem fitsCounter_iff_le {c : Word32} {n : Nat} : fitsCounter c n = true ↔ c.toNat + n ≤ maxWord32 :=
  decide_eq_true_iff

/-! One count, case by case (R101) -/

section Count

variable {i : Instr} {sym : Symbol} {cnt : Word32} {s : State}

/-- A count of 0 is accepted and adds nothing (R101, D7). -/
theorem countSymbol_zero (ha : accepts i s = true) : countSymbol i sym 0 s = .next (respondOk 0 s) := by
  rw [countSymbol, checked_accepted ha, if_pos rfl]

/-- A new symbol takes slot K (R102). -/
theorem countSymbol_new (ha : accepts i s = true) (hc : cnt ≠ 0) (hf : fitsCounter s.total cnt.toNat = true)
    (hl : Table.lookup FmEntry.sym s.fm sym = none) (hk : s.k.toNat < s.kMax) :
    countSymbol i sym cnt s = .next (respondOk 0
      { s with fm := Table.write s.fm s.k.toNat ⟨sym, cnt⟩, k := s.k + 1, total := s.total + cnt }) := by
  rw [countSymbol, checked_accepted ha, if_neg hc, hl]
  simp only [hk, hf, not_true_eq_false, if_false]

/-- A symbol of the map keeps its slot. -/
theorem countSymbol_known (ha : accepts i s = true) (hc : cnt ≠ 0) (hf : fitsCounter s.total cnt.toNat = true)
    {slot : Nat} {e : FmEntry} (hl : Table.lookup FmEntry.sym s.fm sym = some (slot, e)) :
    countSymbol i sym cnt s = .next (respondOk 0
      { s with fm := Table.write s.fm slot ⟨e.sym, e.cnt + cnt⟩, total := s.total + cnt }) := by
  rw [countSymbol, checked_accepted ha, if_neg hc, hl]
  simp only [hf, not_true_eq_false, if_false]

/-- Neither a new symbol in a full map nor a count that TOTAL cannot take is counted. -/
theorem countSymbol_full (ha : accepts i s = true) (hc : cnt ≠ 0)
    (h : (Table.lookup FmEntry.sym s.fm sym = none ∧ ¬s.k.toNat < s.kMax) ∨
      fitsCounter s.total cnt.toNat = false) :
    countSymbol i sym cnt s = .next (raiseFault .capacityExceeded (upperHalf (encode i)) s) := by
  rcases countSymbol_cases (rfl : countSymbol i sym cnt s = _) with
    ⟨hn, -⟩ | ⟨-, h0, -⟩ | ⟨-, -, -, hr⟩ | ⟨-, -, hl, hk, hf, -⟩ | ⟨_, _, -, -, hl, hf, -⟩
  · simp [ha] at hn
  · exact absurd h0 hc
  · exact hr
  · simp [hk, hf] at h
  · simp [hl, hf] at h

/-- A command that is `countSymbol` in COLLECT has all the cases of R101. -/
theorem countsOccurrences_of_countSymbol (he : exec i s = countSymbol i sym cnt s)
    (hacc : accepts i s = (s.phase == .collect)) : countsOccurrences i sym cnt s := by
  have haccept (hp : s.phase = .collect) : accepts i s = true := by rw [hacc, hp]; rfl
  refine ⟨fun hp => exec_refused (by rw [hacc]; exact beq_eq_false_iff_ne.mpr hp), fun hp h0 => ?_,
    fun hp hc hfull => ?_, fun hp hc hle hl hk => ?_, fun hp hc hle slot e hl => ?_⟩
  · rw [he, h0, countSymbol_zero (haccept hp)]
  · rw [he, countSymbol_full (haccept hp) hc]
    exact hfull.imp (And.imp_right Nat.not_lt.mpr) fun hlt =>
      Bool.eq_false_iff.mpr fun hf => absurd (fitsCounter_iff_le.mp hf) (Nat.not_le.mpr hlt)
  · exact ⟨_, he.trans (countSymbol_new (haccept hp) hc (fitsCounter_iff_le.mpr hle) hl hk),
      Table.read_write_same _ _ _, fun j hj => Table.read_write_other _ _ hj⟩
  · exact ⟨_, he.trans (countSymbol_known (haccept hp) hc (fitsCounter_iff_le.mpr hle) hl),
      Table.read_write_same _ _ _, fun j hj => Table.read_write_other _ _ hj⟩

end Count

/-- Settles O18: FADD is `countSymbol`. -/
theorem faddCounts : Obligations.FaddCounts := fun _ _ _ => countsOccurrences_of_countSymbol rfl rfl

/-- Settles O19: FSYM is `countSymbol` with the count 1. -/
theorem fsymCountsOne : Obligations.FsymCountsOne := fun _ _ => countsOccurrences_of_countSymbol rfl rfl

/-! The distinct symbols of a text that grows at its end -/

theorem eraseDups_concat_of_mem {text : List Symbol} {a : Symbol} (h : a ∈ text) :
    (text ++ [a]).eraseDups = text.eraseDups := by
  simp [List.eraseDups_append, List.removeAll, h]

theorem eraseDups_concat_of_not_mem {text : List Symbol} {a : Symbol} (h : a ∉ text) :
    (text ++ [a]).eraseDups = text.eraseDups ++ [a] := by
  simp [List.eraseDups_append, List.removeAll, List.eraseDups_cons, h]

theorem nodup_eraseDups (text : List Symbol) : text.eraseDups.Nodup := by
  induction text using List.reverseRecOn with
  | nil => exact List.nodup_nil
  | append_singleton text a ih =>
    by_cases h : a ∈ text
    · rwa [eraseDups_concat_of_mem h]
    · rw [eraseDups_concat_of_not_mem h]
      exact List.concat_eq_append ▸ ih.concat (mt List.mem_eraseDups.mp h)

theorem length_eraseDups_le (text : List Symbol) : text.eraseDups.length ≤ text.length :=
  (List.subperm_of_subset (nodup_eraseDups text) fun _ => List.mem_eraseDups.mp).length_le

/-! The map of a counted text (R100) -/

/-- The map in `s` is that of the symbols counted so far, `text`: in the slots below K stand their distinct symbols in
order of first occurrence, each with the number of its occurrences; COLLECT goes on and no fault is raised. -/
structure Counted (text : List Symbol) (s : State) : Prop where
  keys : s.fm.map Prod.fst = List.range text.eraseDups.length
  symbols : s.fm.map (fun e => e.2.sym) = text.eraseDups
  counts : ∀ i e, Table.read s.fm i = some e → e.cnt.toNat = text.count e.sym
  slots : s.k.toNat = text.eraseDups.length
  total : s.total.toNat = text.length
  phase : s.phase = .collect
  noFault : s.err = 0

namespace Counted

variable {text : List Symbol} {a : Symbol} {s : State}

theorem resetFor (kMax : Nat) : Counted [] (State.resetFor kMax) :=
  ⟨rfl, rfl, nofun, rfl, rfl, rfl, rfl⟩

theorem wf (h : Counted text s) : Table.wf s.fm := Table.wf_of_keys h.keys

/-- The entries as symbols with their counts, in the order of their slots. -/
theorem entries (h : Counted text s) :
    s.fm.map (fun e => (e.2.sym, e.2.cnt.toNat)) = text.eraseDups.map (fun a => (a, text.count a)) := by
  rw [← h.symbols, List.map_map]
  exact List.map_congr_left fun e he => Prod.ext rfl (h.counts e.1 e.2 (Table.read_of_mem h.wf he))

theorem sym_mem (h : Counted text s) {i : Nat} {e : FmEntry} (hr : Table.read s.fm i = some e) : e.sym ∈ text := by
  rw [← List.mem_eraseDups, ← h.symbols]
  exact List.mem_map.mpr ⟨_, Table.mem_of_read hr, rfl⟩

theorem not_mem_of_lookup (h : Counted text s) (hl : Table.lookup FmEntry.sym s.fm a = none) : a ∉ text := by
  rw [← List.mem_eraseDups, ← h.symbols]
  intro hm
  obtain ⟨e, he, hea⟩ := List.mem_map.mp hm
  exact Table.lookup_none hl (Table.read_of_mem h.wf he) hea

/-- An entry of another symbol keeps its count. -/
theorem counts_concat_of_ne (h : Counted text s) {i : Nat} {e : FmEntry} (hr : Table.read s.fm i = some e)
    (hne : e.sym ≠ a) : e.cnt.toNat = (text ++ [a]).count e.sym := by
  rw [h.counts i e hr, List.count_append, List.count_singleton, if_neg (by simpa using hne.symm), Nat.add_zero]

/-- TOTAL has room for the next symbol of a text that is not too long. -/
theorem total_fits (h : Counted text s) (hlen : (text ++ [a]).length ≤ maxWord32) : fitsCounter s.total 1 = true := by
  rw [List.length_append, List.length_singleton, ← h.total] at hlen
  exact fitsCounter_iff_le.mpr hlen

theorem total_concat (h : Counted text s) (hlen : (text ++ [a]).length ≤ maxWord32) :
    (s.total + 1).toNat = (text ++ [a]).length := by
  rw [toNat_add_one_of_fits (h.total_fits hlen), h.total, List.length_append, List.length_singleton]

/-- A first occurrence takes slot K with the count 1 (R102). -/
theorem countNew (h : Counted text s) (hl : Table.lookup FmEntry.sym s.fm a = none)
    (hlen : (text ++ [a]).length ≤ maxWord32) :
    Counted (text ++ [a]) (Machine.respondOk 0
      { s with fm := Table.write s.fm s.k.toNat ⟨a, 1⟩, k := s.k + 1, total := s.total + 1 }) := by
  have hnew := h.not_mem_of_lookup hl
  have hdistinct := eraseDups_concat_of_not_mem hnew
  obtain ⟨hw, hkeys⟩ := Table.write_next (h.slots ▸ h.keys) (FmEntry.mk a 1)
  have hk := length_eraseDups_le text
  have hslots := h.slots
  have hshort : text.length + 1 ≤ maxWord32 := by rwa [List.length_append] at hlen
  refine ⟨?_, ?_, fun i e he => ?_, ?_, ?_, h.phase, h.noFault⟩
  · rw [hdistinct, List.length_append, ← hslots]
    exact hkeys
  · rw [hdistinct, ← h.symbols, respondOk_fm, hw, List.map_append]
    rfl
  · rw [respondOk_fm] at he
    by_cases hi : i = s.k.toNat
    · subst hi
      rw [Table.read_write_same] at he
      cases he
      simp [List.count_eq_zero_of_not_mem hnew]
    · rw [Table.read_write_other _ _ hi] at he
      exact h.counts_concat_of_ne he (Table.lookup_none hl he)
  · rw [hdistinct, List.length_append, List.length_singleton, ← hslots]
    exact toNat_add_one_of_fits (fitsCounter_iff_le.mpr (by omega))
  · exact h.total_concat hlen

/-- A later occurrence adds 1 to the count of its symbol and moves nothing (R100). -/
theorem countMore (h : Counted text s) {slot : Nat} {e : FmEntry}
    (hl : Table.lookup FmEntry.sym s.fm a = some (slot, e)) (hlen : (text ++ [a]).length ≤ maxWord32) :
    Counted (text ++ [a]) (Machine.respondOk 0
      { s with fm := Table.write s.fm slot ⟨e.sym, e.cnt + 1⟩, total := s.total + 1 }) := by
  obtain ⟨hr, rfl⟩ := Table.lookup_some h.wf hl
  have hdistinct := eraseDups_concat_of_mem (h.sym_mem hr)
  have hcnt := h.counts slot e hr
  have hcount : text.count e.sym ≤ text.length := List.count_le_length
  have hshort : text.length + 1 ≤ maxWord32 := by rwa [List.length_append] at hlen
  refine ⟨?_, ?_, fun i x hx => ?_, ?_, ?_, h.phase, h.noFault⟩
  · rw [hdistinct, ← h.keys]
    exact Table.keys_overwrite h.wf (List.mem_map.mpr ⟨_, Table.mem_of_read hr, rfl⟩) _
  · rw [hdistinct, ← h.symbols]
    exact Table.map_overwrite h.wf hr _ (f := FmEntry.sym) rfl
  · rw [respondOk_fm] at hx
    by_cases hi : i = slot
    · subst hi
      rw [Table.read_write_same] at hx
      cases hx
      rw [List.count_append, List.count_singleton_self, ← hcnt]
      exact toNat_add_one_of_fits (fitsCounter_iff_le.mpr (by omega))
    · rw [Table.read_write_other _ _ hi] at hx
      refine h.counts_concat_of_ne hx fun hsym => hi ?_
      have hl' := Table.lookup_of_read (h.symbols ▸ nodup_eraseDups text) hx hsym
      exact congrArg Prod.fst (Option.some.inj (hl'.symm.trans hl))
  · rw [hdistinct]
    exact h.slots
  · exact h.total_concat hlen

/-- FSYM counts the next symbol of a text where map and TOTAL have room for it (R100). -/
theorem fsym (h : Counted text s) (hroom : (text ++ [a]).eraseDups.length ≤ s.kMax)
    (hlen : (text ++ [a]).length ≤ maxWord32) :
    ∃ t, exec (.fsym a) s = .next t ∧ t.kMax = s.kMax ∧ Counted (text ++ [a]) t := by
  have ha : accepts (.fsym a) s = true := beq_iff_eq.mpr h.phase
  have hf : fitsCounter s.total (1 : Word32).toNat = true := h.total_fits hlen
  cases hl : Table.lookup FmEntry.sym s.fm a with
  | none =>
    rw [eraseDups_concat_of_not_mem (h.not_mem_of_lookup hl), List.length_append, ← h.slots] at hroom
    exact ⟨_, countSymbol_new ha (by decide) hf hl hroom, rfl, h.countNew hl hlen⟩
  | some p => exact ⟨_, countSymbol_known ha (by decide) hf hl, rfl, h.countMore hl hlen⟩

end Counted

/-- The FSYMs of a text that the map and TOTAL can hold count it from reset (R100). -/
theorem execAll_ftext {kMax : Nat} {text : List Symbol} (hroom : text.eraseDups.length ≤ kMax)
    (hlen : text.length ≤ maxWord32) :
    ∃ t, execAll (Instr.ftext text) (State.resetFor kMax) = .next t ∧ t.kMax = kMax ∧ Counted text t := by
  induction text using List.reverseRecOn with
  | nil => exact ⟨_, rfl, rfl, .resetFor kMax⟩
  | append_singleton text a ih =>
    have hle : text.eraseDups.length ≤ (text ++ [a]).eraseDups.length := by
      rw [List.eraseDups_append, List.length_append]
      exact Nat.le_add_right _ _
    obtain ⟨s, hs, hkMax, hcounted⟩ := ih (hle.trans hroom) (by rw [List.length_append] at hlen; omega)
    obtain ⟨t, ht, htMax, h⟩ := hcounted.fsym (hkMax ▸ hroom) hlen
    refine ⟨t, ?_, htMax.trans hkMax, h⟩
    calc execAll (Instr.ftext (text ++ [a])) (State.resetFor kMax)
        = execAll (Instr.ftext text ++ [.fsym a]) (State.resetFor kMax) := by simp [Instr.ftext]
      _ = execAll [.fsym a] s := execAll_append_next hs
      _ = .next t := execAll_cons_next ht

/-- Settles O20: each FSYM from reset keeps `Counted` of the symbols so far, by induction on the text from its end. -/
theorem countingATextGivesItsCounts : Obligations.CountingATextGivesItsCounts := by
  intro kMax text hroom hlen
  obtain ⟨t, ht, -, h⟩ := execAll_ftext hroom hlen
  exact ⟨t, ht, h.keys, h.entries, h.slots, h.total, h.phase, h.noFault⟩

end Sys2Proof.Machine
end

