-- ==== Sys2Proof/Proofs/TreeBuilderClaims.lean ====
section
/-! The claims of 41_tree_builder.md: BUILD's refusals (R118), the tree it makes (R110 to R116), and that the map
determines the tree (R112). -/

namespace Sys2Proof.Machine

/-! BUILD -/

/-- BUILD of an empty map in COLLECT (R118). -/
theorem execBuild_empty {s : State} (hp : s.phase = .collect) (hk : s.k = 0) :
    execBuild s = .next (raiseFault .emptyInput 0 s) := by
  rw [execBuild, checked_accepted ((accepts_iff_phaseCondition .build s).mpr hp), if_pos hk]

/-- BUILD of a non-empty map in COLLECT, its entries read by slot (R110). -/
theorem execBuild_entries {s : State} (hp : s.phase = .collect) (hk : s.k ≠ 0) {e : FmEntry} {es : List FmEntry}
    (hr : readSlots s.fm 0 s.k.toNat = some (e :: es)) :
    execBuild s = .next (respondOk 0 (installTree (buildTree s.nm e es) s)) := by
  rw [execBuild, checked_accepted ((accepts_iff_phaseCondition .build s).mpr hp), if_neg hk, hr]

/-- A non-empty map has a first entry, and its entries can be read by slot (R38). -/
theorem MapInv.exists_entries {s : State} (h : MapInv s) (hk : s.k ≠ 0) :
    ∃ e es, readSlots s.fm 0 s.k.toNat = some (e :: es) := by
  have hr := readSlots_of_keys h.keys
  cases hes : s.fm.map Prod.snd with
  | nil =>
    have hlen := (readSlots_some hr).1
    rw [hes, List.length_nil] at hlen
    exact absurd (BitVec.eq_of_toNat_eq hlen.symm) hk
  | cons e es => exact ⟨e, es, hes ▸ hr⟩

/-- Settles O22: the merge loop keeps the forest invariant and ends in one tree (`treeInv_buildTree`). -/
theorem buildMakesTheTree : Obligations.BuildMakesTheTree := by
  intro s h hp hk
  obtain ⟨hnm, -, -⟩ := h.phase.collect hp
  obtain ⟨e, es, hr⟩ := h.map.exists_entries hk
  exact ⟨_, execBuild_entries hp hk hr, (treeInv_buildTree h.map hnm hr).congr rfl, rfl⟩

/-- Settles O21: the test for an empty map stands behind the phase check. -/
theorem buildRefusals : Obligations.BuildRefusals := by
  refine fun s => ⟨execBuild_empty, fun hp => ?_⟩
  have ha : accepts .build s = false := by rwa [← Bool.not_eq_true, accepts_iff_phaseCondition]
  exact exec_refused ha

/-! The map determines the tree -/

/-- In canonical form, the listed pairs are what the indices read. -/
theorem Table.mem_iff_read {α : Type} {t : Table α} (hw : Table.wf t) (e : Nat × α) :
    e ∈ t ↔ Table.read t e.1 = some e.2 := ⟨Table.read_of_mem hw, Table.mem_of_read⟩

/-- Two tables in canonical form that read the same at every index are the same table. -/
theorem Table.eq_of_read_eq {α : Type} {t u : Table α} (ht : Table.wf t) (hu : Table.wf u)
    (h : ∀ i, Table.read t i = Table.read u i) : t = u := by
  have : Std.Asymm fun a b : Nat × α => a.1 < b.1 := ⟨fun _ _ hab => Nat.lt_asymm hab⟩
  exact (List.pairwise_map.mp ht).eq_of_mem_iff (List.pairwise_map.mp hu) fun e => by
    rw [Table.mem_iff_read ht, Table.mem_iff_read hu, h]

/-- `<<` is asymmetric (R8). -/
theorem nodeBefore_asymm {nm : Table Node} {x y : Nat} (h : nodeBefore nm x y) : ¬nodeBefore nm y x := by
  rintro ⟨b', a', hb', ha', hyx⟩
  obtain ⟨a, b, ha, hb, hxy⟩ := h
  obtain rfl := Option.some_inj.mp (ha.symm.trans ha')
  obtain rfl := Option.some_inj.mp (hb.symm.trans hb')
  rcases hxy with hlt | ⟨heq, hlt⟩ <;> rcases hyx with hlt' | ⟨heq', hlt'⟩
  · omega
  · rw [heq'] at hlt; omega
  · rw [heq] at hlt'; omega
  · omega

/-- The two `<<`-least roots at the moment of a merge are determined, and so is their order (R112). -/
theorem mergesLeast_unique {nm : Table Node} {m : Nat} {l r l' r' : Word32} (h : mergesLeast nm m l r)
    (h' : mergesLeast nm m l' r') : l = l' ∧ r = r' := by
  obtain ⟨hl, hr, hne, hleast, hnext⟩ := h
  obtain ⟨hl', hr', hne', hleast', hnext'⟩ := h'
  have hll : l = l' := BitVec.eq_of_toNat_eq <| by
    by_contra hn
    exact nodeBefore_asymm (hleast _ hl' (Ne.symm hn)) (hleast' _ hl hn)
  subst hll
  refine ⟨rfl, BitVec.eq_of_toNat_eq ?_⟩
  by_contra hn
  have hrl : r.toNat ≠ l.toNat := fun heq => hne (BitVec.eq_of_toNat_eq heq.symm)
  have hrl' : r'.toNat ≠ l.toNat := fun heq => hne' (BitVec.eq_of_toNat_eq heq.symm)
  exact nodeBefore_asymm (hnext _ hr' hrl' (Ne.symm hn)) (hnext' _ hr hrl hn)

namespace TreeInv

variable {s t : State}

/-- The number of nodes is a function of K (R116). -/
theorem nn_eq (hs : TreeInv s) (ht : TreeInv t) (hk : s.k = t.k) : s.nn = t.nn :=
  BitVec.eq_of_toNat_eq <| by rw [hs.size, ht.size, hk]

/-- An internal node is determined by the older nodes: they say which two roots its merge takes, and their frequencies
(R112 to R114). -/
theorem internal_eq (hs : TreeInv s) (ht : TreeInv t) (hk : s.k = t.k) {m : Nat} (hkm : s.k.toNat ≤ m)
    (hm : m < s.nn.toNat) (hold : ∀ j < m, Table.read s.nm j = Table.read t.nm j) :
    Table.read s.nm m = Table.read t.nm m := by
  obtain ⟨f, l, r, a, b, hread, hl, hr, -, ha, hb, hf⟩ := hs.internals m hkm hm
  obtain ⟨f', l', r', a', b', hread', -, -, -, ha', hb', hf'⟩ :=
    ht.internals m (hk ▸ hkm) (hs.nn_eq ht hk ▸ hm)
  obtain ⟨rfl, rfl⟩ :=
    mergesLeast_unique (hs.least m f l r hread) (mergesLeast_congr hold (ht.least m f' l' r' hread'))
  obtain rfl := Option.some_inj.mp (ha.symm.trans ((hold _ hl).trans ha'))
  obtain rfl := Option.some_inj.mp (hb.symm.trans ((hold _ hr).trans hb'))
  obtain rfl : f = f' := BitVec.eq_of_toNat_eq (hf.trans hf'.symm)
  rw [hread, hread']

/-- Trees over the same map agree at every node, from the leaves up. -/
theorem read_eq (hs : TreeInv s) (ht : TreeInv t) (hk : s.k = t.k) (hfm : s.fm = t.fm) (i : Nat) :
    Table.read s.nm i = Table.read t.nm i := by
  induction i using Nat.strong_induction_on with
  | _ i hold =>
    rcases Nat.lt_or_ge i s.k.toNat with hik | hik
    · obtain ⟨e, he, hleaf⟩ := hs.leaves i hik
      obtain ⟨e', he', hleaf'⟩ := ht.leaves i (hk ▸ hik)
      obtain rfl := Option.some_inj.mp (he.symm.trans (hfm ▸ he'))
      rw [hleaf, hleaf']
    · rcases Nat.lt_or_ge i s.nn.toNat with hin | hin
      · exact hs.internal_eq ht hk hik hin hold
      · rw [Table.none_of_keys hs.keys hin, Table.none_of_keys ht.keys (hs.nn_eq ht hk ▸ hin)]

end TreeInv

/-- Settles O23: the trees agree node by node, the root included, whose frequency is TOTAL. -/
theorem theMapDeterminesTheTree : Obligations.TheMapDeterminesTheTree := by
  intro s t hs ht hk hfm
  have hread := hs.read_eq ht hk hfm
  have hnn := hs.nn_eq ht hk
  have hroot : s.root = t.root := BitVec.eq_of_toNat_eq <| by rw [hs.root, ht.root, hnn]
  refine ⟨Table.eq_of_read_eq (Table.wf_of_keys hs.keys) (Table.wf_of_keys ht.keys) hread, hnn, hroot, ?_⟩
  obtain ⟨n, hn, hf⟩ := hs.total
  obtain ⟨n', hn', hf'⟩ := ht.total
  obtain rfl := Option.some_inj.mp (hn.symm.trans ((hread _).trans (hroot ▸ hn')))
  exact hf.symm.trans hf'

end Sys2Proof.Machine
end

