-- ==== Sys2Proof/Proofs/CodeTableClaims.lean ====
section
/-! The claims of 42_code_table_generator.md: GENTAB completes with the code of every leaf (R130 to R133), how long a
code can be (R135), and that the codes leave no path out (R136). -/

namespace Sys2Proof.Machine

/-! Paths step by step (R131) -/

/-- A path that starts with a bit starts at an internal node, with the descent the bit selects. -/
theorem followPath_cons_iff {nm : Table Node} {n i : Nat} {b : Bool} {p : List Bool} :
    followPath nm n (b :: p) = some i ↔
      ∃ f l r, Table.read nm n = some (.internal f l r) ∧ followPath nm (if b then r else l).toNat p = some i := by
  rw [followPath]
  split
  · next f l r hn => simp [hn]
  · next hno => exact ⟨nofun, fun ⟨f, l, r, hn, _⟩ => absurd hn (hno f l r)⟩

/-- A path that ends with a bit ends with the descent the bit selects, from an internal node. -/
theorem followPath_concat {nm : Table Node} {n i : Nat} {b : Bool} {p : List Bool}
    (h : followPath nm n (p ++ [b]) = some i) :
    ∃ m f l r, followPath nm n p = some m ∧ Table.read nm m = some (.internal f l r) ∧
      (if b then r else l).toNat = i := by
  induction p generalizing n with
  | nil =>
    obtain ⟨f, l, r, hn, hc⟩ := followPath_cons_iff.mp h
    exact ⟨n, f, l, r, rfl, hn, Option.some_inj.mp hc⟩
  | cons a p ih =>
    obtain ⟨f, l, r, hn, hc⟩ := followPath_cons_iff.mp h
    obtain ⟨m, g, l', r', hp, hm, hi⟩ := ih hc
    exact ⟨m, g, l', r', followPath_cons_iff.mpr ⟨f, l, r, hn, hp⟩, hm, hi⟩

theorem isChild_left {nm : Table Node} {m : Nat} {f l r : Word32} (hm : Table.read nm m = some (.internal f l r)) :
    isChild nm m l.toNat := ⟨f, l, r, hm, .inl rfl⟩

theorem isChild_right {nm : Table Node} {m : Nat} {f l r : Word32} (hm : Table.read nm m = some (.internal f l r)) :
    isChild nm m r.toNat := ⟨f, l, r, hm, .inr rfl⟩

/-- The node a bit selects is a child. -/
theorem isChild_of_bit {nm : Table Node} {m : Nat} {f l r : Word32} (hm : Table.read nm m = some (.internal f l r))
    (b : Bool) : isChild nm m (if b then r else l).toNat :=
  match b with
  | false => isChild_left hm
  | true => isChild_right hm

/-! The children of a node as a set -/

/-- The children of node `m`, none for a leaf (`mem_childrenOf` ties it to `isChild`). -/
def childrenOf (nm : Table Node) (m : Nat) : Finset Nat :=
  match Table.read nm m with
  | some (.internal _ l r) => {l.toNat, r.toNat}
  | _ => ∅

@[simp] theorem mem_childrenOf {nm : Table Node} {m i : Nat} : i ∈ childrenOf nm m ↔ isChild nm m i := by
  rw [childrenOf, isChild]
  split
  · next f l r hm => simp [hm, @eq_comm Nat i]
  · next hno => exact ⟨nofun, fun ⟨f, l, r, hm, _⟩ => absurd hm (hno f l r)⟩

theorem childrenOf_internal {nm : Table Node} {m : Nat} {f l r : Word32}
    (h : Table.read nm m = some (.internal f l r)) : childrenOf nm m = {l.toNat, r.toNat} := by
  simp [childrenOf, h]

theorem childrenOf_leaf {nm : Table Node} {m : Nat} {f : Word32} {a : Symbol}
    (h : Table.read nm m = some (.leaf f a)) : childrenOf nm m = ∅ := by
  simp [childrenOf, h]

/-- `depth` gives each node the length of its paths from the root. -/
def isDepth (s : State) (depth : Nat → Nat) : Prop :=
  ∀ i p, followPath s.nm s.root.toNat p = some i → p.length = depth i

namespace TreeInv

variable {s : State}

/-! The walk of GENTAB completes -/

/-- A node's subtree is no deeper than its index is large, so the walk of a node with more fuel than its index ends. -/
theorem exists_walk (h : TreeInv s) {fuel n : Nat} (hn : n < s.nn.toNat) (hfuel : n < fuel) (path : List Bool)
    (ct : Table CtEntry) : ∃ ct', walk s.nm fuel n path ct = .ok ct' := by
  induction fuel generalizing n path ct with
  | zero => omega
  | succ fuel ih =>
    rw [walk]
    obtain ⟨node, hread⟩ := Table.exists_of_keys h.keys hn
    cases node with
    | leaf f a => exact ⟨_, by rw [hread]⟩
    | internal f l r =>
      have hl := (h.child_lt (isChild_left hread)).1
      have hr := (h.child_lt (isChild_right hread)).1
      obtain ⟨ct₁, hleft⟩ := ih (hl.trans hn) (by omega) (path ++ [false]) ct
      obtain ⟨ct₂, hright⟩ := ih (hr.trans hn) (by omega) (path ++ [true]) ct₁
      exact ⟨ct₂, by simp [hread, hleft, hright]⟩

/-- The walk from ROOT = NN − 1 has NN nodes of fuel. -/
theorem exists_codeTable (h : TreeInv s) : ∃ ct, codeTable s = .ok ct := by
  have hroot := h.root
  have hsize := h.size
  have hne := h.nonempty
  rw [codeTable]
  split
  · exact ⟨_, rfl⟩
  · exact h.exists_walk (by omega) (by omega) [] s.ct

/-! Lengths and uniqueness of paths -/

/-- Every node of a path but the last is internal, and the nodes of a path get older: from node `n` there are at most
`n + 1 - K` descents. -/
theorem path_length_le (h : TreeInv s) {n i : Nat} {p : List Bool} (hp : followPath s.nm n p = some i) :
    p.length ≤ n + 1 - s.k.toNat := by
  induction p generalizing n with
  | nil => simp
  | cons b p ih =>
    obtain ⟨f, l, r, hn, hc⟩ := followPath_cons_iff.mp hp
    have hge := h.internal_ge hn
    have hlt := (h.child_lt (isChild_of_bit hn b)).1
    have := ih hc
    rw [List.length_cons]
    omega

/-- A path from the root has at most K − 1 bits (R135). -/
theorem root_path_length_le (h : TreeInv s) {i : Nat} {p : List Bool}
    (hp : followPath s.nm s.root.toNat p = some i) : p.length ≤ s.k.toNat - 1 := by
  have := h.path_length_le hp
  have := h.root
  have := h.size
  have := h.nonempty
  omega

/-- A node has one parent at most (R40 (d)). -/
theorem parent_unique (h : TreeInv s) {m m' i : Nat} (hc : isChild s.nm m i) (hc' : isChild s.nm m' i) : m = m' := by
  have hlt := h.child_lt hc
  obtain ⟨_, -, huniq⟩ := h.owned i (hlt.1.trans hlt.2) fun heq => h.rootFree m (heq ▸ hc)
  exact (huniq m hc).trans (huniq m' hc').symm

/-- The two children of a node are different (R40 (b)). -/
theorem children_ne (h : TreeInv s) {m : Nat} {f l r : Word32} (hm : Table.read s.nm m = some (.internal f l r)) :
    l.toNat ≠ r.toNat := by
  have hlt := (h.child_lt (isChild_left hm)).2
  obtain ⟨f', l', r', a, b, hm', -, -, hne, -⟩ := h.internals m (h.internal_ge hm) hlt
  rw [hm] at hm'
  cases hm'
  exact fun heq => hne (BitVec.eq_of_toNat_eq heq)

/-- The child that a bit selects determines the bit. -/
theorem bit_unique (h : TreeInv s) {m : Nat} {f l r : Word32} (hm : Table.read s.nm m = some (.internal f l r))
    {b b' : Bool} (heq : (if b then r else l).toNat = (if b' then r else l).toNat) : b = b' := by
  match b, b' with
  | false, false | true, true => rfl
  | false, true => exact absurd heq (h.children_ne hm)
  | true, false => exact absurd heq.symm (h.children_ne hm)

/-- A path from the root that has a bit does not end at the root. -/
theorem path_concat_ne_root (h : TreeInv s) {b : Bool} {p : List Bool} :
    followPath s.nm s.root.toNat (p ++ [b]) ≠ some s.root.toNat := fun hp => by
  obtain ⟨m, f, l, r, -, hm, hi⟩ := followPath_concat hp
  exact h.rootFree m (hi ▸ isChild_of_bit hm b)

/-- A node has one path from the root: its last descent is the one from the node's parent. -/
theorem path_unique (h : TreeInv s) {i : Nat} {p q : List Bool} (hp : followPath s.nm s.root.toNat p = some i)
    (hq : followPath s.nm s.root.toNat q = some i) : p = q := by
  induction p using List.reverseRecOn generalizing i q with
  | nil =>
    obtain rfl := Option.some_inj.mp hp
    rcases q.eq_nil_or_concat with rfl | ⟨q, b, rfl⟩
    · rfl
    · exact absurd (List.concat_eq_append ▸ hq) h.path_concat_ne_root
  | append_singleton p b ih =>
    rcases q.eq_nil_or_concat with rfl | ⟨q, b', rfl⟩
    · obtain rfl := Option.some_inj.mp hq
      exact absurd hp h.path_concat_ne_root
    · rw [List.concat_eq_append] at hq ⊢
      obtain ⟨m, f, l, r, hpm, hm, hi⟩ := followPath_concat hp
      obtain ⟨m', f', l', r', hqm, hm', hi'⟩ := followPath_concat hq
      obtain rfl := h.parent_unique (hi ▸ isChild_of_bit hm b) (hi' ▸ isChild_of_bit hm' b')
      rw [hm] at hm'
      cases hm'
      rw [ih hpm hqm, h.bit_unique hm (hi.trans hi'.symm)]

/-- Each node has a depth, as it has one path from the root. -/
theorem exists_depth (h : TreeInv s) : ∃ depth, isDepth s depth := by
  suffices hex : ∀ i, ∃ d, ∀ p, followPath s.nm s.root.toNat p = some i → p.length = d from
    Classical.axiomOfChoice hex
  intro i
  by_cases hi : ∃ p, followPath s.nm s.root.toNat p = some i
  · obtain ⟨q, hq⟩ := hi
    exact ⟨q.length, fun p hp => by rw [h.path_unique hp hq]⟩
  · exact ⟨0, fun p hp => absurd ⟨p, hp⟩ hi⟩

/-! Sums over the nodes -/

/-- The children of all nodes are all nodes but the root (R40 (d)). -/
theorem biUnion_childrenOf (h : TreeInv s) :
    (Finset.range s.nn.toNat).biUnion (childrenOf s.nm) = Finset.range s.root.toNat := by
  have hroot := h.root
  ext i
  simp only [Finset.mem_biUnion, Finset.mem_range, mem_childrenOf]
  constructor
  · rintro ⟨m, hm, hc⟩
    have := (h.child_lt hc).1
    omega
  · intro hi
    obtain ⟨m, hc, -⟩ := h.owned i (by omega) (by omega)
    exact ⟨m, (h.child_lt hc).2, hc⟩

/-- A sum over all nodes but the root, taken parent by parent. -/
theorem sum_childrenOf (h : TreeInv s) (g : Nat → Nat) :
    ∑ m ∈ Finset.range s.nn.toNat, ∑ i ∈ childrenOf s.nm m, g i = ∑ i ∈ Finset.range s.root.toNat, g i := by
  rw [← h.biUnion_childrenOf, Finset.sum_biUnion]
  refine fun m _ m' _ hne => Finset.disjoint_left.mpr fun i hi hi' => hne ?_
  exact h.parent_unique (mem_childrenOf.mp hi) (mem_childrenOf.mp hi')

/-- A weight that every internal node divides between its children: the leaves share the weight of the root. -/
theorem sum_leaves_eq_root (h : TreeInv s) {g : Nat → Nat}
    (hg : ∀ m f l r, Table.read s.nm m = some (.internal f l r) → g l.toNat + g r.toNat = g m) :
    ∑ i ∈ Finset.range s.k.toNat, g i = g s.root.toNat := by
  have hne := h.nonempty
  have hsize := h.size
  have hroot := h.root
  have hleaf : ∀ m ∈ Finset.range s.k.toNat, ∑ i ∈ childrenOf s.nm m, g i = 0 := fun m hm => by
    obtain ⟨e, -, hread⟩ := h.leaves m (Finset.mem_range.mp hm)
    rw [childrenOf_leaf hread, Finset.sum_empty]
  have hinternal : ∀ m ∈ Finset.Ico s.k.toNat s.nn.toNat, ∑ i ∈ childrenOf s.nm m, g i = g m := fun m hm => by
    obtain ⟨hk, hn⟩ := Finset.mem_Ico.mp hm
    obtain ⟨f, l, r, a, b, hread, -⟩ := h.internals m hk hn
    rw [childrenOf_internal hread, Finset.sum_pair (h.children_ne hread), hg m f l r hread]
  have hkn : s.k.toNat ≤ s.nn.toNat := by omega
  have hnodes : ∑ m ∈ Finset.Ico s.k.toNat s.nn.toNat, g m = ∑ i ∈ Finset.range s.root.toNat, g i := by
    rw [← h.sum_childrenOf g, ← Finset.sum_range_add_sum_Ico _ hkn, Finset.sum_eq_zero hleaf,
      Finset.sum_congr rfl hinternal, Nat.zero_add]
  have hall : ∑ i ∈ Finset.range s.nn.toNat, g i = ∑ i ∈ Finset.range s.root.toNat, g i + g s.root.toNat := by
    rw [← Finset.sum_range_succ, show s.root.toNat + 1 = s.nn.toNat by omega]
  rw [← Finset.sum_range_add_sum_Ico _ hkn] at hall
  omega

/-- A child is one deeper than its parent, and no deeper than K − 1. -/
theorem depth_child (h : TreeInv s) {depth : Nat → Nat} (hd : isDepth s depth) {m i : Nat} (hc : isChild s.nm m i) :
    depth i = depth m + 1 ∧ depth i ≤ s.k.toNat - 1 := by
  obtain ⟨p, hp⟩ := h.exists_path (h.child_lt hc).2
  obtain ⟨b, hb⟩ : ∃ b, followPath s.nm s.root.toNat (p ++ [b]) = some i := by
    obtain ⟨f, l, r, hm, rfl | rfl⟩ := hc
    · exact ⟨false, by simp [followPath_append hp, followPath, hm]⟩
    · exact ⟨true, by simp [followPath_append hp, followPath, hm]⟩
  rw [← hd i _ hb, ← hd m p hp]
  exact ⟨List.length_append, h.root_path_length_le hb⟩

/-- The leaves' shares 2^(−depth) of the tree are all of it (R136). -/
theorem kraft (h : TreeInv s) {depth : Nat → Nat} (hd : isDepth s depth) :
    ∑ i ∈ Finset.range s.k.toNat, 2 ^ (s.k.toNat - depth i) = 2 ^ s.k.toNat := by
  have hroot : depth s.root.toNat = 0 := (hd _ [] rfl).symm
  rw [h.sum_leaves_eq_root (g := fun i => 2 ^ (s.k.toNat - depth i)), hroot, Nat.sub_zero]
  intro m f l r hm
  obtain ⟨hl, hle⟩ := h.depth_child hd (isChild_left hm)
  obtain ⟨hr, -⟩ := h.depth_child hd (isChild_right hm)
  have hhalf : s.k.toNat - depth m = s.k.toNat - (depth m + 1) + 1 := by omega
  rw [hl, hr, hhalf, pow_succ, Nat.mul_two]

end TreeInv

/-! GENTAB -/

/-- GENTAB in BUILT, its code table given (R130). -/
theorem execGentab_codeTable {s : State} (hp : s.phase = .built) {ct : Table CtEntry} (hc : codeTable s = .ok ct) :
    execGentab s = .next (respondOk 0 { s with ct := ct, phase := .ready }) := by
  rw [execGentab, checked_accepted ((accepts_iff_phaseCondition .gentab s).mpr hp), hc]

/-- An entry of the code table has the symbol of the leaf at its own index (R132). -/
theorem CodeInv.leaf_of_read {s : State} (h : CodeInv s) (ht : TreeInv s) {i : Nat} {c : CtEntry}
    (hc : Table.read s.ct i = some c) : ∃ f, Table.read s.nm i = some (.leaf f c.sym) := by
  obtain ⟨hi, -⟩ := h.read_code hc
  obtain ⟨e, c', he, hc', hsym, -⟩ := h.codes i hi
  obtain ⟨e', he', hleaf⟩ := ht.leaves i hi
  obtain rfl := Option.some_inj.mp (hc.symm.trans hc')
  obtain rfl := Option.some_inj.mp (he.symm.trans he')
  exact ⟨e.cnt, hsym ▸ hleaf⟩

/-- Settles O24: the walk of a tree ends (`exists_codeTable`), and what it writes is the table of R41
(`codeInv_gentab`). -/
theorem gentabWritesThePaths : Obligations.GentabWritesThePaths := by
  intro s h hp
  have ht := h.phase.tree (by simp [hp])
  obtain ⟨ct, hct⟩ := ht.exists_codeTable
  have hcode : CodeInv (respondOk 0 { s with ct := ct, phase := .ready }) :=
    (codeInv_gentab ht (h.phase.noTable (by simp [hp])) hct).congr rfl
  exact ⟨_, execGentab_codeTable hp hct, hcode, fun i c => hcode.leaf_of_read (ht.congr rfl), rfl⟩

/-! The codes of a state in READY -/

/-- Settles O26: a code is the one bit of a single-symbol tree or a path, whose nodes are internal but the last. -/
theorem codeLengthsAreBounded : Obligations.CodeLengthsAreBounded := by
  intro s h hp i c hc
  have ht := h.phase.tree (by simp [hp])
  have htab := h.phase.table hp
  have hpos : 1 ≤ c.bits.length := List.length_pos_iff.mpr (code_ne_nil ht htab hc)
  have hle : c.bits.length ≤ max 1 (s.k.toNat - 1) := by
    obtain ⟨-, hcode⟩ := htab.read_code hc
    rw [isCodeOf] at hcode
    split at hcode
    · simp [hcode]
    · exact (ht.root_path_length_le hcode).trans (le_max_right _ _)
  have hroom := h.map.room
  exact ⟨hpos, hle, hle.trans (max_le_max_left 1 (by omega))⟩

/-- Where the root is no leaf, the length of a slot's code is the depth of its leaf (R131). -/
theorem CodeInv.slotLen_eq_depth {s : State} (h : CodeInv s) (hk : s.k.toNat ≠ 1) {depth : Nat → Nat}
    (hd : isDepth s depth) {i : Nat} (hi : i < s.k.toNat) : slotLen s i = depth i := by
  obtain ⟨e, c, -, hc, -, hcode⟩ := h.codes i hi
  rw [isCodeOf, if_neg hk] at hcode
  simp [slotLen, hc, hd i c.bits hcode]

/-- Settles O27: the code lengths are the depths of the leaves, whose shares make up the tree (`TreeInv.kraft`). -/
theorem codeIsComplete : Obligations.CodeIsComplete := by
  intro s h hp hk
  have ht := h.phase.tree (by simp [hp])
  obtain ⟨depth, hd⟩ := ht.exists_depth
  have hlen : ∀ i ∈ Finset.range s.k.toNat, 2 ^ (s.k.toNat - slotLen s i) = 2 ^ (s.k.toNat - depth i) :=
    fun i hi => by rw [(h.phase.table hp).slotLen_eq_depth (by omega) hd (Finset.mem_range.mp hi)]
  calc ((List.range s.k.toNat).map (fun i => 2 ^ (s.k.toNat - slotLen s i))).sum
    _ = ∑ i ∈ Finset.range s.k.toNat, 2 ^ (s.k.toNat - slotLen s i) := rfl
    _ = ∑ i ∈ Finset.range s.k.toNat, 2 ^ (s.k.toNat - depth i) := Finset.sum_congr rfl hlen
    _ = 2 ^ s.k.toNat := ht.kraft hd

end Sys2Proof.Machine
end

