-- ==== Sys2Proof/Proofs/EncoderClaims.lean ====
section
/-! The claims of 43_encoder.md: EBEG, ESYM and EEND case by case (R140 to R144), and the frame that a text gives
(R145). -/

namespace Sys2Proof.Machine

/-- A command whose row of R88 does not hold is refused, whichever it is. -/
theorem exec_refused_of_not_phaseCondition {i : Instr} {s : State} (h : ¬phaseCondition i s) :
    exec i s = .next (raiseFault .badSequence (upperHalf (encode i)) s) :=
  exec_refused (Bool.eq_false_iff.mpr (mt (accepts_iff_phaseCondition i s).mp h))

/-! One command -/

/-- The state after EBEG where a frame can be opened (R140). -/
def openEncode (s : State) : State := respondOk 0 { s with encAct := true, encLen := 0, encCnt := 0 }

/-- The state after EEND in an open frame (R142). -/
def closeEncode (s : State) : State := respondOk 0 (emit [.bo .endFrame] { s with encAct := false })

@[simp] theorem openEncode_bo (s : State) : (openEncode s).bo = s.bo := respondOk_bo 0 _
@[simp] theorem openEncode_so (s : State) : (openEncode s).so = s.so := respondOk_so 0 _
@[simp] theorem closeEncode_bo (s : State) : (closeEncode s).bo = s.bo ++ [.endFrame] := by simp [closeEncode, State.bo]
@[simp] theorem closeEncode_so (s : State) : (closeEncode s).so = s.so := by simp [closeEncode, State.so]

section Command

variable {s : State} {sym : Symbol}

/-- EBEG where a frame can be opened (R140). -/
theorem exec_ebeg_opens (hp : s.phase = .ready) (ha : s.encAct = false) :
    exec .ebeg s = .next (openEncode s) :=
  checked_accepted ((accepts_iff_phaseCondition .ebeg s).mpr ⟨hp, ha⟩) _

/-- ESYM in an open frame, a symbol without a code (R143). -/
theorem exec_esym_unknown (ha : s.encAct = true) (hl : Table.lookup CtEntry.sym s.ct sym = none) :
    exec (.esym sym) s = .next (raiseFault .unknownSymbol (sym.setWidth 32) (abortEncode s)) := by
  rw [exec, execEsym, checked_accepted (i := .esym sym) ha, hl]

/-- ESYM in an open frame, a code for which ENC_LEN has no room (R144). -/
theorem exec_esym_full (ha : s.encAct = true) {i : Nat} {e : CtEntry}
    (hl : Table.lookup CtEntry.sym s.ct sym = some (i, e)) (hfull : maxWord32 < s.encLen.toNat + e.bits.length) :
    exec (.esym sym) s = .next (raiseFault .capacityExceeded (upperHalf (encode (.esym sym))) s) := by
  rw [exec, execEsym, checked_accepted (i := .esym sym) ha, hl]
  exact if_pos (mt fitsCounter_iff_le.mp (Nat.not_le.mpr hfull))

/-- ESYM in an open frame, a code for which ENC_LEN has room (R141). -/
theorem exec_esym_appends (ha : s.encAct = true) {i : Nat} {e : CtEntry}
    (hl : Table.lookup CtEntry.sym s.ct sym = some (i, e)) (hroom : s.encLen.toNat + e.bits.length ≤ maxWord32) :
    exec (.esym sym) s = .next (respondOk 0 (appendCode e.bits s)) := by
  rw [exec, execEsym, checked_accepted (i := .esym sym) ha, hl]
  exact if_neg (not_not.mpr (fitsCounter_iff_le.mpr hroom))

/-- EEND in an open frame (R142). -/
theorem exec_eend_closes (ha : s.encAct = true) : exec .eend s = .next (closeEncode s) :=
  checked_accepted (i := .eend) ha _

end Command

/-- Settles O28: the phase check of EBEG decides between the two cases. -/
theorem ebegOpensAFrame : Obligations.EbegOpensAFrame :=
  fun _ => ⟨exec_ebeg_opens, exec_refused_of_not_phaseCondition (i := .ebeg)⟩

/-- Settles O29: the phase check, then the lookup, then the room in ENC_LEN decide between the cases. -/
theorem esymEncodesASymbol : Obligations.EsymEncodesASymbol :=
  fun _ _ => ⟨exec_refused (i := .esym _), exec_esym_unknown,
    fun ha _ _ hl => ⟨exec_esym_full ha hl, exec_esym_appends ha hl⟩⟩

/-- Settles O30: END and the response come one after the other. -/
theorem eendClosesTheFrame : Obligations.EendClosesTheFrame := by
  refine fun s => ⟨fun ha => ?_, exec_refused (i := .eend)⟩
  rw [exec_eend_closes ha, closeEncode, respondOk, emit, emit, List.append_assoc]
  rfl

/-! The codes of symbols and texts -/

theorem codeOf_of_lookup {s : State} {sym : Symbol} {i : Nat} {e : CtEntry}
    (h : Table.lookup CtEntry.sym s.ct sym = some (i, e)) : codeOf s sym = e.bits := by
  rw [codeOf, h]
  rfl

theorem codeOfText_cons (s : State) (a : Symbol) (text : List Symbol) :
    codeOfText s (a :: text) = codeOf s a ++ codeOfText s text := List.flatMap_cons

/-- Every code of a state in READY has a bit (R135). -/
theorem codeOf_length_pos {s : State} (h : Inv s) (hp : s.phase = .ready) {a : Symbol} (ha : hasCode s a) :
    0 < (codeOf s a).length := by
  obtain ⟨⟨i, e⟩, hl⟩ := Option.isSome_iff_exists.mp ha
  have htab := h.phase.table hp
  obtain ⟨hr, -⟩ := Table.lookup_some (Table.wf_of_keys htab.keys) hl
  rw [codeOf_of_lookup hl]
  exact List.length_pos_iff.mpr (code_ne_nil (h.phase.tree (by simp [hp])) htab hr)

/-- A text with codes is at most as long as its code. -/
theorem length_le_codeOfText {s : State} (h : Inv s) (hp : s.phase = .ready) {text : List Symbol}
    (hcodes : ∀ a ∈ text, hasCode s a) : text.length ≤ (codeOfText s text).length := by
  induction text with
  | nil => exact Nat.zero_le _
  | cons a text ih =>
    have ha := codeOf_length_pos h hp (hcodes a List.mem_cons_self)
    have htext := ih fun b hb => hcodes b (List.mem_cons_of_mem a hb)
    rw [codeOfText_cons, List.length_append, List.length_cons]
    omega

/-! A text in an open frame (R145) -/

/-- What the ESYMs of a text with codes put out: for each symbol the bits of its code, then OK. -/
def encodeOutput (s : State) (text : List Symbol) : List OutItem :=
  text.flatMap (fun a => bitItems (codeOf s a) ++ [.rsp 0])

theorem encodeOutput_toBo (s : State) (text : List Symbol) :
    (encodeOutput s text).filterMap OutItem.toBo = (codeOfText s text).map BoItem.bit := by
  simp [encodeOutput, codeOfText, List.filterMap_flatMap, List.map_flatMap, List.filterMap_cons]

theorem encodeOutput_toSo (s : State) (text : List Symbol) : (encodeOutput s text).filterMap OutItem.toSo = [] := by
  simp [encodeOutput, List.filterMap_flatMap]

/-- The state after the ESYMs of a text with codes, from a state with a frame open. -/
def encodeText (text : List Symbol) (s : State) : State :=
  { s with
    encLen := s.encLen + BitVec.ofNat 32 (codeOfText s text).length
    encCnt := s.encCnt + BitVec.ofNat 32 text.length
    out := s.out ++ encodeOutput s text }

@[simp] theorem encodeText_bo (text : List Symbol) (s : State) :
    (encodeText text s).bo = s.bo ++ (codeOfText s text).map BoItem.bit := by
  rw [← encodeOutput_toBo]
  exact bo_of_out rfl

@[simp] theorem encodeText_so (text : List Symbol) (s : State) : (encodeText text s).so = s.so := by
  rw [so_of_out (s := s) (items := encodeOutput s text) rfl, encodeOutput_toSo, List.append_nil]

theorem encodeText_nil (s : State) : encodeText [] s = s := by
  simp [encodeText, codeOfText, encodeOutput]

theorem encodeText_cons (a : Symbol) (text : List Symbol) (s : State) :
    encodeText (a :: text) s = encodeText text (respondOk 0 (appendCode (codeOf s a) s)) := by
  have hlen : s.encLen + BitVec.ofNat 32 (codeOfText s (a :: text)).length =
      s.encLen + BitVec.ofNat 32 (codeOf s a).length + BitVec.ofNat 32 (codeOfText s text).length := by
    rw [codeOfText_cons, List.length_append, BitVec.ofNat_add, BitVec.add_assoc]
  have hcnt : s.encCnt + BitVec.ofNat 32 (a :: text).length = s.encCnt + 1 + BitVec.ofNat 32 text.length := by
    rw [List.length_cons, Nat.add_comm, BitVec.ofNat_add, BitVec.add_assoc]
    rfl
  have hout : s.out ++ encodeOutput s (a :: text) =
      s.out ++ bitItems (codeOf s a) ++ [.rsp 0] ++ encodeOutput s text := by
    simp [encodeOutput]
  rw [encodeText, hlen, hcnt, hout]
  rfl

/-- A counter with room for a number takes it without wrap-around. -/
theorem toNat_add_ofNat_of_le {c : Word32} {n : Nat} (h : c.toNat + n ≤ maxWord32) :
    (c + BitVec.ofNat 32 n).toNat = c.toNat + n := by
  have hlt := (fitsCounter_iff c n).mp (fitsCounter_iff_le.mpr h)
  rw [BitVec.toNat_add, BitVec.toNat_ofNat, Nat.add_mod_mod, Nat.mod_eq_of_lt hlt]

/-- The ESYMs of a text with codes, in an open frame with room for them (R145). -/
theorem execAll_etext {s : State} {text : List Symbol} (ha : s.encAct = true) (hcodes : ∀ a ∈ text, hasCode s a)
    (hroom : s.encLen.toNat + (codeOfText s text).length ≤ maxWord32) :
    execAll (Instr.etext text) s = .next (encodeText text s) := by
  induction text generalizing s with
  | nil => exact congrArg _ (encodeText_nil s).symm
  | cons a text ih =>
    obtain ⟨⟨i, e⟩, hl⟩ := Option.isSome_iff_exists.mp (hcodes a List.mem_cons_self)
    have hcode := codeOf_of_lookup hl
    rw [codeOfText_cons, List.length_append, ← Nat.add_assoc] at hroom
    have hfits : s.encLen.toNat + (codeOf s a).length ≤ maxWord32 := (Nat.le_add_right ..).trans hroom
    have hlen : (s.encLen + BitVec.ofNat 32 (codeOf s a).length).toNat = s.encLen.toNat + (codeOf s a).length :=
      toNat_add_ofNat_of_le hfits
    rw [encodeText_cons]
    refine (execAll_cons_next (exec_esym_appends ha hl (hcode ▸ hfits))).trans ?_
    rw [← hcode]
    exact ih ha (fun b hb => hcodes b (List.mem_cons_of_mem a hb)) (hlen ▸ hroom)

/-- A whole encode frame: EBEG, the ESYMs of a text with codes, EEND (R145). -/
theorem execAll_encodeFrame {s : State} {text : List Symbol} (hp : s.phase = .ready) (ha : s.encAct = false)
    (hcodes : ∀ a ∈ text, hasCode s a) (hroom : (codeOfText s text).length ≤ maxWord32) :
    execAll ([.ebeg] ++ Instr.etext text ++ [.eend]) s = .next (closeEncode (encodeText text (openEncode s))) := by
  have htext : execAll (Instr.etext text) (openEncode s) = .next (encodeText text (openEncode s)) :=
    execAll_etext rfl hcodes ((Nat.zero_add _).trans_le hroom)
  calc execAll ([.ebeg] ++ Instr.etext text ++ [.eend]) s
    _ = execAll (Instr.etext text ++ [.eend]) (openEncode s) := execAll_cons_next (exec_ebeg_opens hp ha)
    _ = execAll [.eend] (encodeText text (openEncode s)) := execAll_append_next htext
    _ = .next (closeEncode (encodeText text (openEncode s))) := execAll_cons_next (exec_eend_closes rfl)

/-- Settles O31: the commands of the frame leave `closeEncode (encodeText text (openEncode s))`; a text is no longer
than its code, so ENC_CNT has room for its symbols too. -/
theorem encodeFrameHoldsTheCodes : Obligations.EncodeFrameHoldsTheCodes := by
  intro s text h hp ha hcodes hroom
  have hcount : text.length ≤ maxWord32 := (length_le_codeOfText h hp hcodes).trans hroom
  refine ⟨_, execAll_encodeFrame hp ha hcodes hroom, ?_, ?_, ?_, ?_, rfl, rfl⟩
  · rw [closeEncode_bo, encodeText_bo, openEncode_bo]
    rfl
  · rw [closeEncode_so, encodeText_so, openEncode_so]
  · exact (toNat_add_ofNat_of_le (c := 0) ((Nat.zero_add _).trans_le hroom)).trans (Nat.zero_add _)
  · exact (toNat_add_ofNat_of_le (c := 0) ((Nat.zero_add _).trans_le hcount)).trans (Nat.zero_add _)

end Sys2Proof.Machine
end

