-- ==== Sys2Proof/Proofs/DecoderClaims.lean ====
section
/-! The claims of 44_decoder.md: DBEG, DBIT and DEND case by case (R155 to R157), the frame of a single-symbol tree
(R163), and the frame that ends in END exactly on whole codes (R160 to R162). -/

namespace Sys2Proof.Machine

/-! One command -/

/-- The state after DBEG where a frame can be opened (R155). -/
def openDecode (s : State) : State := respondOk 0 { s with decAct := true, cur := s.root, decBits := 0, decCnt := 0 }

/-- The state after DEND where the frame ends in END (R157): `endDecode` answers it. -/
def closeDecode (s : State) : State := respondOk 0 (emit [.so .endFrame] { s with decAct := false })

@[simp] theorem openDecode_so (s : State) : (openDecode s).so = s.so := respondOk_so 0 _
@[simp] theorem closeDecode_so (s : State) : (closeDecode s).so = s.so ++ [.endFrame] := by simp [closeDecode, State.so]

/-- A tree exists exactly in BUILT and READY (R26). -/
theorem phase_ne_collect_iff {p : Phase} : p ≠ .collect ↔ p = .built ∨ p = .ready := by
  cases p <;> decide

/-- The upper half of a DBIT word does not depend on the bit (R83). -/
theorem upperHalf_encode_dbit (bit : Bool) : upperHalf (encode (.dbit bit)) = 0x41000000 := by
  cases bit <;> rfl

section Command

variable {s : State} {bit : Bool} {f l r g l' r' : Word32} {sym : Symbol}

/-- DBEG where a frame can be opened (R155). -/
theorem exec_dbeg_opens (hp : s.phase ≠ .collect) (ha : s.decAct = false) : exec .dbeg s = .next (openDecode s) :=
  checked_accepted ((accepts_iff_phaseCondition .dbeg s).mpr ⟨phase_ne_collect_iff.mp hp, ha⟩) _

/-- DBIT in an open frame, DEC_BITS full (R156). -/
theorem exec_dbit_full (ha : s.decAct = true) (hfull : s.decBits.toNat = maxWord32) :
    exec (.dbit bit) s = .next (raiseFault .capacityExceeded 0x41000000 s) := by
  rw [exec, execDbit, checked_accepted (i := .dbit bit) ha, ← upperHalf_encode_dbit bit]
  exact if_pos (mt fitsCounter_iff_le.mp (by omega))

/-- DBIT on a single-symbol tree: the bit is ignored (R163). -/
theorem exec_dbit_single (ha : s.decAct = true) (hroom : s.decBits.toNat < maxWord32)
    (hr : Table.read s.nm s.root.toNat = some (.leaf f sym)) :
    exec (.dbit bit) s = consumeBit (emitSymbol sym s) := by
  rw [exec, execDbit, checked_accepted (i := .dbit bit) ha, if_neg (not_not.mpr (fitsCounter_iff_le.mpr hroom)), hr]

/-- DBIT on a tree with an internal root (R160). -/
theorem exec_dbit_walks (ha : s.decAct = true) (hroom : s.decBits.toNat < maxWord32)
    (hr : Table.read s.nm s.root.toNat = some (.internal f l r)) :
    exec (.dbit bit) s = walkBit bit l r s := by
  rw [exec, execDbit, checked_accepted (i := .dbit bit) ha, if_neg (not_not.mpr (fitsCounter_iff_le.mpr hroom)), hr]

/-- The walk at a leaf emits its symbol and starts again at the root (R160). -/
theorem walkBit_leaf (hc : Table.read s.nm s.cur.toNat = some (.leaf g sym)) :
    walkBit bit l r s = consumeBit (descend bit l r (emitSymbol sym s)) := by
  rw [walkBit, hc]

/-- The walk at an internal node descends (R160). -/
theorem walkBit_internal (hc : Table.read s.nm s.cur.toNat = some (.internal g l' r')) :
    walkBit bit l r s = consumeBit (descend bit l' r' s) := by
  rw [walkBit, hc]

/-- DEND on a single-symbol tree (R163). -/
theorem exec_dend_single (ha : s.decAct = true) (hr : Table.read s.nm s.root.toNat = some (.leaf f sym)) :
    exec .dend s = .next (closeDecode s) := by
  rw [exec, execDend, checked_accepted (i := .dend) ha, hr]
  rfl

/-- DEND at a leaf (R161). -/
theorem exec_dend_leaf (ha : s.decAct = true) (hr : Table.read s.nm s.root.toNat = some (.internal f l r))
    (hc : Table.read s.nm s.cur.toNat = some (.leaf g sym)) :
    exec .dend s = .next (closeDecode (emitSymbol sym s)) := by
  rw [exec, execDend, checked_accepted (i := .dend) ha, hr, hc]
  rfl

/-- DEND at an internal node (R162). -/
theorem exec_dend_truncated (ha : s.decAct = true) (hr : Table.read s.nm s.root.toNat = some (.internal f l r))
    (hc : Table.read s.nm s.cur.toNat = some (.internal g l' r')) :
    exec .dend s = .next (raiseFault .truncatedInput s.cur (abortDecode s)) := by
  rw [exec, execDend, checked_accepted (i := .dend) ha, hr, hc]

end Command

/-- Outputs that come one after the other are one list of outputs. -/
theorem emit_emit (xs ys : List OutItem) (s : State) : emit ys (emit xs s) = emit (xs ++ ys) s := by
  rw [emit, emit, emit, List.append_assoc]

/-- Settles O32: the phase check of DBEG decides between the two cases. -/
theorem dbegOpensAFrame : Obligations.DbegOpensAFrame := by
  refine fun s => ⟨exec_dbeg_opens, fun hn => exec_refused_of_not_phaseCondition (i := .dbeg) ?_⟩
  rwa [phase_ne_collect_iff] at hn

/-- Settles O33: the phase check, the room in DEC_BITS, the root and the current node decide between the cases, in this
order. -/
theorem dbitWalksTheTree : Obligations.DbitWalksTheTree := by
  refine fun bit s => ⟨fun ha => ?_, exec_dbit_full, fun ha hroom => ⟨fun f sym hr => ?_, fun f l r hr =>
    ⟨fun g sym hc => ?_, fun g l' r' hc => ?_⟩⟩⟩
  · rw [← upperHalf_encode_dbit bit]
    exact exec_refused ha
  · rw [exec_dbit_single ha hroom hr]
    exact congrArg Host.Outcome.next (emit_emit [.so (.sym sym)] [.rsp 0]
      { s with decCnt := s.decCnt + 1, decBits := s.decBits + 1 })
  · rw [exec_dbit_walks ha hroom hr, walkBit_leaf hc]
    exact congrArg Host.Outcome.next (emit_emit [.so (.sym sym)] [.rsp 0]
      { s with cur := if bit then r else l, decCnt := s.decCnt + 1, decBits := s.decBits + 1 })
  · rw [exec_dbit_walks ha hroom hr, walkBit_internal hc]
    rfl

/-- Settles O34: the phase check, the root and the current node decide between the cases, in this order. -/
theorem dendEndsTheFrame : Obligations.DendEndsTheFrame := by
  refine fun s => ⟨exec_refused (i := .dend), fun ha => ⟨fun f sym hr => ?_, fun f l r hr =>
    ⟨fun g sym hc => ?_, fun g l' r' => exec_dend_truncated ha hr⟩⟩⟩
  · rw [exec_dend_single ha hr]
    exact congrArg Host.Outcome.next (emit_emit [.so .endFrame] [.rsp 0] { s with decAct := false })
  · rw [exec_dend_leaf ha hr hc]
    refine congrArg Host.Outcome.next ((emit_emit [.so .endFrame] [.rsp 0]
      { emitSymbol sym s with decAct := false }).trans ?_)
    exact emit_emit [.so (.sym sym)] [.so .endFrame, .rsp 0] { s with decAct := false, decCnt := s.decCnt + 1 }

/-! A frame -/

theorem execAll_singleton (i : Instr) (s : State) : execAll [i] s = exec i s := by
  rw [execAll]
  cases exec i s <;> rfl

/-- A decode frame whose DBITs complete ends as its DEND does. -/
theorem execAll_decodeFrame {s t : State} {bits : List Bool} (hp : s.phase ≠ .collect) (ha : s.decAct = false)
    (hbits : execAll (Instr.dbits bits) (openDecode s) = .next t) :
    execAll ([Instr.dbeg] ++ Instr.dbits bits ++ [Instr.dend]) s = exec .dend t :=
  calc execAll ([Instr.dbeg] ++ Instr.dbits bits ++ [Instr.dend]) s
    _ = execAll (Instr.dbits bits ++ [Instr.dend]) (openDecode s) := execAll_cons_next (exec_dbeg_opens hp ha)
    _ = execAll [.dend] t := execAll_append_next hbits
    _ = exec .dend t := execAll_singleton .dend t

/-! The frame of a single-symbol tree (R163) -/

/-- What `n` DBITs on a single-symbol tree put out: each the symbol, then OK. -/
def copiesOutput (sym : Symbol) (n : Nat) : List OutItem := (List.replicate n [OutItem.so (.sym sym), .rsp 0]).flatten

theorem append_copiesOutput_succ (out : List OutItem) (sym : Symbol) (n : Nat) :
    out ++ copiesOutput sym (n + 1) = out ++ [OutItem.so (.sym sym)] ++ [OutItem.rsp 0] ++ copiesOutput sym n := by
  simp [copiesOutput, List.replicate_succ]

theorem copiesOutput_toSo (sym : Symbol) (n : Nat) :
    (copiesOutput sym n).filterMap OutItem.toSo = List.replicate n (.sym sym) := by
  rw [copiesOutput, List.filterMap_flatten, List.map_replicate]
  exact List.flatten_replicate_singleton

/-- The state after `n` DBITs on a single-symbol tree with the symbol `sym`, from a state in an open frame. -/
def decodeCopies (sym : Symbol) (n : Nat) (s : State) : State :=
  { s with
    decBits := s.decBits + BitVec.ofNat 32 n
    decCnt := s.decCnt + BitVec.ofNat 32 n
    out := s.out ++ copiesOutput sym n }

@[simp] theorem decodeCopies_so (sym : Symbol) (n : Nat) (s : State) :
    (decodeCopies sym n s).so = s.so ++ List.replicate n (.sym sym) := by
  rw [← copiesOutput_toSo]
  exact so_of_out rfl

theorem decodeCopies_zero (sym : Symbol) (s : State) : decodeCopies sym 0 s = s := by
  simp [decodeCopies, copiesOutput]

/-- A counter that goes up by one, then by `n`. -/
theorem add_one_add_ofNat (c : Word32) (n : Nat) : c + 1 + BitVec.ofNat 32 n = c + BitVec.ofNat 32 (n + 1) := by
  rw [Nat.add_comm, BitVec.ofNat_add, BitVec.add_assoc]
  rfl

/-- One DBIT of a single-symbol tree, then `n` more. -/
theorem decodeCopies_succ (sym : Symbol) (n : Nat) (s : State) :
    decodeCopies sym (n + 1) s =
      decodeCopies sym n (respondOk 0 { emitSymbol sym s with decBits := s.decBits + 1 }) := by
  rw [decodeCopies, append_copiesOutput_succ, ← add_one_add_ofNat, ← add_one_add_ofNat]
  rfl

/-- The DBITs of a frame on a single-symbol tree, in an open frame with room for them (R163). -/
theorem execAll_dbits_single {s : State} {bits : List Bool} {f : Word32} {sym : Symbol} (ha : s.decAct = true)
    (hr : Table.read s.nm s.root.toNat = some (.leaf f sym)) (hroom : s.decBits.toNat + bits.length ≤ maxWord32) :
    execAll (Instr.dbits bits) s = .next (decodeCopies sym bits.length s) := by
  induction bits generalizing s with
  | nil => exact congrArg _ (decodeCopies_zero sym s).symm
  | cons b bits ih =>
    rw [List.length_cons] at hroom
    have hbits : (s.decBits + 1).toNat = s.decBits.toNat + 1 := toNat_add_ofNat_of_le (n := 1) (by omega)
    rw [List.length_cons, decodeCopies_succ]
    refine (execAll_cons_next (exec_dbit_single ha (by omega) hr)).trans (ih ha hr ?_)
    show (s.decBits + 1).toNat + bits.length ≤ maxWord32
    omega

/-- Settles O36: from the frame's opening each DBIT puts out the root's symbol and counts, and DEND ends the frame. -/
theorem singleSymbolFrameDecodes : Obligations.SingleSymbolFrameDecodes := by
  intro s bits h hp ha hk hroom
  obtain ⟨f, sym, hr⟩ := (h.phase.tree hp).root_leaf (by rw [hk]; rfl)
  let t := decodeCopies sym bits.length (openDecode s)
  have hbits : execAll (Instr.dbits bits) (openDecode s) = .next t :=
    execAll_dbits_single rfl hr ((Nat.zero_add _).trans_le hroom)
  have hend : exec .dend t = .next (closeDecode t) := exec_dend_single rfl hr
  have hcount : ((0 : Word32) + BitVec.ofNat 32 bits.length).toNat = bits.length :=
    (toNat_add_ofNat_of_le (c := 0) ((Nat.zero_add _).trans_le hroom)).trans (Nat.zero_add _)
  refine ⟨_, f, sym, hr, (execAll_decodeFrame hp ha hbits).trans hend, ?_, hcount, hcount, rfl, rfl⟩
  rw [closeDecode_so, decodeCopies_so, openDecode_so]

/-! The codes as paths of the tree (R131) -/

/-- A symbol with a code has an entry of the code table, which gives the code. -/
theorem exists_entry_of_hasCode {s : State} (h : CodeInv s) {a : Symbol} (ha : hasCode s a) :
    ∃ i c, Table.read s.ct i = some c ∧ c.sym = a ∧ codeOf s a = c.bits := by
  obtain ⟨⟨i, c⟩, hl⟩ := Option.isSome_iff_exists.mp ha
  obtain ⟨hr, hsym⟩ := Table.lookup_some (Table.wf_of_keys h.keys) hl
  exact ⟨i, c, hr, hsym, codeOf_of_lookup hl⟩

/-- No code begins the code of another symbol (R42). -/
theorem eq_of_codeOf_prefix {s : State} (h : Inv s) (hp : s.phase = .ready) {a b : Symbol} (ha : hasCode s a)
    (hb : hasCode s b) (hpre : codeOf s a <+: codeOf s b) : a = b := by
  obtain ⟨i, c, hc, rfl, hcode⟩ := exists_entry_of_hasCode (h.phase.table hp) ha
  obtain ⟨j, d, hd, rfl, hcode'⟩ := exists_entry_of_hasCode (h.phase.table hp) hb
  rw [hcode, hcode'] at hpre
  obtain rfl : i = j := by_contra fun hij => codesArePrefixFree s h hp i j c d hij hc hd hpre
  rw [Option.some_inj.mp (hc.symm.trans hd)]

/-- Bits that start with the codes of two symbols: the symbols are the same. -/
theorem eq_of_codeOf_append_eq {s : State} (h : Inv s) (hp : s.phase = .ready) {a b : Symbol} (ha : hasCode s a)
    (hb : hasCode s b) {p q : List Bool} (heq : codeOf s a ++ p = codeOf s b ++ q) : a = b ∧ p = q := by
  obtain rfl : a = b := by
    rcases List.prefix_or_prefix_of_prefix (List.prefix_append _ p) (heq ▸ List.prefix_append _ q) with hpre | hpre
    · exact eq_of_codeOf_prefix h hp ha hb hpre
    · exact (eq_of_codeOf_prefix h hp hb ha hpre).symm
  exact ⟨rfl, List.append_cancel_left heq⟩

/-- Only the empty text has an empty code. -/
theorem eq_nil_of_codeOfText_eq_nil {s : State} (h : Inv s) (hp : s.phase = .ready) {text : List Symbol}
    (hcodes : ∀ a ∈ text, hasCode s a) (hnil : codeOfText s text = []) : text = [] := by
  have hle := length_le_codeOfText h hp hcodes
  rw [hnil] at hle
  exact List.length_eq_zero_iff.mp (Nat.le_zero.mp hle)

/-- The code of a text can be read in one way: a text whose code starts with the code of another starts with that
text. -/
theorem exists_rest_of_codeOfText_append {s : State} (h : Inv s) (hp : s.phase = .ready) {syms text : List Symbol}
    {p : List Bool} (hsyms : ∀ a ∈ syms, hasCode s a) (htext : ∀ a ∈ text, hasCode s a)
    (heq : codeOfText s text = codeOfText s syms ++ p) : ∃ rest, text = syms ++ rest ∧ p = codeOfText s rest := by
  induction syms generalizing text with
  | nil => exact ⟨text, rfl, heq.symm⟩
  | cons a syms ih =>
    have ha := hsyms a List.mem_cons_self
    rw [codeOfText_cons, List.append_assoc] at heq
    cases text with
    | nil =>
      have hpos := codeOf_length_pos h hp ha
      have hnil : codeOf s a = [] := (List.append_eq_nil_iff.mp heq.symm).1
      simp [hnil] at hpos
    | cons b text =>
      rw [codeOfText_cons] at heq
      obtain ⟨rfl, htail⟩ := eq_of_codeOf_append_eq h hp (htext b List.mem_cons_self) ha heq
      obtain ⟨rest, rfl, hrest⟩ := ih (fun c hc => hsyms c (List.mem_cons_of_mem _ hc))
        (fun c hc => htext c (List.mem_cons_of_mem _ hc)) htail
      exact ⟨rest, rfl, hrest⟩

/-- A leaf is found in the map by its symbol (R40 (a)). -/
theorem lookup_of_leaf {s : State} (hm : MapInv s) (ht : TreeInv s) {i : Nat} {f : Word32} {a : Symbol}
    (hi : Table.read s.nm i = some (.leaf f a)) : Table.lookup FmEntry.sym s.fm a = some (i, ⟨a, f⟩) := by
  obtain ⟨e, he, hleaf⟩ := ht.leaves i (ht.leaf_lt hi)
  rw [hi] at hleaf
  cases hleaf
  exact Table.lookup_of_read hm.distinct he rfl

section Paths

variable {s : State} (h : Inv s) (hp : s.phase = .ready) (hk : 2 ≤ s.k.toNat)

include h hp hk

/-- The code of a symbol is the path to a leaf with the symbol. -/
theorem codeOf_path {a : Symbol} (ha : hasCode s a) :
    ∃ i f, followPath s.nm s.root.toNat (codeOf s a) = some i ∧ Table.read s.nm i = some (.leaf f a) := by
  have hcode := h.phase.table hp
  obtain ⟨i, c, hc, rfl, hbits⟩ := exists_entry_of_hasCode hcode ha
  obtain ⟨f, hleaf⟩ := hcode.leaf_of_read (h.phase.tree (by simp [hp])) hc
  obtain ⟨-, hpath⟩ := hcode.read_code hc
  rw [isCodeOf, if_neg (by omega)] at hpath
  exact ⟨i, f, hbits ▸ hpath, hleaf⟩

/-- The path to a leaf is the code of its symbol. -/
theorem codeOf_of_path {i : Nat} {f : Word32} {a : Symbol} {p : List Bool}
    (hi : Table.read s.nm i = some (.leaf f a)) (hpath : followPath s.nm s.root.toNat p = some i) :
    hasCode s a ∧ codeOf s a = p := by
  have ht := h.phase.tree (by simp [hp])
  have hcode := h.phase.table hp
  have ha : hasCode s a := by
    obtain ⟨e, c, he, hc, hsym, -⟩ := hcode.codes i (ht.leaf_lt hi)
    obtain ⟨g, hleaf⟩ := hcode.leaf_of_read ht hc
    rw [hi] at hleaf
    cases hleaf
    exact Option.isSome_iff_ne_none.mpr fun hl => Table.lookup_none hl hc rfl
  obtain ⟨j, g, hq, hj⟩ := codeOf_path h hp hk ha
  have hij := (lookup_of_leaf h.map ht hi).symm.trans (lookup_of_leaf h.map ht hj)
  simp only [Option.some_inj, Prod.mk.injEq] at hij
  obtain ⟨rfl, -⟩ := hij
  exact ⟨ha, ht.path_unique hq hpath⟩

end Paths

/-! Bits read as codes (R160) -/

/-- The bits `bits` are the codes of `syms`, one after the other, and then `path`, which leads from the root to node
`n`. The last code stays in `path` until the next bit comes, so `path` is empty only before the first bit. -/
structure Parse (s : State) (bits : List Bool) (syms : List Symbol) (path : List Bool) (n : Nat) : Prop where
  /-- Every symbol has a code. -/
  codes : ∀ a ∈ syms, hasCode s a
  /-- The codes, then the path. -/
  split : bits = codeOfText s syms ++ path
  /-- The path leads from the root to the node. -/
  leads : followPath s.nm s.root.toNat path = some n
  /-- The path is empty only before the first bit. -/
  started : path = [] → bits = []

namespace Parse

variable {s : State} {bits path : List Bool} {syms : List Symbol} {n : Nat} {f l r : Word32}

/-- Before the first bit: at the root (R155). -/
theorem nil (s : State) : Parse s [] [] [] s.root.toNat := ⟨nofun, rfl, rfl, fun _ => rfl⟩

/-- A bit at an internal node goes to its child (R160). -/
theorem internal (hs : Parse s bits syms path n) (hn : Table.read s.nm n = some (.internal f l r)) (b : Bool) :
    Parse s (bits ++ [b]) syms (path ++ [b]) (if b then r else l).toNat where
  codes := hs.codes
  split := by rw [hs.split, List.append_assoc]
  leads := by rw [followPath_append hs.leads, followPath, hn]; rfl
  started := by simp

section Leaf

variable (h : Inv s) (hp : s.phase = .ready) (hk : 2 ≤ s.k.toNat) {a : Symbol}

include h hp hk

/-- At a leaf the bits are whole codes, the last one that of the leaf's symbol (R161). -/
theorem text_of_leaf (hs : Parse s bits syms path n) (hn : Table.read s.nm n = some (.leaf f a)) :
    (∀ b ∈ syms ++ [a], hasCode s b) ∧ bits = codeOfText s (syms ++ [a]) := by
  obtain ⟨ha, hcode⟩ := codeOf_of_path h hp hk hn hs.leads
  refine ⟨fun b hb => ?_, ?_⟩
  · rcases List.mem_append.mp hb with hb | hb
    · exact hs.codes b hb
    · exact List.mem_singleton.mp hb ▸ ha
  · rw [hs.split, codeOfText, codeOfText, List.flatMap_append, List.flatMap_singleton, hcode]

/-- A bit at a leaf goes on from the root, the leaf's symbol read (R160). -/
theorem leaf (hs : Parse s bits syms path n) {g : Word32} (hn : Table.read s.nm n = some (.leaf g a))
    (hr : Table.read s.nm s.root.toNat = some (.internal f l r)) (b : Bool) :
    Parse s (bits ++ [b]) (syms ++ [a]) [b] (if b then r else l).toNat := by
  obtain ⟨hcodes, hbits⟩ := hs.text_of_leaf h hp hk hn
  exact ⟨hcodes, by rw [hbits], by rw [followPath, hr]; rfl, nofun⟩

/-- At an internal node the bits are no sequence of one or more whole codes (R161): the text would go on with a symbol
whose leaf stands on the path to the node. -/
theorem no_text_of_internal (hs : Parse s bits syms path n) (hn : Table.read s.nm n = some (.internal f l r))
    {text : List Symbol} (hne : text ≠ []) (hcodes : ∀ a ∈ text, hasCode s a) : bits ≠ codeOfText s text := by
  intro heq
  obtain ⟨rest, rfl, hrest⟩ := exists_rest_of_codeOfText_append h hp hs.codes hcodes (heq.symm.trans hs.split)
  cases rest with
  | nil => exact hne (eq_nil_of_codeOfText_eq_nil h hp hcodes (heq.symm.trans (hs.started hrest)))
  | cons a rest =>
    obtain ⟨i, g, hpath, hleaf⟩ := codeOf_path h hp hk (hcodes a (by simp))
    rw [codeOfText_cons] at hrest
    obtain rfl := leaf_of_path_append hleaf hpath (hrest ▸ hs.leads)
    rw [hn] at hleaf
    cases hleaf

end Leaf

end Parse

/-- The node at the end of a path from the root is one of the tree. -/
theorem TreeInv.path_lt {s : State} (h : TreeInv s) {n : Nat} {p : List Bool}
    (hp : followPath s.nm s.root.toNat p = some n) : n < s.nn.toNat := by
  have hroot := h.root
  have hsize := h.size
  have hne := h.nonempty
  rcases p.eq_nil_or_concat with rfl | ⟨q, b, rfl⟩
  · have : s.root.toNat = n := Option.some_inj.mp hp
    omega
  · rw [List.concat_eq_append] at hp
    obtain ⟨m, f, l, r, -, hm, rfl⟩ := followPath_concat hp
    have hc := h.child_lt (isChild_of_bit hm b)
    omega

/-! The frame of a tree with two leaves or more (R160 to R162) -/

/-- State `t` is in the decode frame opened from `s`, after the bits `bits`: `syms` are put out and counted, and `path`
has led to the current node. -/
structure Decoding (s : State) (bits : List Bool) (syms : List Symbol) (path : List Bool) (t : State) : Prop where
  /-- Only the decoder's registers and the outputs have changed. -/
  state : t = { s with
    decAct := true, cur := t.cur, out := t.out
    decBits := BitVec.ofNat 32 bits.length
    decCnt := BitVec.ofNat 32 syms.length }
  /-- The symbols put out. -/
  so : t.so = s.so ++ syms.map SoItem.sym
  /-- What the bits are. -/
  parse : Parse s bits syms path t.cur.toNat

namespace Decoding

variable {s t : State} {bits path : List Bool} {syms : List Symbol}

theorem nm_eq (hd : Decoding s bits syms path t) : t.nm = s.nm := by rw [hd.state]
theorem root_eq (hd : Decoding s bits syms path t) : t.root = s.root := by rw [hd.state]
theorem err_eq (hd : Decoding s bits syms path t) : t.err = s.err := by rw [hd.state]
theorem decAct_eq (hd : Decoding s bits syms path t) : t.decAct = true := by rw [hd.state]
theorem decBits_eq (hd : Decoding s bits syms path t) : t.decBits = BitVec.ofNat 32 bits.length := by rw [hd.state]
theorem decCnt_eq (hd : Decoding s bits syms path t) : t.decCnt = BitVec.ofNat 32 syms.length := by rw [hd.state]

/-- DBEG opens the frame, with no bit read (R155). -/
theorem opened (s : State) : Decoding s [] [] [] (openDecode s) where
  state := rfl
  so := by simp
  parse := .nil s

/-- The state after a DBIT at an internal node (R160). -/
theorem internal (hd : Decoding s bits syms path t) {f l r : Word32}
    (hn : Table.read s.nm t.cur.toNat = some (.internal f l r)) (b : Bool) :
    Decoding s (bits ++ [b]) syms (path ++ [b]) (respondOk 0 { descend b l r t with decBits := t.decBits + 1 }) where
  state := by
    rw [List.length_append, BitVec.ofNat_add, ← hd.decBits_eq, hd.state]
    rfl
  so := (respondOk_so 0 _).trans hd.so
  parse := hd.parse.internal hn b

/-- The state after a DBIT at a leaf (R160). -/
theorem leaf (h : Inv s) (hp : s.phase = .ready) (hk : 2 ≤ s.k.toNat) (hd : Decoding s bits syms path t)
    {f l r g : Word32} {a : Symbol} (hn : Table.read s.nm t.cur.toNat = some (.leaf g a))
    (hr : Table.read s.nm s.root.toNat = some (.internal f l r)) (b : Bool) :
    Decoding s (bits ++ [b]) (syms ++ [a]) [b]
      (respondOk 0 { descend b l r (emitSymbol a t) with decBits := t.decBits + 1 }) where
  state := by
    rw [List.length_append, List.length_append, BitVec.ofNat_add, BitVec.ofNat_add, ← hd.decBits_eq, ← hd.decCnt_eq,
      hd.state]
    rfl
  so := by
    rw [List.map_append, ← List.append_assoc, ← hd.so]
    exact (respondOk_so 0 _).trans (emitSymbol_so a t)
  parse := hd.parse.leaf h hp hk hn hr b

/-- The current node of the frame is a leaf or an internal node. -/
theorem cur_cases (ht : TreeInv s) (hd : Decoding s bits syms path t) :
    (∃ g a, Table.read s.nm t.cur.toNat = some (.leaf g a)) ∨
    ∃ g l r, Table.read s.nm t.cur.toNat = some (.internal g l r) := by
  obtain ⟨node, hread⟩ := Table.exists_of_keys ht.keys (ht.path_lt hd.parse.leads)
  cases node with
  | leaf g a => exact .inl ⟨g, a, hread⟩
  | internal g l r => exact .inr ⟨g, l, r, hread⟩

/-- A DBIT of the frame, with room for its bit (R156). -/
theorem exec_dbit (h : Inv s) (hp : s.phase = .ready) (hk : 2 ≤ s.k.toNat) (hd : Decoding s bits syms path t)
    (hroom : bits.length < maxWord32) (b : Bool) :
    ∃ t' syms' path', exec (.dbit b) t = .next t' ∧ Decoding s (bits ++ [b]) syms' path' t' := by
  have ht := h.phase.tree (by simp [hp])
  obtain ⟨f, l, r, hr⟩ := ht.root_internal hk
  have hwalks : exec (.dbit b) t = walkBit b l r t := by
    refine exec_dbit_walks hd.decAct_eq ?_ (by rw [hd.nm_eq, hd.root_eq, hr])
    rw [hd.decBits_eq, BitVec.toNat_ofNat]
    exact (Nat.mod_le _ _).trans_lt hroom
  rcases hd.cur_cases ht with ⟨g, a, hn⟩ | ⟨g, l', r', hn⟩
  · exact ⟨_, _, _, hwalks.trans (walkBit_leaf (by rw [hd.nm_eq, hn])), hd.leaf h hp hk hn hr b⟩
  · exact ⟨_, _, _, hwalks.trans (walkBit_internal (by rw [hd.nm_eq, hn])), hd.internal hn b⟩

/-- The DBITs of the frame, with room for their bits. -/
theorem execAll_dbits (h : Inv s) (hp : s.phase = .ready) (hk : 2 ≤ s.k.toNat) (hd : Decoding s bits syms path t)
    {more : List Bool} (hroom : bits.length + more.length ≤ maxWord32) :
    ∃ t' syms' path', execAll (Instr.dbits more) t = .next t' ∧ Decoding s (bits ++ more) syms' path' t' := by
  induction more generalizing bits syms path t with
  | nil => exact ⟨t, syms, path, rfl, by rwa [List.append_nil]⟩
  | cons b more ih =>
    rw [List.length_cons] at hroom
    obtain ⟨u, symsU, pathU, hu, hdu⟩ := hd.exec_dbit h hp hk (by omega) b
    obtain ⟨t', syms', path', ht', hd'⟩ := ih hdu (by rw [List.length_append, List.length_singleton]; omega)
    exact ⟨t', syms', path', (execAll_cons_next hu).trans ht', by rwa [List.append_assoc] at hd'⟩

end Decoding

/-- Settles O35: the bits of the frame lead from the root, code by code, to a node. At a leaf they are whole codes, and
DEND puts out the last symbol and END; at an internal node they are the codes of no text (`Parse.no_text_of_internal`),
and DEND aborts. -/
theorem decodeFrameEndsExactlyOnCodes : Obligations.DecodeFrameEndsExactlyOnCodes := by
  intro s bits h hp ha hk hroom
  have hbuilt : s.phase ≠ .collect := by simp [hp]
  have ht := h.phase.tree hbuilt
  obtain ⟨t, syms, path, hbits, hd⟩ := (Decoding.opened s).execAll_dbits h hp hk ((Nat.zero_add _).trans_le hroom)
  obtain ⟨f, l, r, hr⟩ := ht.root_internal hk
  have hr' : Table.read t.nm t.root.toNat = some (.internal f l r) := by rw [hd.nm_eq, hd.root_eq, hr]
  have hframe := execAll_decodeFrame hbuilt ha hbits
  rcases hd.cur_cases ht with ⟨g, a, hn⟩ | ⟨g, l', r', hn⟩
  · obtain ⟨hcodes, htext⟩ := hd.parse.text_of_leaf h hp hk hn
    have hend := hframe.trans (exec_dend_leaf hd.decAct_eq hr' (by rw [hd.nm_eq, hn]))
    refine ⟨_, syms ++ [a], hend, rfl, .inl ⟨List.concat_ne_nil a syms, hcodes, htext, ?_, hd.err_eq⟩⟩
    rw [closeDecode_so, emitSymbol_so, hd.so, List.map_append, List.append_assoc s.so]
    rfl
  · have hend := hframe.trans (exec_dend_truncated hd.decAct_eq hr' (by rw [hd.nm_eq, hn]))
    refine ⟨_, syms, hend, rfl, .inr ⟨fun text => hd.parse.no_text_of_internal h hp hk hn, ?_, rfl⟩⟩
    rw [raiseFault_so, abortDecode_so, hd.so]

end Sys2Proof.Machine
end

