-- ==== Sys2Proof/Proofs/SystemCommandClaims.lean ====
section
/-! The claims of 45_system_commands.md: NOP, RST and ECLR (R175 to R177), and what RDR, RDF, RDN and RDC read and refuse
(R178 to R181). -/

namespace Sys2Proof.Machine

/-! The system commands -/

/-- Settles O15. -/
theorem nopChangesNothing : Obligations.NopChangesNothing := fun _ => rfl

/-- Settles O16: the ABORT items are BO's, then SO's, and the response follows them. -/
theorem rstEndsTheSession : Obligations.RstEndsTheSession := by
  intro s
  rw [List.append_assoc s.out]
  rfl

/-- Settles O17. -/
theorem eclrClearsTheFaultRecord : Obligations.EclrClearsTheFaultRecord := fun _ => ⟨_, rfl, rfl, rfl⟩

/-! Readback -/

/-- Where there is such an item, a readback answers its value (R68). -/
theorem readback_of_eq_some {i : Instr} {v : Option Word32} {d : Word32} (hv : v = some d) (s : State) :
    readback i v s = .next (respondOk d s) := by
  rw [hv]
  rfl

/-- Where there is none, a readback refuses (R69). -/
theorem readback_of_eq_none {i : Instr} {v : Option Word32} (hv : v = none) (s : State) :
    readback i v s = .next (raiseFault .badOperand (upperHalf (encode i)) s) := by
  rw [hv]
  rfl

/-! RDR -/

/-- Operand A of RDR is MBZ, so the upper half of its word is the opcode (R82). -/
theorem upperHalf_encode_rdr (regno : Word32) : upperHalf (encode (.rdr regno)) = 0x50000000 :=
  BitVec.eq_of_toNat_eq (upperHalf_cmdWord_toNat 0x50 0 regno)

/-- The sum in ENC_BYTES does not wrap around (R43). -/
theorem encBytes_toNat (s : State) : (encBytes s).toNat = (s.encLen.toNat + 7) / 8 := by
  have := s.encLen.isLt
  rw [encBytes, BitVec.toNat_ofNat, Nat.mod_eq_of_lt (by omega)]

/-- Settles O38: the sixteen rows of the register map, and the numbers above them. -/
theorem rdrReadsTheRegisterMap : Obligations.RdrReadsTheRegisterMap := by
  refine fun s => ⟨rfl, rfl, rfl, rfl, rfl, rfl, rfl, rfl, rfl, rfl, rfl, rfl, ⟨encBytes s, encBytes_toNat s, rfl⟩,
    rfl, rfl, rfl, fun regno hn => ?_⟩
  rw [← upperHalf_encode_rdr regno]
  exact readback_of_eq_none ((readReg_eq_none_iff s _).mpr hn) s

section Fields

variable {s : State} {idx sel : Nat}

/-! The fields of the Frequency Map -/

/-- The fields of a valid entry (R179). -/
theorem readFm_entry {e : FmEntry} (hi : idx < s.kMax) (hr : Table.read s.fm idx = some e) :
    readFm s idx 0 = some 1 ∧ readFm s idx 1 = some (e.sym.setWidth 32) ∧ readFm s idx 2 = some e.cnt := by
  simp [readFm, hi, hr]

/-- INFO of an invalid entry (R179). -/
theorem readFm_info_invalid (hi : idx < s.kMax) (hr : Table.read s.fm idx = none) : readFm s idx 0 = some 0 := by
  simp [readFm, hi, hr]

/-- Out of range, or a field other than INFO of an invalid entry (R179). -/
theorem readFm_eq_none (h : s.kMax ≤ idx ∨ 3 ≤ sel ∨ (Table.read s.fm idx = none ∧ sel ≠ 0)) :
    readFm s idx sel = none := by
  rw [readFm]
  split
  · rfl
  next hrange =>
    obtain ⟨hr, hsel⟩ := (h.resolve_left (by omega)).resolve_left (by omega)
    rw [hr]
    exact if_neg hsel

/-! The fields of the node memory -/

/-- The fields of a leaf (R180). -/
theorem readNm_leaf {f : Word32} {a : Symbol} (hi : idx < Config.nMax s.kMax)
    (hr : Table.read s.nm idx = some (.leaf f a)) :
    readNm s idx 0 = some 1 ∧ readNm s idx 1 = some f ∧ readNm s idx 2 = some (a.setWidth 32) := by
  simp [readNm, hi, hr]

/-- A leaf has no children (R180). -/
theorem readNm_leaf_child {f : Word32} {a : Symbol} (hr : Table.read s.nm idx = some (.leaf f a)) (hsel : 3 ≤ sel) :
    readNm s idx sel = none := by
  rw [readNm, hr]
  split
  · rfl
  · dsimp only
    rw [if_neg (by omega), if_neg (by omega), if_neg (by omega)]

/-- The fields of an internal node, which has no symbol (R180). -/
theorem readNm_internal {f l r : Word32} (hi : idx < Config.nMax s.kMax)
    (hr : Table.read s.nm idx = some (.internal f l r)) :
    readNm s idx 0 = some 3 ∧ readNm s idx 1 = some f ∧ readNm s idx 2 = none ∧ readNm s idx 3 = some l ∧
      readNm s idx 4 = some r := by
  simp [readNm, hi, hr]

/-- INFO of an invalid node (R180). -/
theorem readNm_info_invalid (hi : idx < Config.nMax s.kMax) (hr : Table.read s.nm idx = none) :
    readNm s idx 0 = some 0 := by
  simp [readNm, hi, hr]

/-- Out of range, or a field other than INFO of an invalid node (R180). -/
theorem readNm_eq_none (h : Config.nMax s.kMax ≤ idx ∨ 5 ≤ sel ∨ (Table.read s.nm idx = none ∧ sel ≠ 0)) :
    readNm s idx sel = none := by
  rw [readNm]
  split
  · rfl
  next hrange =>
    obtain ⟨hr, hsel⟩ := (h.resolve_left (by omega)).resolve_left (by omega)
    rw [hr]
    exact if_neg hsel

/-! The fields of the Code Table -/

/-- The fields of a valid entry but for its code (R181). -/
theorem readCt_entry {e : CtEntry} (hi : idx < s.kMax) (hr : Table.read s.ct idx = some e) :
    readCt s idx 0 = some 1 ∧ readCt s idx 1 = some (e.sym.setWidth 32) ∧ readCt s idx 2 = some (codeLen e) := by
  simp [readCt, hi, hr]

/-- The selectors from 3 on name the words of the code, as many as there are (R64, R181). -/
theorem readCt_word {e : CtEntry} (hi : idx < s.kMax) (hr : Table.read s.ct idx = some e) (hsel : 3 ≤ sel) :
    readCt s idx sel = if sel - 3 < codeWords e.bits then some (codeWord e.bits (sel - 3)) else none := by
  rw [readCt, if_neg (not_not.mpr hi), hr]
  dsimp only
  rw [if_neg (by omega), if_neg (by omega), if_neg (by omega)]

/-- INFO of an invalid entry (R181). -/
theorem readCt_info_invalid (hi : idx < s.kMax) (hr : Table.read s.ct idx = none) : readCt s idx 0 = some 0 := by
  simp [readCt, hi, hr]

/-- Out of range, or a field other than INFO of an invalid entry (R181). -/
theorem readCt_eq_none (h : s.kMax ≤ idx ∨ (Table.read s.ct idx = none ∧ sel ≠ 0)) : readCt s idx sel = none := by
  rw [readCt]
  split
  · rfl
  next hrange =>
    obtain ⟨hr, hsel⟩ := h.resolve_left (by omega)
    rw [hr]
    exact if_neg hsel

/-! Which entries are valid in the states a run reaches -/

/-- The valid nodes are those below NN, before BUILD too, when there is none (R39). -/
theorem PhaseInv.nm_keys (h : PhaseInv s) : s.nm.map Prod.fst = List.range s.nn.toNat := by
  by_cases hp : s.phase = .collect
  · obtain ⟨hnm, hnn, -⟩ := h.collect hp
    rw [hnm, hnn]
    rfl
  · exact (h.tree hp).keys

/-- The valid entries of the Code Table are those below K, and only in READY (R41). -/
theorem PhaseInv.read_ct_isSome_iff (h : PhaseInv s) :
    (Table.read s.ct idx).isSome = true ↔ s.phase = .ready ∧ idx < s.k.toNat := by
  by_cases hp : s.phase = .ready
  · rw [Table.read_isSome_of_keys (h.table hp).keys]
    exact (and_iff_right hp).symm
  · simp [h.noTable hp, hp]

end Fields

/-! RDF, RDN and RDC -/

/-- Settles O40: each field is read by its own selector, and the map has no other item (`readFm_eq_none`). -/
theorem rdfReadsTheMap : Obligations.RdfReadsTheMap := by
  refine fun idx sel s => ⟨fun e hi hr => ?_, fun hi hr => ?_, fun h => ?_, fun h => ?_⟩
  · obtain ⟨hinfo, hsym, hcnt⟩ := readFm_entry hi hr
    exact ⟨readback_of_eq_some hinfo s, readback_of_eq_some hsym s, readback_of_eq_some hcnt s⟩
  · exact readback_of_eq_some (readFm_info_invalid hi hr) s
  · exact readback_of_eq_none (readFm_eq_none (h.imp_right (.imp_right (.imp_right BitVec.toNat_ne.mp)))) s
  · exact Table.read_isSome_of_keys h.map.keys idx.toNat

/-- Settles O41: a leaf and an internal node have fields of their own, and the node memory has no other item
(`readNm_leaf_child`, `readNm_internal`, `readNm_eq_none`). -/
theorem rdnReadsTheTree : Obligations.RdnReadsTheTree := by
  refine fun idx sel s => ⟨fun f a hi hr => ?_, fun f l r hi hr => ?_, fun hi hr => ?_, fun h => ?_, fun h => ?_⟩
  · obtain ⟨hinfo, hfreq, hsym⟩ := readNm_leaf hi hr
    refine ⟨readback_of_eq_some hinfo s, readback_of_eq_some hfreq s, readback_of_eq_some hsym s, fun hsel => ?_⟩
    have hchild : 3 ≤ sel.toNat := by rcases hsel with rfl | rfl <;> decide
    exact readback_of_eq_none (readNm_leaf_child hr hchild) s
  · obtain ⟨hinfo, hfreq, hsym, hleft, hright⟩ := readNm_internal hi hr
    refine ⟨readback_of_eq_some hinfo s, readback_of_eq_some hfreq s, ?_, readback_of_eq_some hleft s,
      readback_of_eq_some hright s⟩
    rintro rfl
    exact readback_of_eq_none hsym s
  · exact readback_of_eq_some (readNm_info_invalid hi hr) s
  · exact readback_of_eq_none (readNm_eq_none (h.imp_right (.imp_right (.imp_right BitVec.toNat_ne.mp)))) s
  · exact Table.read_isSome_of_keys h.phase.nm_keys idx.toNat

/-- Settles O42: below selector 3 each field is read by its own selector, from 3 on the words of the code, and the table
has no other item (`readCt_eq_none`). -/
theorem rdcReadsTheTable : Obligations.RdcReadsTheTable := by
  refine fun idx sel s => ⟨fun e hi hr => ?_, fun hi hr => ?_, fun h => ?_, fun h => ?_⟩
  · obtain ⟨hinfo, hsym, hlen⟩ := readCt_entry hi hr
    refine ⟨readback_of_eq_some hinfo s, readback_of_eq_some hsym s, readback_of_eq_some hlen s,
      fun hsel hw => ?_, fun hsel hw => ?_⟩
    · exact readback_of_eq_some ((readCt_word hi hr hsel).trans (if_pos hw)) s
    · exact readback_of_eq_none ((readCt_word hi hr hsel).trans (if_neg hw.not_gt)) s
  · exact readback_of_eq_some (readCt_info_invalid hi hr) s
  · exact readback_of_eq_none (readCt_eq_none (h.imp_right (.imp_right BitVec.toNat_ne.mp))) s
  · exact h.phase.read_ct_isSome_iff

end Sys2Proof.Machine
end

