-- ==== Sys2Proof/Proofs/FrameClaims.lean ====
section
/-! The claims of 48_properties.md about frames: the round trip of a text (R190), from READY and from reset, and the
frames of the empty text (R193). -/

namespace Sys2Proof.Machine

/-! What a sequence of commands keeps -/

/-- A sequence of commands each of which keeps `P` keeps `P`. -/
theorem execAll_keeps {P : State → Prop} {is : List Instr} {s t : State}
    (hkeep : ∀ i ∈ is, ∀ u v, P u → exec i u = .next v → P v) (hs : P s) (h : execAll is s = .next t) : P t := by
  induction is generalizing s with
  | nil => cases h; exact hs
  | cons i is ih =>
    rw [execAll] at h
    split at h
    · next u hu => exact ih (fun j hj => hkeep j (List.mem_cons_of_mem i hj)) (hkeep i List.mem_cons_self s u hs hu) h
    · cases h
    · cases h

/-- A sequence of commands keeps the invariant. -/
theorem Inv.execAll {is : List Instr} {s t : State} (hs : Inv s) (h : execAll is s = .next t) : Inv t :=
  execAll_keeps (fun _ _ _ _ hu hv => hu.effect (exec_effect hv)) hs h

/-- The commands of a decode frame leave ENC_LEN alone (R28). -/
theorem encLen_of_decodeFrame {bits : List Bool} {s t : State}
    (h : execAll ([.dbeg] ++ Instr.dbits bits ++ [.dend]) s = .next t) : t.encLen = s.encLen := by
  refine execAll_keeps (P := fun u => u.encLen = s.encLen) (fun i hi u v hu hv => ?_) rfl h
  have hdec : i = .dbeg ∨ i = .dend ∨ ∃ b, i = .dbit b := by
    simp only [Instr.dbits, List.mem_append, List.mem_singleton, List.mem_map] at hi
    rcases hi with (rfl | ⟨b, -, rfl⟩) | rfl
    · exact .inl rfl
    · exact .inr (.inr ⟨b, rfl⟩)
    · exact .inr (.inl rfl)
  obtain ⟨-, hlen, -⟩ := (encoderAndDecoderAreIndependent i u v hv).2 hdec
  exact hlen.trans hu

/-- The commands that count a text and make its tree and its table put nothing on BO and SO. -/
theorem streams_of_counting {text : List Symbol} {s t : State}
    (h : execAll (Instr.ftext text ++ [.build, .gentab]) s = .next t) : t.bo = s.bo ∧ t.so = s.so := by
  refine execAll_keeps (P := fun u => u.bo = s.bo ∧ u.so = s.so) (fun i hi u v hu hv => ?_) ⟨rfl, rfl⟩ h
  suffices hquiet : v.bo = u.bo ∧ v.so = u.so from ⟨hquiet.1.trans hu.1, hquiet.2.trans hu.2⟩
  simp only [Instr.ftext, List.mem_append, List.mem_map, List.mem_cons, List.not_mem_nil, or_false] at hi
  rcases hi with ⟨a, -, rfl⟩ | rfl | rfl
  · cases exec_effect hv <;> simp [State.bo, State.so]
  · cases exec_effect hv <;> simp [State.bo, State.so]
  · cases exec_effect hv <;> simp [State.bo, State.so]

/-! Decoding the code of a text -/

/-- State `t` is `s` after a decode frame of `n` bits that put out `text` and END: no fault, `DEC_CNT` and `DEC_BITS` the
numbers of symbols and of bits (R161, R163). -/
structure DecodedText (s : State) (text : List Symbol) (n : Nat) (t : State) : Prop where
  so : t.so = s.so ++ text.map SoItem.sym ++ [.endFrame]
  decCnt : t.decCnt.toNat = text.length
  decBits : t.decBits.toNat = n
  err : t.err = s.err

/-- A number up to 2^32 - 1 is the value of its word. -/
theorem toNat_ofNat_of_le {n : Nat} (h : n ≤ maxWord32) : (BitVec.ofNat 32 n).toNat = n := by
  rw [BitVec.toNat_ofNat]
  exact Nat.mod_eq_of_lt (Nat.lt_succ_of_le h)

/-- On a single-symbol tree every symbol with a code is the root's, and its code is one bit (R133). -/
theorem eq_root_of_hasCode {s : State} (h : Inv s) (hp : s.phase = .ready) (hk : s.k.toNat = 1) {f : Word32}
    {a b : Symbol} (hr : Table.read s.nm s.root.toNat = some (.leaf f a)) (hb : hasCode s b) :
    b = a ∧ (codeOf s b).length = 1 := by
  have ht := h.phase.tree (by simp [hp])
  have htab := h.phase.table hp
  obtain ⟨i, c, hc, rfl, hbits⟩ := exists_entry_of_hasCode htab hb
  obtain ⟨g, hleaf⟩ := htab.leaf_of_read ht hc
  obtain ⟨hi, hcode⟩ := htab.read_code hc
  have hroot := ht.leaf_lt hr
  obtain rfl : i = s.root.toNat := by omega
  rw [hr] at hleaf
  rw [isCodeOf, if_pos hk] at hcode
  exact ⟨(Node.leaf.inj (Option.some_inj.mp hleaf)).2.symm, by rw [hbits, hcode]; rfl⟩

/-- The code of a text whose symbols have one-bit codes has as many bits as the text has symbols. -/
theorem length_codeOfText_single {s : State} {text : List Symbol} (h : ∀ a ∈ text, (codeOf s a).length = 1) :
    (codeOfText s text).length = text.length := by
  rw [codeOfText, List.length_flatMap, List.map_congr_left h]
  simp

section Decode

variable {s : State} {text : List Symbol} (h : Inv s) (hp : s.phase = .ready) (hcodes : ∀ a ∈ text, hasCode s a)

include h hp hcodes

/-- Two texts with the same code are the same text. -/
theorem eq_of_codeOfText_eq {syms : List Symbol} (hsyms : ∀ a ∈ syms, hasCode s a)
    (heq : codeOfText s text = codeOfText s syms) : text = syms := by
  obtain ⟨rest, rfl, hrest⟩ :=
    exists_rest_of_codeOfText_append h hp hsyms hcodes (heq.trans (List.append_nil _).symm)
  have hnil : rest = [] :=
    eq_nil_of_codeOfText_eq_nil h hp (fun a ha => hcodes a (List.mem_append_right _ ha)) hrest.symm
  rw [hnil, List.append_nil]

/-- On a tree with two leaves or more: after the last bit the walk is at the leaf of the text's last symbol (R161). -/
theorem decodedText_of_two_le (hk : 2 ≤ s.k.toNat) (ha : s.decAct = false) (hne : text ≠ [])
    (hroom : (codeOfText s text).length ≤ maxWord32) :
    ∃ t, execAll ([.dbeg] ++ Instr.dbits (codeOfText s text) ++ [.dend]) s = .next t ∧
      DecodedText s text (codeOfText s text).length t := by
  have hbuilt : s.phase ≠ .collect := by simp [hp]
  have ht := h.phase.tree hbuilt
  obtain ⟨u, syms, path, hbits, hd⟩ := (Decoding.opened s).execAll_dbits h hp hk ((Nat.zero_add _).trans_le hroom)
  rcases hd.cur_cases ht with ⟨g, a, hn⟩ | ⟨g, l, r, hn⟩
  case inr => exact absurd rfl (hd.parse.no_text_of_internal h hp hk hn hne hcodes)
  obtain ⟨hsyms, heq⟩ := hd.parse.text_of_leaf h hp hk hn
  obtain rfl := eq_of_codeOfText_eq h hp hcodes hsyms heq
  have hlen : (syms ++ [a]).length ≤ maxWord32 := (length_le_codeOfText h hp hcodes).trans hroom
  rw [List.length_append, List.length_singleton] at hlen
  obtain ⟨f, l, r, hr⟩ := ht.root_internal hk
  have hend : exec .dend u = .next (closeDecode (emitSymbol a u)) :=
    exec_dend_leaf hd.decAct_eq (by rw [hd.nm_eq, hd.root_eq, hr]) (by rw [hd.nm_eq, hn])
  refine ⟨_, (execAll_decodeFrame hbuilt ha hbits).trans hend, ?_, ?_, ?_, hd.err_eq⟩
  · rw [closeDecode_so, emitSymbol_so, hd.so, List.map_append, List.append_assoc s.so]
    rfl
  · show (u.decCnt + BitVec.ofNat 32 1).toNat = _
    rw [hd.decCnt_eq, ← BitVec.ofNat_add, toNat_ofNat_of_le hlen, List.length_append, List.length_singleton]
  · exact (congrArg BitVec.toNat hd.decBits_eq).trans (toNat_ofNat_of_le hroom)

/-- On a single-symbol tree: every code is one bit, and every bit decodes to the one symbol (R163). -/
theorem decodedText_of_single (hk : s.k.toNat = 1) (ha : s.decAct = false)
    (hroom : (codeOfText s text).length ≤ maxWord32) :
    ∃ t, execAll ([.dbeg] ++ Instr.dbits (codeOfText s text) ++ [.dend]) s = .next t ∧
      DecodedText s text (codeOfText s text).length t := by
  have hk' : s.k = 1 := BitVec.eq_of_toNat_eq hk
  obtain ⟨t, f, a, hr, hend, hso, hcnt, hbits, -, herr⟩ :=
    singleSymbolFrameDecodes s (codeOfText s text) h (by simp [hp]) ha hk' hroom
  have hone := fun b hb => eq_root_of_hasCode h hp hk hr (hcodes b hb)
  have htext : text = List.replicate text.length a := List.eq_replicate_iff.mpr ⟨rfl, fun b hb => (hone b hb).1⟩
  have hlen : (codeOfText s text).length = text.length := length_codeOfText_single fun b hb => (hone b hb).2
  refine ⟨t, hend, ⟨?_, hcnt.trans hlen, hbits, herr⟩⟩
  rw [hso, hlen, ← List.map_replicate, ← htext]

/-- The bits of a text's code, as a decode frame, put out the text (R190). -/
theorem exists_decodedText (ha : s.decAct = false) (hne : text ≠ [])
    (hroom : (codeOfText s text).length ≤ maxWord32) :
    ∃ t, execAll ([.dbeg] ++ Instr.dbits (codeOfText s text) ++ [.dend]) s = .next t ∧
      DecodedText s text (codeOfText s text).length t := by
  have hpos := (h.phase.tree (by simp [hp])).nonempty
  rcases Nat.lt_or_ge s.k.toNat 2 with hk | hk
  · exact decodedText_of_single h hp hcodes (by omega) ha hroom
  · exact decodedText_of_two_le h hp hcodes hk ha hne hroom

end Decode

/-! The round trip (R190) -/

/-- A text with codes, encoded and decoded from `s`: the commands of the two frames complete, with every result that
R190 names. -/
theorem roundTrip {s : State} {text : List Symbol} (h : Inv s) (hp : s.phase = .ready) (ha : s.encAct = false)
    (hd : s.decAct = false) (hne : text ≠ []) (hcodes : ∀ a ∈ text, hasCode s a)
    (hroom : (codeOfText s text).length ≤ maxWord32) :
    ∃ t u, execAll ([.ebeg] ++ Instr.etext text ++ [.eend]) s = .next t ∧
      t.bo = s.bo ++ (codeOfText s text).map BoItem.bit ++ [.endFrame] ∧ t.err = s.err ∧
      t.encLen.toNat = (codeOfText s text).length ∧
      execAll ([.dbeg] ++ Instr.dbits (codeOfText s text) ++ [.dend]) t = .next u ∧
      u.so = s.so ++ text.map SoItem.sym ++ [.endFrame] ∧ u.decCnt.toNat = text.length ∧
      u.decBits.toNat = (codeOfText s text).length ∧ u.encLen = t.encLen ∧ u.err = s.err := by
  obtain ⟨t, ht, hbo, hso, hlen, -, -, herr⟩ := encodeFrameHoldsTheCodes s text h hp ha hcodes hroom
  have hinv : Inv t := h.execAll ht
  obtain rfl : closeEncode (encodeText text (openEncode s)) = t :=
    Host.Outcome.next.inj ((execAll_encodeFrame hp ha hcodes hroom).symm.trans ht)
  obtain ⟨u, hu, hdec⟩ := exists_decodedText (text := text) hinv hp hcodes hd hne hroom
  exact ⟨_, u, ht, hbo, herr, hlen, hu, hso ▸ hdec.so, hdec.decCnt, hdec.decBits, encLen_of_decodeFrame hu,
    hdec.err.trans herr⟩

/-- Settles O55: the bits are the code of the text (`roundTrip`). -/
theorem roundTripOfAFrame : Obligations.RoundTripOfAFrame := by
  intro s text h hp ha hd hne hcodes hroom
  obtain ⟨t, u, ht, hbo, -, hlen, hu, hso, hcnt, hbits, hulen, herr⟩ := roundTrip h hp ha hd hne hcodes hroom
  exact ⟨t, u, _, ht, hbo, hu, hso, hcnt, hbits, hulen ▸ hlen, herr⟩

/-! From reset -/

/-- In READY every symbol of the map has a code (R41). -/
theorem hasCode_of_mem_map {s : State} (hm : MapInv s) (hc : CodeInv s) {a : Symbol}
    (ha : a ∈ s.fm.map (fun e => e.2.sym)) : hasCode s a := by
  obtain ⟨⟨i, e⟩, he, rfl⟩ := List.mem_map.mp ha
  have hr := Table.read_of_mem (Table.wf_of_keys hm.keys) he
  obtain ⟨e', c, he', hc', hsym, -⟩ := hc.codes i ((Table.read_isSome_of_keys hm.keys i).mp (by simp [hr]))
  obtain rfl := Option.some_inj.mp (hr.symm.trans he')
  exact Option.isSome_iff_ne_none.mpr fun hl => Table.lookup_none hl hc' hsym

/-- The state that the commands before the frames leave: the text is counted, its tree and its code table are made, no
frame is open and no fault is recorded (R190). -/
structure Prepared (text : List Symbol) (s : State) : Prop where
  inv : Inv s
  ready : s.phase = .ready
  encClosed : s.encAct = false
  decClosed : s.decAct = false
  noFault : s.err = 0
  codes : ∀ a ∈ text, hasCode s a

/-- BUILD and GENTAB of a counted text complete (R190). -/
theorem Counted.exists_prepared {text : List Symbol} {s : State} (h : Counted text s) (hi : Inv s) (hne : text ≠ []) :
    ∃ t, Machine.execAll [.build, .gentab] s = .next t ∧ Prepared text t := by
  have hk : s.k ≠ 0 := fun h0 => by
    have hlen := h.slots
    rw [h0] at hlen
    obtain ⟨a, ha⟩ := List.exists_mem_of_ne_nil text hne
    exact absurd (List.mem_eraseDups.mpr ha) (by simp [List.length_eq_zero_iff.mp hlen.symm])
  obtain ⟨u, hbuild, -, hu⟩ := buildMakesTheTree s hi h.phase hk
  have hui : Inv u := hi.effect (exec_effect hbuild)
  obtain ⟨t, hgentab, -, -, ht⟩ := gentabWritesThePaths u hui (by rw [hu])
  have hti : Inv t := hui.effect (exec_effect hgentab)
  have hp : t.phase = .ready := by rw [ht]
  have hfm : t.fm = s.fm := by rw [ht, hu]
  obtain ⟨henc, hdec⟩ := hi.frames.closed h.phase
  refine ⟨t, (execAll_cons_next hbuild).trans (execAll_cons_next hgentab), hti, hp, ?_, ?_, ?_, fun a ha => ?_⟩
  · rw [ht, hu]; exact henc
  · rw [ht, hu]; exact hdec
  · rw [ht, hu]; exact h.noFault
  · refine hasCode_of_mem_map hti.map (hti.phase.table hp) ?_
    rw [hfm, h.symbols]
    exact List.mem_eraseDups.mpr ha

/-- Settles O56: the commands before the frames complete (`execAll_ftext`, `Counted.exists_prepared`), and from the state
they leave the round trip is that of every state in READY (`roundTrip`). -/
theorem roundTripOfACountedText : Obligations.RoundTripOfACountedText := by
  intro kMax text hlegal hne hroom hlen
  obtain ⟨c, hc, -, hcounted⟩ := execAll_ftext hroom hlen
  obtain ⟨s, hs, hprep⟩ := hcounted.exists_prepared ((inv_resetFor hlegal).execAll hc) hne
  have hrun : execAll (Instr.ftext text ++ [.build, .gentab]) (State.resetFor kMax) = .next s :=
    (execAll_append_next hc).trans hs
  obtain ⟨hbo, hso⟩ := streams_of_counting hrun
  refine ⟨s, hrun, hprep.noFault, fun hfits => ?_⟩
  obtain ⟨t, u, ht, htbo, hterr, htlen, hu, huso, hcnt, hbits, -, huerr⟩ :=
    roundTrip hprep.inv hprep.ready hprep.encClosed hprep.decClosed hne hprep.codes hfits
  rw [hbo] at htbo
  rw [hso] at huso
  exact ⟨t, u, _, ht, hterr.trans hprep.noFault, htbo, htlen, hu, huerr.trans hprep.noFault, huso, hcnt, hbits⟩

/-! The empty text (R193) -/

/-- On a tree with two leaves or more, a decode frame with no bit is truncated at ROOT (R162). -/
theorem execAll_emptyDecode {s : State} (h : Inv s) (hp : s.phase ≠ .collect) (ha : s.decAct = false)
    (hk : 2 ≤ s.k.toNat) :
    execAll [.dbeg, .dend] s = .next (raiseFault .truncatedInput s.root (abortDecode (openDecode s))) := by
  obtain ⟨f, l, r, hr⟩ := (h.phase.tree hp).root_internal hk
  exact (execAll_cons_next (exec_dbeg_opens hp ha)).trans (execAll_cons_next (exec_dend_truncated rfl hr hr))

/-- Settles O37: the empty text is a text with codes, the empty sequence of bits is a frame of a single-symbol tree, and
on any other tree the frame ends where it began (`execAll_emptyDecode`). -/
theorem emptyTextFrames : Obligations.EmptyTextFrames := by
  refine fun s h => ⟨fun hp ha => ?_, fun hp ha => ?_⟩
  · obtain ⟨t, ht, hbo, -, hlen, -⟩ := encodeFrameHoldsTheCodes s [] h hp ha nofun (Nat.zero_le _)
    exact ⟨t, ht, by simpa [codeOfText] using hbo, BitVec.eq_of_toNat_eq hlen⟩
  · have hpos := (h.phase.tree hp).nonempty
    rcases Nat.lt_or_ge s.k.toNat 2 with hk | hk
    · have hone : s.k = 1 := BitVec.eq_of_toNat_eq (show s.k.toNat = 1 by omega)
      obtain ⟨t, _, _, -, ht, hso, -, -, -, herr⟩ := singleSymbolFrameDecodes s [] h hp ha hone (Nat.zero_le _)
      exact ⟨t, ht, fun h2 => absurd h2 (by omega), fun _ => ⟨by simpa using hso, herr⟩⟩
    · exact ⟨_, execAll_emptyDecode h hp ha hk, fun _ => ⟨by simp, rfl, rfl⟩, fun h1 => absurd hk (by simp [h1])⟩

end Sys2Proof.Machine
end

