-- ==== Sys2Proof/Proofs/CostClaims.lean ====
section
/-! The claims of 48_properties.md about COST: it is the sum of the internal frequencies (R192), and the length of the
counted text's code (R194). -/

namespace Sys2Proof.Machine

/-! Sums over a table -/

/-- A sum over a table whose valid entries are the indices below `n`, taken index by index. -/
theorem Table.sum_of_keys {α : Type} {t : Table α} {n : Nat} (h : t.map Prod.fst = List.range n) {f : Nat × α → Nat}
    {g : Nat → Nat} (hfg : ∀ i x, Table.read t i = some x → f (i, x) = g i) :
    (t.map f).sum = ∑ i ∈ Finset.range n, g i := by
  have hmap : t.map f = (t.map Prod.fst).map g := by
    rw [List.map_map]
    exact List.map_congr_left fun e he => hfg e.1 e.2 (Table.read_of_mem (Table.wf_of_keys h) he)
  rw [hmap, h]
  rfl

/-! Frequencies of the nodes -/

/-- The frequency of node `i`, 0 where there is none. -/
def nodeFreq (nm : Table Node) (i : Nat) : Nat := ((Table.read nm i).map (fun n => n.freq.toNat)).getD 0

theorem nodeFreq_of_read {nm : Table Node} {i : Nat} {n : Node} (h : Table.read nm i = some n) :
    nodeFreq nm i = n.freq.toNat := by
  rw [nodeFreq, h]
  rfl

namespace TreeInv

variable {s : State}

/-- A leaf has the frequency that the map counts (R40 (a)). -/
theorem nodeFreq_leaf (h : TreeInv s) {i : Nat} (hi : i < s.k.toNat) {e : FmEntry} (he : Table.read s.fm i = some e) :
    nodeFreq s.nm i = e.cnt.toNat := by
  obtain ⟨e', he', hleaf⟩ := h.leaves i hi
  obtain rfl := Option.some_inj.mp (he.symm.trans he')
  exact nodeFreq_of_read hleaf

/-- The frequency of an internal node is the sum of its children's (R114). -/
theorem nodeFreq_internal (h : TreeInv s) {m : Nat} {f l r : Word32} (hm : Table.read s.nm m = some (.internal f l r)) :
    nodeFreq s.nm m = nodeFreq s.nm l.toNat + nodeFreq s.nm r.toNat := by
  have hlt := (h.child_lt (isChild_left hm)).2
  obtain ⟨f', l', r', a, b, hm', -, -, -, ha, hb, hf⟩ := h.internals m (h.internal_ge hm) hlt
  rw [hm] at hm'
  cases hm'
  rw [nodeFreq_of_read hm, nodeFreq_of_read ha, nodeFreq_of_read hb]
  exact hf

/-- The sum over the internal nodes is one over the nodes from K on. -/
theorem internalFreqSum_eq (h : TreeInv s) :
    internalFreqSum s.nm = ∑ m ∈ Finset.Ico s.k.toNat s.nn.toNat, nodeFreq s.nm m := by
  have hle : s.k.toNat ≤ s.nn.toNat := by have := h.size; have := h.nonempty; omega
  have hsum : internalFreqSum s.nm =
      ∑ i ∈ Finset.range s.nn.toNat, if i < s.k.toNat then 0 else nodeFreq s.nm i := by
    refine Table.sum_of_keys h.keys fun i n hi => ?_
    cases n with
    | leaf f a => rw [if_pos (h.leaf_lt hi)]; rfl
    | internal f l r => rw [if_neg (Nat.not_lt.mpr (h.internal_ge hi)), nodeFreq_of_read hi]; rfl
  rw [hsum, ← Finset.sum_range_add_sum_Ico _ hle,
    Finset.sum_eq_zero fun i hi => if_pos (Finset.mem_range.mp hi), Nat.zero_add]
  exact Finset.sum_congr rfl fun i hi => if_neg (Nat.not_lt.mpr (Finset.mem_Ico.mp hi).1)

/-- The cost of an assignment of lengths is a sum over the leaves. -/
theorem costOf_eq (h : TreeInv s) (hm : MapInv s) (len : Nat → Nat) :
    costOf s.fm len = ∑ i ∈ Finset.range s.k.toNat, nodeFreq s.nm i * len i :=
  Table.sum_of_keys hm.keys fun i e he => by
    rw [h.nodeFreq_leaf ((Table.read_isSome_of_keys hm.keys i).mp (by simp [he])) he]

/-- A sum over all nodes but the root is one over the internal nodes, where `v m` is what the children of `m` add. -/
theorem sum_below_root (h : TreeInv s) {g v : Nat → Nat}
    (hg : ∀ m f l r, Table.read s.nm m = some (.internal f l r) → g l.toNat + g r.toNat = v m) :
    ∑ i ∈ Finset.range s.root.toNat, g i = ∑ m ∈ Finset.Ico s.k.toNat s.nn.toNat, v m := by
  have hle : s.k.toNat ≤ s.nn.toNat := by have := h.size; have := h.nonempty; omega
  rw [← h.sum_childrenOf g, ← Finset.sum_range_add_sum_Ico _ hle, Finset.sum_eq_zero, Nat.zero_add]
  · refine Finset.sum_congr rfl fun m hm => ?_
    obtain ⟨hkm, hmn⟩ := Finset.mem_Ico.mp hm
    obtain ⟨f, l, r, _, _, hread, -⟩ := h.internals m hkm hmn
    rw [childrenOf_internal hread, Finset.sum_pair (h.children_ne hread), hg m f l r hread]
  · intro m hm
    obtain ⟨e, -, hread⟩ := h.leaves m (Finset.mem_range.mp hm)
    rw [childrenOf_leaf hread, Finset.sum_empty]

/-- Frequency times depth, summed over the leaves. The children of an internal node are one deeper and have its frequency
together, so the sum over all children exceeds the sum over all internal nodes by their frequencies; every node but the
root is a child, and the root has depth 0 (R192). -/
theorem sum_freq_mul_depth (h : TreeInv s) {depth : Nat → Nat} (hd : isDepth s depth) :
    ∑ i ∈ Finset.range s.k.toNat, nodeFreq s.nm i * depth i =
      ∑ m ∈ Finset.Ico s.k.toNat s.nn.toNat, nodeFreq s.nm m := by
  have hle : s.k.toNat ≤ s.nn.toNat := by have := h.size; have := h.nonempty; omega
  have hroot : depth s.root.toNat = 0 := (hd _ [] rfl).symm
  have hlast : s.root.toNat + 1 = s.nn.toNat := by have := h.root; have := h.size; have := h.nonempty; omega
  have hbelow := h.sum_below_root (g := fun i => nodeFreq s.nm i * depth i)
    (v := fun m => nodeFreq s.nm m * depth m + nodeFreq s.nm m) fun m f l r hm => by
      rw [(h.depth_child hd (isChild_left hm)).1, (h.depth_child hd (isChild_right hm)).1, h.nodeFreq_internal hm]
      ring
  have hall := Finset.sum_range_add_sum_Ico (fun i => nodeFreq s.nm i * depth i) hle
  rw [← hlast, Finset.sum_range_succ, hroot, Nat.mul_zero, Nat.add_zero, hlast, hbelow, Finset.sum_add_distrib] at hall
  omega

end TreeInv

/-- Settles O58: the length of a slot's code is the depth of its leaf (`TreeInv.sum_freq_mul_depth`). -/
theorem costIsTheSumOfInternalFrequencies : Obligations.CostIsTheSumOfInternalFrequencies := by
  intro s h hp hk
  have ht := h.phase.tree (by simp [hp])
  obtain ⟨depth, hd⟩ := ht.exists_depth
  rw [cost, ht.costOf_eq h.map, ht.internalFreqSum_eq, ← ht.sum_freq_mul_depth hd]
  exact Finset.sum_congr rfl fun i hi => by
    rw [(h.phase.table hp).slotLen_eq_depth (by omega) hd (Finset.mem_range.mp hi)]

/-! The code of the counted text (R194) -/

/-- The symbols with a code are those of the map (R41). -/
theorem mem_map_of_hasCode {s : State} (hc : CodeInv s) {a : Symbol} (ha : hasCode s a) :
    a ∈ s.fm.map (fun e => e.2.sym) := by
  obtain ⟨i, c, hr, rfl, -⟩ := exists_entry_of_hasCode hc ha
  obtain ⟨e, c', he, hr', hsym, -⟩ := hc.codes i (hc.read_code hr).1
  obtain rfl := Option.some_inj.mp (hr.symm.trans hr')
  exact List.mem_map.mpr ⟨_, Table.mem_of_read he, hsym.symm⟩

/-- The code of the symbol of slot `i` has the length of the slot's code. -/
theorem codeOf_length_eq_slotLen {s : State} (h : Inv s) (hp : s.phase = .ready) {i : Nat} {e : FmEntry}
    (he : Table.read s.fm i = some e) : (codeOf s e.sym).length = slotLen s i := by
  have htab := h.phase.table hp
  obtain ⟨j, c, hc, hsym, hcode⟩ := exists_entry_of_hasCode htab
    (hasCode_of_mem_map h.map htab (List.mem_map.mpr ⟨_, Table.mem_of_read he, rfl⟩))
  obtain ⟨e', c', he', hc', hsym', -⟩ := htab.codes j (htab.read_code hc).1
  obtain rfl := Option.some_inj.mp (hc.symm.trans hc')
  have hij := (Table.lookup_of_read h.map.distinct he rfl).symm.trans
    (Table.lookup_of_read h.map.distinct he' (hsym'.symm.trans hsym))
  simp only [Option.some_inj, Prod.mk.injEq] at hij
  rw [hcode, slotLen, hij.1, hc]
  rfl

/-- The code of the counted text has COST bits: its symbols taken slot by slot (R194). -/
theorem length_codeOfText_eq_cost {s : State} {text : List Symbol} (h : Inv s) (hp : s.phase = .ready)
    (hcodes : ∀ a ∈ text, hasCode s a)
    (hcount : ∀ i e, Table.read s.fm i = some e → text.count e.sym = e.cnt.toNat) :
    (codeOfText s text).length = cost s := by
  have hsub : text.toFinset ⊆ (s.fm.map (fun e => e.2.sym)).toFinset := fun a ha =>
    List.mem_toFinset.mpr (mem_map_of_hasCode (h.phase.table hp) (hcodes a (List.mem_toFinset.mp ha)))
  calc (codeOfText s text).length
    _ = (text.map (fun a => (codeOf s a).length)).sum := List.length_flatMap
    _ = ∑ a ∈ text.toFinset, text.count a • (codeOf s a).length := Finset.sum_list_map_count text _
    _ = ∑ a ∈ (s.fm.map (fun e => e.2.sym)).toFinset, text.count a • (codeOf s a).length :=
      Finset.sum_subset hsub fun a _ ha => by
        rw [List.count_eq_zero_of_not_mem (mt List.mem_toFinset.mpr ha), zero_smul]
    _ = ((s.fm.map (fun e => e.2.sym)).map (fun a => text.count a • (codeOf s a).length)).sum :=
      List.sum_toFinset _ h.map.distinct
    _ = cost s := by
      rw [List.map_map, cost, costOf]
      refine congrArg List.sum (List.map_congr_left fun e he => ?_)
      have hr := Table.read_of_mem (Table.wf_of_keys h.map.keys) he
      simp [hcount _ _ hr, codeOf_length_eq_slotLen h hp hr]

/-- With one symbol COST is TOTAL: the one code has one bit (R133). -/
theorem cost_single {s : State} (h : Inv s) (hp : s.phase = .ready) (hk : s.k.toNat = 1) :
    cost s = s.total.toNat := by
  rw [h.map.total, cost, costOf]
  refine congrArg List.sum (List.map_congr_left fun e he => ?_)
  have hr := Table.read_of_mem (Table.wf_of_keys h.map.keys) he
  obtain ⟨_, c, -, hc, -, hcode⟩ :=
    (h.phase.table hp).codes e.1 ((Table.read_isSome_of_keys h.map.keys e.1).mp (by simp [hr]))
  rw [isCodeOf, if_pos hk] at hcode
  simp [slotLen, hc, hcode]

/-- Settles O57: the frame holds the code of the text (`encodeFrameHoldsTheCodes`), which has COST bits. -/
theorem encodedLengthIsTheCost : Obligations.EncodedLengthIsTheCost := by
  intro s text h hp ha hcodes hcount hroom
  have hlen := length_codeOfText_eq_cost h hp hcodes hcount
  obtain ⟨t, ht, -, -, hencLen, -⟩ := encodeFrameHoldsTheCodes s text h hp ha hcodes (hlen.trans_le hroom)
  have hcost := hencLen.trans hlen
  refine ⟨t, ht, fun _ => hcost, fun hk => BitVec.eq_of_toNat_eq ?_⟩
  rw [hcost, cost_single h hp (by rw [hk]; rfl)]

end Sys2Proof.Machine
end

