-- ==== Sys2Proof/Proofs/OptimalityClaim.lean ====
section
/-! The code table is optimal (R192): the lengths of codes none of which begins another meet Kraft's inequality,
and no lengths that meet it cost less than the merges of BUILD, whose two least roots can be taken to have the longest codes. -/

namespace Sys2Proof.Machine

/-! Kraft's inequality -/

/-- The lengths `len` over the set `C` meet Kraft's inequality. -/
def Kraft (C : Finset Nat) (len : Nat → Nat) : Prop := ∑ i ∈ C, (1 / 2 : ℝ) ^ len i ≤ 1

/-- Non-empty words of which none begins another: two sequences of them that give the same bits are the same. -/
theorem uniquelyDecodable_of_prefixFree {S : Set (List Bool)} (hne : [] ∉ S)
    (hpre : ∀ u ∈ S, ∀ v ∈ S, u <+: v → u = v) : InformationTheory.UniquelyDecodable S := by
  intro us vs hus hvs heq
  induction us generalizing vs with
  | nil =>
    cases vs with
    | nil => rfl
    | cons v vs =>
      obtain ⟨rfl, -⟩ := List.append_eq_nil_iff.mp heq.symm
      exact absurd (hvs _ List.mem_cons_self) hne
  | cons u us ih =>
    have hu := hus u List.mem_cons_self
    cases vs with
    | nil =>
      obtain ⟨rfl, -⟩ := List.append_eq_nil_iff.mp heq
      exact absurd hu hne
    | cons v vs =>
      have hv := hvs v List.mem_cons_self
      rw [List.flatten_cons, List.flatten_cons] at heq
      obtain rfl : u = v := by
        rcases List.prefix_or_prefix_of_prefix (List.prefix_append u _) (heq ▸ List.prefix_append v _) with huv | hvu
        · exact hpre u hu v hv huv
        · exact (hpre v hv u hu hvu).symm
      rw [ih vs (fun w hw => hus w (List.mem_cons_of_mem u hw)) (fun w hw => hvs w (List.mem_cons_of_mem u hw))
        (List.append_cancel_left heq)]

/-- The lengths of non-empty codes, none of which begins another, meet Kraft's inequality (Kraft and McMillan's
theorem). -/
theorem kraft_of_prefixFree {k : Nat} {code : Nat → List Bool} (hne : ∀ i < k, code i ≠ [])
    (hpre : ∀ i < k, ∀ j < k, i ≠ j → ¬code i <+: code j) :
    Kraft (Finset.range k) (fun i => (code i).length) := by
  have heq : ∀ i < k, ∀ j < k, code i <+: code j → i = j := fun i hi j hj hij =>
    by_contra fun hn => hpre i hi j hj hn hij
  have hinj : Set.InjOn code (Finset.range k) := fun i hi j hj hij =>
    heq i (Finset.mem_range.mp hi) j (Finset.mem_range.mp hj) (hij ▸ List.prefix_rfl)
  have hdec : InformationTheory.UniquelyDecodable (SetLike.coe ((Finset.range k).image code)) := by
    refine uniquelyDecodable_of_prefixFree (fun h => ?_) fun u hu v hv huv => ?_
    · obtain ⟨i, hi, hnil⟩ := Finset.mem_image.mp h
      exact hne i (Finset.mem_range.mp hi) hnil
    · obtain ⟨i, hi, rfl⟩ := Finset.mem_image.mp hu
      obtain ⟨j, hj, rfl⟩ := Finset.mem_image.mp hv
      rw [heq i (Finset.mem_range.mp hi) j (Finset.mem_range.mp hj) huv]
  have hle := InformationTheory.kraft_mcmillan_inequality hdec
  rw [Finset.sum_image hinj, Fintype.card_bool] at hle
  exact_mod_cast hle

/-! The exchange: the least weight takes the greatest length -/

/-- A sum of which two terms stand apart. -/
theorem sum_eq_add_add_sum_erase {C : Finset Nat} {x z : Nat} (hx : x ∈ C) (hz : z ∈ C) (hne : z ≠ x) (f : Nat → Nat) :
    ∑ i ∈ C, f i = f x + f z + ∑ i ∈ (C.erase x).erase z, f i := by
  rw [← Finset.add_sum_erase C f hx, ← Finset.add_sum_erase _ f (Finset.mem_erase.mpr ⟨hne, hz⟩), add_assoc]

/-- Giving the lesser of two weights the greater of their lengths does not raise the cost. -/
theorem sum_mul_swap_le {C : Finset Nat} {weight len : Nat → Nat} {x z : Nat} (hx : x ∈ C) (hz : z ∈ C)
    (hw : weight x ≤ weight z) (hl : len x ≤ len z) :
    ∑ i ∈ C, weight i * len (Equiv.swap x z i) ≤ ∑ i ∈ C, weight i * len i := by
  by_cases hne : z = x
  · simp [hne]
  · rw [sum_eq_add_add_sum_erase hx hz hne, sum_eq_add_add_sum_erase hx hz hne, Equiv.swap_apply_left,
      Equiv.swap_apply_right]
    refine Nat.add_le_add (mul_add_mul_le_mul_add_mul hw hl) (Finset.sum_le_sum fun i hi => ?_)
    obtain ⟨hiz, hi'⟩ := Finset.mem_erase.mp hi
    rw [Equiv.swap_apply_of_ne_of_ne (Finset.ne_of_mem_erase hi') hiz]

/-- The lengths over `C` can be exchanged so that a least weight has a greatest length, at no more cost. -/
theorem exchange {C : Finset Nat} {weight len : Nat → Nat} {x : Nat} (hx : x ∈ C)
    (hleast : ∀ i ∈ C, weight x ≤ weight i) :
    ∃ len' : Nat → Nat, (∀ i ∈ C, len' i ≤ len' x) ∧ (∃ z ∈ C, len' x = len z) ∧
      ∑ i ∈ C, (1 / 2 : ℝ) ^ len' i = ∑ i ∈ C, (1 / 2 : ℝ) ^ len i ∧
      ∑ i ∈ C, weight i * len' i ≤ ∑ i ∈ C, weight i * len i := by
  obtain ⟨z, hz, hmax⟩ := C.exists_max_image len ⟨x, hx⟩
  have hmem : ∀ i ∈ C, Equiv.swap x z i ∈ C := fun i hi => by
    rw [Equiv.swap_apply_def]
    split_ifs
    · exact hz
    · exact hx
    · exact hi
  refine ⟨len ∘ Equiv.swap x z, fun i hi => ?_, ⟨z, hz, by simp⟩,
    Finset.sum_equiv (Equiv.swap x z) (fun i => ⟨hmem i, fun hi => ?_⟩) fun _ _ => rfl,
    sum_mul_swap_le hx hz (hleast z hz) (hmax x hx)⟩
  · rw [Function.comp_apply, Function.comp_apply, Equiv.swap_apply_left]
    exact hmax _ (hmem i hi)
  · rw [← Equiv.swap_apply_self x z i]
    exact hmem _ hi

/-! One merge -/

/-- Lengths that do not fill Kraft's inequality leave room for one more as long as the longest. -/
theorem sum_add_pow_le_one {D : Finset Nat} {len : Nat → Nat} {n : Nat} (hmax : ∀ i ∈ D, len i ≤ n)
    (hlt : ∑ i ∈ D, (1 / 2 : ℝ) ^ len i < 1) : ∑ i ∈ D, (1 / 2 : ℝ) ^ len i + (1 / 2 : ℝ) ^ n ≤ 1 := by
  have hunit : (2 : ℝ) ^ n * (1 / 2) ^ n = 1 := by rw [← mul_pow]; norm_num
  have hcount : (2 : ℝ) ^ n * ∑ i ∈ D, (1 / 2 : ℝ) ^ len i = (∑ i ∈ D, 2 ^ (n - len i) : Nat) := by
    rw [Finset.mul_sum, Nat.cast_sum]
    refine Finset.sum_congr rfl fun i hi => ?_
    rw [Nat.cast_pow, Nat.cast_ofNat, pow_sub₀ _ two_ne_zero (hmax i hi), one_div, inv_pow]
  have hpos : (0 : ℝ) < 2 ^ n := by positivity
  have hless : ∑ i ∈ D, 2 ^ (n - len i) < 2 ^ n := by
    have := (mul_lt_mul_iff_right₀ hpos).mpr hlt
    rw [hcount, mul_one] at this
    exact_mod_cast this
  refine (mul_le_mul_iff_right₀ hpos).mp ?_
  rw [mul_add, hcount, hunit, mul_one]
  exact_mod_cast hless

/-- A sum over a set with a new element, whose length is given apart. -/
theorem sum_insert_update {M : Type} [AddCommMonoid M] {E : Finset Nat} {m : Nat} (hm : m ∉ E) (len : Nat → Nat)
    (n : Nat) (φ : Nat → Nat → M) :
    ∑ i ∈ insert m E, φ i (Function.update len m n i) = φ m n + ∑ i ∈ E, φ i (len i) := by
  rw [Finset.sum_insert hm, Function.update_self]
  refine congrArg (φ m n + ·) (Finset.sum_congr rfl fun i hi => ?_)
  rw [Function.update_of_ne (ne_of_mem_of_not_mem hi hm)]

/-- Lengths before a merge of the two least weights `x` and `y` into `m` give lengths after it, at a cost that is lower
by the weight of `m`: exchange lengths until `x` has a longest code and `y` a longest of the others, and give `m` one bit
less than `y`. -/
theorem exists_merged_lengths {C : Finset Nat} {weight len : Nat → Nat} {x y m : Nat} (hx : x ∈ C) (hy : y ∈ C.erase x)
    (hm : m ∉ C) (hleast : ∀ i ∈ C, weight x ≤ weight i) (hnext : ∀ i ∈ C.erase x, weight y ≤ weight i)
    (hw : weight m = weight x + weight y) (hk : Kraft C len) :
    ∃ len', Kraft (insert m ((C.erase x).erase y)) len' ∧
      ∑ i ∈ insert m ((C.erase x).erase y), weight i * len' i + weight m ≤ ∑ i ∈ C, weight i * len i := by
  obtain ⟨len₁, hmax₁, -, hsum₁, hcost₁⟩ := exchange (len := len) hx hleast
  obtain ⟨len₂, hmax₂, ⟨z, hz, hlast⟩, hsum₂, hcost₂⟩ := exchange (len := len₁) hy hnext
  have hlt : ∑ i ∈ C.erase x, (1 / 2 : ℝ) ^ len₂ i < 1 := by
    have hpos : (0 : ℝ) < (1 / 2) ^ len₁ x := by positivity
    rw [Kraft, ← hsum₁, ← Finset.add_sum_erase C _ hx, ← hsum₂] at hk
    linarith
  have hroom := sum_add_pow_le_one hmax₂ hlt
  have hfresh : m ∉ (C.erase x).erase y := fun h => hm (Finset.mem_of_mem_erase (Finset.mem_of_mem_erase h))
  have hone : len₂ y ≠ 0 := fun h0 => by
    have := Finset.single_le_sum (f := fun i => (1 / 2 : ℝ) ^ len₂ i) (fun i _ => by positivity) hy
    simp only [h0, pow_zero] at this
    linarith
  obtain ⟨n, hn⟩ := Nat.exists_eq_succ_of_ne_zero hone
  refine ⟨Function.update len₂ m n, ?_, ?_⟩
  · rw [Kraft, sum_insert_update hfresh len₂ n fun _ l => (1 / 2 : ℝ) ^ l]
    rw [← Finset.add_sum_erase _ _ hy, hn, pow_succ] at hroom
    linarith
  · rw [sum_insert_update hfresh len₂ n fun i l => weight i * l, hw]
    have hlong : weight x * (n + 1) ≤ weight x * len₁ x :=
      Nat.mul_le_mul_left _ (by rw [← Nat.succ_eq_add_one, ← hn, hlast]; exact hmax₁ z (Finset.mem_of_mem_erase hz))
    rw [← Finset.add_sum_erase C _ hx] at hcost₁
    rw [← Finset.add_sum_erase _ _ hy, hn] at hcost₂
    linarith

/-! The merges of BUILD (R112) -/

/-- The roots of the forest at the moment node `m` is made (`mem_forestRoots` ties it to `isCandidate`). -/
def forestRoots (nm : Table Node) (m : Nat) : Finset Nat :=
  Finset.range m \ (Finset.range m).biUnion (childrenOf nm)

@[simp] theorem mem_forestRoots {nm : Table Node} {m i : Nat} : i ∈ forestRoots nm m ↔ isCandidate nm m i := by
  simp [forestRoots, isCandidate]

/-- `<<` orders by frequency first (R8). -/
theorem nodeFreq_le_of_nodeBefore {nm : Table Node} {i j : Nat} (h : nodeBefore nm i j) :
    nodeFreq nm i ≤ nodeFreq nm j := by
  obtain ⟨a, b, ha, hb, hlt | ⟨heq, -⟩⟩ := h
  · rw [nodeFreq_of_read ha, nodeFreq_of_read hb]
    exact hlt.le
  · rw [nodeFreq_of_read ha, nodeFreq_of_read hb, heq]

namespace TreeInv

variable {s : State}

/-- Before the first merge the roots are the leaves (R111). -/
theorem forestRoots_leaves (h : TreeInv s) : forestRoots s.nm s.k.toNat = Finset.range s.k.toNat := by
  ext i
  rw [mem_forestRoots, Finset.mem_range]
  refine ⟨And.left, fun hi => ⟨hi, fun m hm hc => ?_⟩⟩
  obtain ⟨f, l, r, hread, -⟩ := hc
  exact absurd (h.internal_ge hread) (by omega)

/-- A merge takes its two children out of the roots and puts the new node in (R112, R113). -/
theorem forestRoots_succ (h : TreeInv s) {m : Nat} {f l r : Word32} (hm : Table.read s.nm m = some (.internal f l r)) :
    forestRoots s.nm (m + 1) = insert m (((forestRoots s.nm m).erase l.toNat).erase r.toNat) := by
  have hchild : ∀ i, isChild s.nm m i ↔ i = l.toNat ∨ i = r.toNat := fun i => by
    rw [← mem_childrenOf, childrenOf_internal hm, Finset.mem_insert, Finset.mem_singleton]
  ext i
  simp only [Finset.mem_insert, Finset.mem_erase, mem_forestRoots, isCandidate, Nat.lt_succ_iff_lt_or_eq]
  constructor
  · rintro ⟨hi | rfl, hfree⟩
    · have hnot := mt (hchild i).mpr (hfree m (.inr rfl))
      rw [not_or] at hnot
      exact .inr ⟨hnot.2, hnot.1, hi, fun m' hm' => hfree m' (.inl hm')⟩
    · exact .inl rfl
  · rintro (rfl | ⟨hr, hl, hi, hfree⟩)
    · exact ⟨.inr rfl, fun m' hm' hc => by have := (h.child_lt hc).1; omega⟩
    · refine ⟨.inl hi, fun m' hm' => ?_⟩
      rcases hm' with hm' | rfl
      · exact hfree m' hm'
      · exact fun hc => ((hchild i).mp hc).elim hl hr

/-- The merges from node `m` on cost no more than any lengths for the roots that meet Kraft's inequality. -/
theorem sum_merges_le (h : TreeInv s) {m : Nat} (hk : s.k.toNat ≤ m) (hm : m ≤ s.nn.toNat) {len : Nat → Nat}
    (hlen : Kraft (forestRoots s.nm m) len) :
    ∑ i ∈ Finset.Ico m s.nn.toNat, nodeFreq s.nm i ≤ ∑ i ∈ forestRoots s.nm m, nodeFreq s.nm i * len i := by
  induction hleft : s.nn.toNat - m generalizing m len with
  | zero =>
    rw [Finset.Ico_eq_empty (by omega), Finset.sum_empty]
    exact Nat.zero_le _
  | succ d ih =>
    have hlt : m < s.nn.toNat := by omega
    obtain ⟨f, l, r, -, -, hread, -⟩ := h.internals m hk hlt
    obtain ⟨hl, hr, -, hleast, hnext⟩ := h.least m f l r hread
    have hlow : ∀ i ∈ forestRoots s.nm m, nodeFreq s.nm l.toNat ≤ nodeFreq s.nm i := fun i hi => by
      by_cases hil : i = l.toNat
      · rw [hil]
      · exact nodeFreq_le_of_nodeBefore (hleast i (mem_forestRoots.mp hi) hil)
    have hlow' : ∀ i ∈ (forestRoots s.nm m).erase l.toNat, nodeFreq s.nm r.toNat ≤ nodeFreq s.nm i := fun i hi => by
      obtain ⟨hil, hi⟩ := Finset.mem_erase.mp hi
      by_cases hir : i = r.toNat
      · rw [hir]
      · exact nodeFreq_le_of_nodeBefore (hnext i (mem_forestRoots.mp hi) hil hir)
    obtain ⟨len', hlen', hcost⟩ := exists_merged_lengths (mem_forestRoots.mpr hl)
      (Finset.mem_erase.mpr ⟨(h.children_ne hread).symm, mem_forestRoots.mpr hr⟩)
      (fun hm => absurd (mem_forestRoots.mp hm).1 (Nat.lt_irrefl m)) hlow hlow' (h.nodeFreq_internal hread) hlen
    rw [← h.forestRoots_succ hread] at hlen' hcost
    have hrest := ih (m := m + 1) (by omega) hlt hlen' (by omega)
    rw [Finset.sum_eq_sum_Ico_succ_bot hlt]
    omega

end TreeInv

/-- Settles O59: COST is the sum of the internal frequencies, which is at most the cost of any lengths that meet Kraft's
inequality (`TreeInv.sum_merges_le`), so of those of the other codes (`kraft_of_prefixFree`). -/
theorem codeTableIsOptimal : Obligations.CodeTableIsOptimal := by
  intro s code h hp hk hne hpre
  have ht := h.phase.tree (by simp [hp])
  have hkraft := kraft_of_prefixFree hne hpre
  have hle : s.k.toNat ≤ s.nn.toNat := by have := ht.size; omega
  rw [← ht.forestRoots_leaves] at hkraft
  calc cost s
    _ = internalFreqSum s.nm := costIsTheSumOfInternalFrequencies s h hp hk
    _ = ∑ m ∈ Finset.Ico s.k.toNat s.nn.toNat, nodeFreq s.nm m := ht.internalFreqSum_eq
    _ ≤ ∑ i ∈ forestRoots s.nm s.k.toNat, nodeFreq s.nm i * (code i).length := ht.sum_merges_le le_rfl hle hkraft
    _ = ∑ i ∈ Finset.range s.k.toNat, nodeFreq s.nm i * (code i).length := by rw [ht.forestRoots_leaves]
    _ = costOf s.fm (fun i => (code i).length) := (ht.costOf_eq h.map _).symm

end Sys2Proof.Machine
end

