-- ==== Sys2Proof/Proofs/ExceptionClaims.lean ====
section
/-! The claims of 60_exceptions.md: what a fault sets (R200, R207), what a refusal leaves unchanged (R203), the step
without a command (R220, R230), and that no step stops the machine (R208, R243). -/

namespace Sys2Proof.Machine

/-! Every step answers a next state (R208, R243) -/

/-- A command whose body answers a next state answers one, whatever the phase check says (R88). -/
theorem checked_completes (i : Instr) (s u : State) : ∃ t, checked i s (.next u) = .next t := by
  rcases checked_cases (rfl : checked i s (.next u) = _) with ⟨-, hr⟩ | ⟨-, hr⟩
  · exact ⟨_, hr.symm⟩
  · exact ⟨_, hr⟩

/-- FSYM and FADD answer a next state in every state. -/
theorem countSymbol_completes (i : Instr) (sym : Symbol) (cnt : Word32) (s : State) :
    ∃ t, countSymbol i sym cnt s = .next t := by
  rcases countSymbol_cases rfl with ⟨-, hr⟩ | ⟨-, -, hr⟩ | ⟨-, -, -, hr⟩ | ⟨-, -, -, -, -, hr⟩ | ⟨_, _, -, -, -, -, hr⟩
  all_goals exact ⟨_, hr⟩

/-- ESYM answers a next state in every state. -/
theorem execEsym_completes (sym : Symbol) (s : State) : ∃ t, execEsym sym s = .next t := by
  rcases execEsym_cases rfl with ⟨-, hr⟩ | ⟨-, -, hr⟩ | ⟨_, _, -, -, -, hr⟩ | ⟨_, _, -, -, -, hr⟩
  all_goals exact ⟨_, hr⟩

namespace Inv

variable {s : State}

/-- The slots of a non-empty map are valid, so BUILD reads valid entries only (R38). -/
theorem execBuild_completes (h : Inv s) : ∃ t, execBuild s = .next t := by
  rcases execBuild_cases rfl with ⟨-, hr⟩ | ⟨-, -, hr⟩ | ⟨_, _, -, -, -, hr⟩ | ⟨-, hk, hno, -⟩
  · exact ⟨_, hr⟩
  · exact ⟨_, hr⟩
  · exact ⟨_, hr⟩
  · obtain ⟨e, es, hes⟩ := h.map.exists_entries hk
    exact absurd hes (hno e es)

/-- GENTAB is accepted only where there is a tree, whose walk ends (R40). -/
theorem execGentab_completes (h : Inv s) : ∃ t, execGentab s = .next t := by
  rcases execGentab_cases rfl with ⟨-, hr⟩ | ⟨_, -, -, hr⟩ | ⟨f, ha, herr, -⟩
  · exact ⟨_, hr⟩
  · exact ⟨_, hr⟩
  · have hp : s.phase = .built := (accepts_iff_phaseCondition .gentab s).mp ha
    obtain ⟨ct, hok⟩ := (h.phase.tree (by simp [hp])).exists_codeTable
    cases herr.symm.trans hok

/-- An open decode frame reads valid nodes: the root of the tree and the current node (R35, R39). -/
theorem decodeNodes_valid (h : Inv s) (ha : s.decAct = true) :
    ¬(Table.read s.nm s.root.toNat = none ∨ Table.read s.nm s.cur.toNat = none) := by
  have ht := h.decodeTree ha
  obtain ⟨root, hroot⟩ := Table.exists_of_keys ht.keys (ht.path_lt (p := []) rfl)
  obtain ⟨cur, hcur⟩ := Table.exists_of_keys ht.keys (h.frames.curValid ha)
  simp [hroot, hcur]

/-- DBIT is accepted only in an open decode frame (`decodeNodes_valid`). -/
theorem execDbit_completes (h : Inv s) (bit : Bool) : ∃ t, execDbit bit s = .next t := by
  rcases execDbit_cases rfl with ⟨-, hr⟩ | ⟨-, -, hr⟩ | ⟨_, _, -, -, -, hr⟩ | ⟨_, _, _, _, _, -, -, -, -, hr⟩ |
    ⟨_, _, _, _, _, _, -, -, -, -, hr⟩ | ⟨ha, -, hnone, -⟩
  · exact ⟨_, hr⟩
  · exact ⟨_, hr⟩
  · exact ⟨_, hr⟩
  · exact ⟨_, hr⟩
  · exact ⟨_, hr⟩
  · exact absurd hnone (h.decodeNodes_valid ha)

/-- DEND is accepted only in an open decode frame (`decodeNodes_valid`). -/
theorem execDend_completes (h : Inv s) : ∃ t, execDend s = .next t := by
  rcases execDend_cases rfl with ⟨-, hr⟩ | ⟨_, _, -, -, hr⟩ | ⟨_, _, _, _, _, -, -, -, hr⟩ |
    ⟨_, _, _, _, _, _, -, -, -, hr⟩ | ⟨ha, hnone, -⟩
  · exact ⟨_, hr⟩
  · exact ⟨_, hr⟩
  · exact ⟨_, hr⟩
  · exact ⟨_, hr⟩
  · exact absurd hnone (h.decodeNodes_valid ha)

/-- Every command answers a next state. -/
theorem exec_completes (h : Inv s) (i : Instr) : ∃ t, exec i s = .next t := by
  cases i with
  | nop | rst | eclr | rdr | rdf | rdn | rdc => exact ⟨_, rfl⟩
  | fsym sym => exact countSymbol_completes _ sym 1 s
  | fadd sym cnt => exact countSymbol_completes _ sym cnt s
  | build => exact h.execBuild_completes
  | gentab => exact h.execGentab_completes
  | ebeg | eend | dbeg => exact checked_completes _ s _
  | esym sym => exact execEsym_completes sym s
  | dbit bit => exact h.execDbit_completes bit
  | dend => exact h.execDend_completes

end Inv

/-- Settles O48: a step is the idle one, a reset, a refusal or a command, which completes (`Inv.exec_completes`). -/
theorem stepNeverStops : Obligations.StepNeverStops := by
  intro s h
  rcases step_cases s with ⟨-, hr⟩ | ⟨_, -, hr⟩ | ⟨_, rest, i, -, -, hr⟩ | ⟨_, _, -, -, hr⟩
  · exact ⟨_, hr⟩
  · exact ⟨_, hr⟩
  · rw [hr]
    exact (h.withInput rest).exec_completes i
  · exact ⟨_, hr⟩

/-! Refusals (R203) -/

/-- The last response of a state is the one its trace ends in. -/
theorem last_response_eq {t : State} {pre : List OutItem} {rs : List RspWord} {w r : RspWord}
    (hout : t.out = pre ++ [.rsp w]) (hr : t.rsps = rs ++ [r]) : w = r := by
  have hrsps : pre.filterMap OutItem.toRsp ++ [w] = rs ++ [r] := by
    rw [← hr, State.rsps, hout, List.filterMap_append]
    rfl
  exact List.head_eq_of_cons_eq (List.append_inj_right' hrsps rfl)

/-- A command that changes more than the error registers answers OK, UnknownSymbol or TruncatedInput (R202, R203). -/
theorem Effect.fault_or_status_lt_four {i : Instr} {s t : State} (he : Effect i s t) :
    (∃ x info, t = raiseFault x info s) ∨ ∃ pre w, t.out = pre ++ [.rsp w] ∧ rspStatus w < 4 := by
  cases he with
  | fault x info => exact .inl ⟨x, info, rfl⟩
  | esymUnknown sym ha => exact .inr ⟨_, _, raiseFault_out _ _ _, (rspStatus_fault _ _).trans_lt (by decide)⟩
  | dendTruncated ha => exact .inr ⟨_, _, raiseFault_out _ _ _, (rspStatus_fault _ _).trans_lt (by decide)⟩
  | _ => exact .inr ⟨_, _, respondOk_out _ _, (rspStatus_rspWord 0 _).trans_lt (by decide)⟩

/-- A command word whose response has status 4 or more raises a fault, and nothing else. -/
theorem step_refused {s t : State} {w : CmdWord} {rest : List Input} {r : RspWord} (hinp : s.inp = .command w :: rest)
    (hs : step s = .next t) (hr : t.rsps = s.rsps ++ [r]) (hstatus : 4 ≤ rspStatus r) :
    ∃ x info, t = raiseFault x info { s with inp := rest } := by
  by_cases hdec : ∃ i, decode w = .ok i
  · obtain ⟨i, hdec⟩ := hdec
    rw [stepRunsTheDecodedCommand s w rest i hinp hdec] at hs
    rcases (exec_effect hs).fault_or_status_lt_four with hfault | ⟨pre, w', hout, hlow⟩
    · exact hfault
    · obtain rfl := last_response_eq hout hr
      omega
  · rw [illegalWordIsRefused s w rest hinp (not_exists.mp hdec)] at hs
    cases hs
    exact ⟨_, _, rfl⟩

/-- Settles O12: the next state is that of raising a fault (`step_refused`), whose response is the one answered. -/
theorem refusedCommandsChangeOnlyTheErrorRegisters : Obligations.RefusedCommandsChangeOnlyTheErrorRegisters := by
  intro s t w rest r hinp hs hr hstatus
  obtain ⟨x, info, rfl⟩ := step_refused hinp hs hr hstatus
  obtain rfl := last_response_eq (raiseFault_out x info _) hr
  rfl

/-! The step without a command (R220, R230) -/

/-- Settles O9: of all a step can be, no input leaves the idle step and a pulse of the reset input the reset. -/
theorem idleAndHardwareReset : Obligations.IdleAndHardwareReset := by
  refine fun s rest => ⟨fun hinp => ?_, fun hinp => ?_⟩
  · rcases step_cases s with ⟨-, hr⟩ | ⟨_, h, -⟩ | ⟨_, _, _, h, -⟩ | ⟨_, _, h, -⟩
    · exact hr
    · cases hinp.symm.trans h
    · cases hinp.symm.trans h
    · cases hinp.symm.trans h
  · rcases step_cases s with ⟨h, -⟩ | ⟨_, h, hr⟩ | ⟨_, _, _, h, -⟩ | ⟨_, _, h, -⟩
    · cases hinp.symm.trans h
    · cases hinp.symm.trans h
      exact hr
    · cases hinp.symm.trans h
    · cases hinp.symm.trans h

/-! The fault record (R200, R207) -/

/-- ELAST reads the code of the fault just raised (R34). -/
theorem raiseFault_eLast_toNat (x : FaultKind) (info : Word32) (s : State) :
    (raiseFault x info s).eLast.toNat = faultCode x := by
  rw [raiseFault_eLast, BitVec.toNat_ofNat, Nat.mod_eq_of_lt ((faultCode_range x).2.trans_lt (by decide))]

/-- Raising a fault sets the bit of its code in ERR and no other (R33). -/
theorem raiseFault_err_getLsbD (x : FaultKind) (info : Word32) (s : State) (n : Nat) :
    (raiseFault x info s).err.getLsbD n = (s.err.getLsbD n || decide (n = faultCode x)) := by
  have hlt : faultCode x < 32 := (faultCode_range x).2.trans_lt (by decide)
  have hbit : (1#32 <<< faultCode x).getLsbD n = decide (n = faultCode x) := by
    rw [← BitVec.twoPow_eq, BitVec.getLsbD_twoPow, decide_eq_true hlt, Bool.true_and]
    exact decide_eq_decide.mpr eq_comm
  rw [raiseFault_err, BitVec.getLsbD_or, hbit]

/-- Settles O10: the fields of the response word are those it is made of (R90). -/
theorem raiseSetsTheFaultRecord : Obligations.RaiseSetsTheFaultRecord :=
  ⟨⟨rfl, rfl, rfl, rfl, rfl, rfl, rfl⟩, fun x info s =>
    ⟨fun n _ => raiseFault_err_getLsbD x info s n, raiseFault_eLast_toNat x info s, rfl,
      _, rspStatus_fault x info, rspWord_zeros _ _, rspWord_data _ _, rfl⟩⟩

end Sys2Proof.Machine
end
